-- ==== Sys2Proof/Word.lean ====
section
/-! DEFINITION. Word.lean: the block's two fixed widths (00_scope.md R10) and byte sequences (R13). -/

namespace Sys2Proof

/-- A byte: 8 bits, bit 0 least significant (00_scope.md R10, R12). -/
abbrev Byte := BitVec 8

/-- A checksum or an integer field value: 32 bits, unsigned (00_scope.md R10). -/
abbrev Word32 := BitVec 32

/-- A byte sequence; element 0 is the first in time and the lowest index (00_scope.md R13). -/
abbrev Bytes := List Byte

end Sys2Proof
end

