-- ==== Sys2Proof/Config.lean ====
section
/-! DEFINITION. Config.lean: the agents and the parameters of an instance (00_scope.md R8, R11; 20_memory.md R60-R62).
The spec leaves no RESULT open, so there is no free value; what an instance fixes is plain data, an argument of
every statement, and no statement rests on one choice of it. -/

namespace Sys2Proof

/-- The agents that issue operations (20_memory.md R60, R61, R62). -/
inductive Agent where
  | reader
  | deframer
  | app
  deriving DecidableEq, Repr

/-- The arguments of an instance, fixed at construction and never changed by an operation (10_state.md R21).
`pktSize` and validity are derived in Machine/Construct.lean. -/
structure Config where
  /-- MSG_SIZE: byte length of a RawFrame (R8). -/
  msgSize : Nat
  /-- DELIM: the delimiter the scanner looks for (R8). -/
  delim : Byte
  /-- RB_CAP: ring buffer capacity (R8). -/
  rbCap : Nat
  /-- RD_BUF: most bytes one transport read delivers; used only in the validity check (R8). -/
  rdBuf : Nat
  /-- FQ_CAP ≥ 1: capacity of the frame queue, an open parameter (R11). -/
  fqCap : Nat
  /-- DQ_CAP ≥ 1: capacity of the data queue, an open parameter (R11). -/
  dqCap : Nat
  /-- The one agent ACC belongs to, "whichever single agent issues CRC.INIT, CRC.UPD, CRC.FIN" (20_memory.md R62).
  DESIGN CHOICE, safe: a parameter (log 10). -/
  accOwner : Agent
  /-- FQ_CAP ≥ 1 (R11): arguments that break the bound are none. No construction test, so no part of CFGERR: DEDUCED,
  safe (log 5). -/
  fqCap_pos : 1 ≤ fqCap := by decide
  /-- DQ_CAP ≥ 1 (R11), likewise. -/
  dqCap_pos : 1 ≤ dqCap := by decide
  deriving DecidableEq, Repr

end Sys2Proof
end

