-- ==== Sys2Proof/Syntax.lean ====
section
/-! DEFINITION. Syntax.lean: operations with their operands (30_encoding.md R90, R91), schemas (R80), and the
requests agents issue. -/

namespace Sys2Proof

/-- NAME: the type of a field name, any type with decidable equality and a distinguished empty value
(00_scope.md R11, 30_encoding.md R80). DESIGN CHOICE, safe: a list of characters, the empty name is [] (log 12). -/
abbrev Name := List Char

/-- A FieldDescriptor (30_encoding.md R80): `endIdx` is inclusive, both indices count from 0 into the decoded frame.
An absent name is the empty name, an absent zerofill is false. -/
structure FieldDescriptor where
  name : Name := []
  startIdx : Nat
  endIdx : Nat
  zerofill : Bool := false
  deriving DecidableEq, Repr

/-- An ordered sequence of descriptors of any length, 0 included (30_encoding.md R80, 00_scope.md R11). -/
abbrev Schema := List FieldDescriptor

/-- The 24 operations, one constructor per row of 30_encoding.md R90, each with its operands in the row's order. -/
inductive Instr where
  | rbEnq (b : Byte)
  | rbDeq
  | rbFull
  | rbEmpty
  | rbSize
  | rbCap
  | rbClr
  | rbSnap
  | cobsEnc (p : Bytes) (d : Byte)
  | cobsDec (e : Bytes) (d : Byte)
  | crcInit
  | crcUpd (b : Byte)
  | crcFin
  | crcSum (data : Bytes)
  | crcMsum (data : Bytes) (fields : Schema)
  | rxPush (b : Byte)
  | scStep (b : Byte)
  | scPass
  | frChk
  | fxGet (frame : Bytes) (startIdx endIdx : Nat)
  | fxHash (frame : Bytes)
  | recDec (frame : Bytes) (schema : Schema)
  | txSeal (fields : Bytes)
  | txBuild (fields : Bytes) (d : Byte)
  deriving DecidableEq, Repr

/-- The 24 rows of the opcode table without operands. -/
inductive Op where
  | rbEnq | rbDeq | rbFull | rbEmpty | rbSize | rbCap | rbClr | rbSnap
  | cobsEnc | cobsDec
  | crcInit | crcUpd | crcFin | crcSum | crcMsum
  | rxPush | scStep | scPass | frChk
  | fxGet | fxHash | recDec
  | txSeal | txBuild
  deriving DecidableEq, Repr

/-- The kinds of operand of format OP8 (30_encoding.md R91). -/
inductive OperandKind where
  | byte
  | nat
  | seq
  | schema
  deriving DecidableEq, Repr

/-- An operand passed by value (30_encoding.md R91): a byte, a natural number, a byte sequence with its length,
or a schema. -/
inductive Operand where
  | byte (b : Byte)
  | nat (n : Nat)
  | seq (s : Bytes)
  | schema (fs : Schema)
  deriving DecidableEq, Repr

/-- An operation request: "the 8-bit code of rule R90 plus its operands passed by value" (30_encoding.md R91).
DESIGN CHOICE, safe: the operands stay typed values, since the spec packs none into bits (log 1). -/
structure Request where
  code : Byte
  operands : List Operand
  deriving DecidableEq, Repr

/-- What the world does to the block at one point of the interleaving (20_memory.md R60-R64): an agent issues a
request, APP takes the oldest RawFrame of DQ (10_state.md R36), or the host resets the block with an instance's
arguments (70_reset_and_hazards.md R260). -/
inductive Action where
  | issue (agent : Agent) (request : Request)
  | takeData
  | reset (arguments : Config)
  deriving DecidableEq, Repr

end Sys2Proof
end

