-- ==== Sys2Proof/WellFormed.lean ====
section
/-! DEFINITION. WellFormed.lean: the shape of a request. Every value of `Instr` is well formed: no operand value is
reserved (30_encoding.md R93) and descriptor ranges are checked at use, never when a schema is formed (R81). What can
be ill formed is a request: its code may be reserved (R92) and its operands may be of the wrong number or kind
(93_implementation_defined.md U11). -/

namespace Sys2Proof

/-- The select codes of 30_encoding.md R90. -/
def definedCodes : List Byte :=
  [0x10, 0x11, 0x12, 0x13, 0x14, 0x15, 0x16, 0x17, 0x20, 0x21, 0x30, 0x31, 0x32, 0x33, 0x34,
   0x40, 0x41, 0x42, 0x43, 0x50, 0x51, 0x52, 0x60, 0x61]

/-- The kind of an operand. -/
def Operand.kind : Operand → OperandKind
  | .byte _ => .byte
  | .nat _ => .nat
  | .seq _ => .seq
  | .schema _ => .schema

/-- The operands a row of 30_encoding.md R90 takes, in order. -/
def Op.signature : Op → List OperandKind
  | .rbEnq | .crcUpd | .rxPush | .scStep => [.byte]
  | .rbDeq | .rbFull | .rbEmpty | .rbSize | .rbCap | .rbClr | .rbSnap
  | .crcInit | .crcFin | .scPass | .frChk => []
  | .cobsEnc | .cobsDec | .txBuild => [.seq, .byte]
  | .crcSum | .fxHash | .txSeal => [.seq]
  | .crcMsum | .recDec => [.seq, .schema]
  | .fxGet => [.seq, .nat, .nat]

/-- First check: the code is one of R90's, not reserved. -/
def Request.codeDefined (r : Request) : Bool := definedCodes.contains r.code

/-- Second check: the operands are those of the row `o`, in number, order and kind. -/
def Request.operandsFit (r : Request) (o : Op) : Bool := r.operands.map Operand.kind == o.signature

end Sys2Proof
end

