-- ==== Sys2Proof/Decode.lean ====
section
/-! DEFINITION. Decode.lean: the select codes of 30_encoding.md R90, the decoder of requests, total on every code and
every operand list, and the encoder. -/

namespace Sys2Proof

/-- The operation-select code of each row (30_encoding.md R90). -/
def Op.code : Op → Byte
  | .rbEnq => 0x10
  | .rbDeq => 0x11
  | .rbFull => 0x12
  | .rbEmpty => 0x13
  | .rbSize => 0x14
  | .rbCap => 0x15
  | .rbClr => 0x16
  | .rbSnap => 0x17
  | .cobsEnc => 0x20
  | .cobsDec => 0x21
  | .crcInit => 0x30
  | .crcUpd => 0x31
  | .crcFin => 0x32
  | .crcSum => 0x33
  | .crcMsum => 0x34
  | .rxPush => 0x40
  | .scStep => 0x41
  | .scPass => 0x42
  | .frChk => 0x43
  | .fxGet => 0x50
  | .fxHash => 0x51
  | .recDec => 0x52
  | .txSeal => 0x60
  | .txBuild => 0x61

/-- The rows of 30_encoding.md R90, in its order. -/
def opTable : List Op :=
  [.rbEnq, .rbDeq, .rbFull, .rbEmpty, .rbSize, .rbCap, .rbClr, .rbSnap, .cobsEnc, .cobsDec,
   .crcInit, .crcUpd, .crcFin, .crcSum, .crcMsum, .rxPush, .scStep, .scPass, .frChk,
   .fxGet, .fxHash, .recDec, .txSeal, .txBuild]

/-- The row a code selects; none for the 232 reserved codes (30_encoding.md R92). -/
def opOfCode (c : Byte) : Option Op := opTable.find? (fun o => o.code == c)

/-- A request is well formed when its code selects a row and its operands are that row's. -/
def Request.wellFormed (r : Request) : Bool :=
  match opOfCode r.code with
  | some o => r.codeDefined && r.operandsFit o
  | none => false

/-- Why a request is not an operation. -/
inductive DecodeError where
  /-- The code is reserved (30_encoding.md R92). -/
  | reservedCode (c : Byte)
  /-- The operands are not of the row's types (93_implementation_defined.md U11). -/
  | operandMismatch (c : Byte)
  deriving DecidableEq, Repr

/-- Put the operands of a request into their row's constructor; none when they do not fit. -/
def instrOf : Op → List Operand → Option Instr
  | .rbEnq, [.byte b] => some (.rbEnq b)
  | .rbDeq, [] => some .rbDeq
  | .rbFull, [] => some .rbFull
  | .rbEmpty, [] => some .rbEmpty
  | .rbSize, [] => some .rbSize
  | .rbCap, [] => some .rbCap
  | .rbClr, [] => some .rbClr
  | .rbSnap, [] => some .rbSnap
  | .cobsEnc, [.seq p, .byte d] => some (.cobsEnc p d)
  | .cobsDec, [.seq e, .byte d] => some (.cobsDec e d)
  | .crcInit, [] => some .crcInit
  | .crcUpd, [.byte b] => some (.crcUpd b)
  | .crcFin, [] => some .crcFin
  | .crcSum, [.seq data] => some (.crcSum data)
  | .crcMsum, [.seq data, .schema fields] => some (.crcMsum data fields)
  | .rxPush, [.byte b] => some (.rxPush b)
  | .scStep, [.byte b] => some (.scStep b)
  | .scPass, [] => some .scPass
  | .frChk, [] => some .frChk
  | .fxGet, [.seq frame, .nat startIdx, .nat endIdx] => some (.fxGet frame startIdx endIdx)
  | .fxHash, [.seq frame] => some (.fxHash frame)
  | .recDec, [.seq frame, .schema schema] => some (.recDec frame schema)
  | .txSeal, [.seq fields] => some (.txSeal fields)
  | .txBuild, [.seq fields, .byte d] => some (.txBuild fields d)
  | _, _ => none

/-- The operation decoder: total, rejecting by name. -/
def decode (r : Request) : Except DecodeError Instr :=
  match opOfCode r.code with
  | none => .error (.reservedCode r.code)
  | some o =>
    match instrOf o r.operands with
    | some i => .ok i
    | none => .error (.operandMismatch r.code)

/-- The row of an operation. -/
def Instr.op : Instr → Op
  | .rbEnq _ => .rbEnq
  | .rbDeq => .rbDeq
  | .rbFull => .rbFull
  | .rbEmpty => .rbEmpty
  | .rbSize => .rbSize
  | .rbCap => .rbCap
  | .rbClr => .rbClr
  | .rbSnap => .rbSnap
  | .cobsEnc _ _ => .cobsEnc
  | .cobsDec _ _ => .cobsDec
  | .crcInit => .crcInit
  | .crcUpd _ => .crcUpd
  | .crcFin => .crcFin
  | .crcSum _ => .crcSum
  | .crcMsum _ _ => .crcMsum
  | .rxPush _ => .rxPush
  | .scStep _ => .scStep
  | .scPass => .scPass
  | .frChk => .frChk
  | .fxGet _ _ _ => .fxGet
  | .fxHash _ => .fxHash
  | .recDec _ _ => .recDec
  | .txSeal _ => .txSeal
  | .txBuild _ _ => .txBuild

/-- The operands of an operation, in the order of 30_encoding.md R90. -/
def Instr.operands : Instr → List Operand
  | .rbEnq b | .crcUpd b | .rxPush b | .scStep b => [.byte b]
  | .rbDeq | .rbFull | .rbEmpty | .rbSize | .rbCap | .rbClr | .rbSnap
  | .crcInit | .crcFin | .scPass | .frChk => []
  | .cobsEnc s d | .cobsDec s d | .txBuild s d => [.seq s, .byte d]
  | .crcSum s | .fxHash s | .txSeal s => [.seq s]
  | .crcMsum s fs | .recDec s fs => [.seq s, .schema fs]
  | .fxGet s i j => [.seq s, .nat i, .nat j]

/-- The encoder: the request of an operation (30_encoding.md R90, R91). -/
def encode (i : Instr) : Request := ⟨i.op.code, i.operands⟩

/-- The operand of a kind that stands for an operand word of zeros: the byte 0, the number 0, the empty sequence,
the empty schema. -/
def zeroOperand : OperandKind → Operand
  | .byte => .byte 0
  | .nat => .nat 0
  | .seq => .seq []
  | .schema => .schema []

/-- The request with a code and operands of zeros of that code's kinds (none where the code is reserved). -/
def zeroRequest (c : Byte) : Request :=
  ⟨c, match opOfCode c with
      | some o => o.signature.map zeroOperand
      | none => []⟩

/-- What the decoder reads from a row of opcode_table.json: the table gives a request the 8 bits of its code and no
bits of its operands, which are then zeros. -/
def decodeTableWord (nbits w : Nat) : Option Instr :=
  if nbits = 8 ∧ w < 256 then
    match decode (zeroRequest (BitVec.ofNat 8 w)) with
    | .ok i => some i
    | .error _ => none
  else none

end Sys2Proof
end

