-- ==== Sys2Proof/Machine/Construct.lean ====
section
/-! DEFINITION. Machine/Construct.lean: what is derived from an instance's arguments: PKT_SIZE, validity, and the
arguments the model's own reset state uses. -/

namespace Sys2Proof

/-- PKT_SIZE = MSG_SIZE + 1 (00_scope.md R8, 10_state.md R21). -/
def Config.pktSize (c : Config) : Nat := c.msgSize + 1

/-- Configuration validity (00_scope.md R9, 70_reset_and_hazards.md R261): exactly these four tests. -/
def Config.valid (c : Config) : Bool :=
  decide (1 ≤ c.msgSize) && decide (1 ≤ c.rdBuf) && decide (1 ≤ c.rbCap) && decide (c.rdBuf ≤ c.rbCap)

/-- The arguments of the instance that `State.reset` stands for. MSG_SIZE = 56 and DELIM = 0xCF are "the source's
end-to-end example" (00_scope.md R8); the others are DESIGN CHOICE, unsafe (log 4): RB_CAP ≥ RD_BUF + MSG_SIZE as
70_reset_and_hazards.md R282 advises, and two places in each queue. -/
def exampleConfig : Config :=
  { msgSize := 56, delim := 0xCF, rbCap := 128, rdBuf := 64, fqCap := 2, dqCap := 2, accOwner := .app }

end Sys2Proof
end

