-- ==== Sys2Proof/Machine/State.lean ====
section
/-! DEFINITION. Machine/State.lean: the whole state (10_state.md R20), what an operation returns (60_exceptions.md R220,
R240), why a step stops, and reset (10_state.md R40, 70_reset_and_hazards.md R260). -/

namespace Sys2Proof.Machine

/-- A byte array of the block, RBMEM or PB (20_memory.md R50): (index, byte) cells, indices strictly rising, no cell
holding what an unlisted index reads as (`Memory.fillByte`, `Memory.wf` in Machine/Ops.lean). -/
abbrev Memory := List Host.Cell

/-- Why a step stops with a fault. -/
inductive Fault where
  /-- An access to RBMEM at an index outside 0..RB_CAP-1, which does not exist (10_state.md R22). Raised by the
  operations that load or store RBMEM, only in states no run reaches ("No rule ever forms an index outside",
  20_memory.md R56). Safe (log 7). -/
  | ringIndex
  deriving DecidableEq, Repr

/-- Why a step gives a request no meaning. -/
inductive Refusal where
  /-- An operation that has no meaning in this model yet; none is left. Raised by exec's arms. Safe. -/
  | notModelled (mnemonic : String)
  /-- An agent issued an operation of a unit it does not own, which "is outside the contract and a model refuses it"
  (60_exceptions.md R245, 20_memory.md R60). Raised by `issue`. Safe (log 10). -/
  | notOwner (agent : Agent)
  /-- A request whose operands are not of the types of its code's row; "they cannot be written in the operation's
  type" (93_implementation_defined.md U11). Raised by `issue`. Safe (log 16). -/
  | badOperands (code : Byte)
  deriving DecidableEq, Repr

/-- A field value of a record (30_encoding.md R82). -/
inductive Value where
  | integer (v : Word32)
  | bytes (s : Bytes)
  deriving DecidableEq, Repr

/-- A DecodedRecord: a finite mapping with unique keys, the keys strictly rising in `nameLt` (Machine/Operands.lean),
so that equal mappings are equal lists (30_encoding.md R82, 44_field_extractor.md R199; log 12). -/
abbrev Record := List (Name × Value)

/-- How a scan pass ended (43_frame_scanner.md R172). -/
inductive PassEnd where
  | gated
  | held
  | drained
  deriving DecidableEq, Repr

/-- The result `v` of a status Ok(v); `unit` where there is none (00_scope.md R14, 30_encoding.md R90). -/
inductive Result where
  | unit
  | byte (b : Byte)
  | bool (b : Bool)
  | nat (n : Nat)
  | seq (s : Bytes)
  | word (w : Word32)
  | value (v : Value)
  | record (r : Record)
  | pass (e : PassEnd)
  deriving DecidableEq, Repr

/-- The error codes an operation can return, with the info each carries (60_exceptions.md R220). -/
inductive Err where
  | full
  | empty
  | emptyInput
  | zeroLength (index : Nat)
  | truncatedFrame (index : Nat)
  /-- The descriptor's index in the schema and its name; none for FX.GET. -/
  | invalidFieldRange (field : Option (Nat × Name))
  | frameTooShort (length : Nat)
  | rxOverflow
  | disconnected
  | configInvalid
  | illegalOp (code : Byte)
  deriving DecidableEq, Repr

/-- The warnings, with their info (60_exceptions.md R220, R240). -/
inductive Warning where
  | delimiterMismatch (readCount : Nat)
  | delimiterMissing (dropped : Byte)
  | bufferOverrun (readCount : Nat)
  | lengthMismatch (length : Nat)
  deriving DecidableEq, Repr

/-- The kinds of event (60_exceptions.md R240). -/
inductive Event where
  | frame (encoded : Bytes)
  | data (raw : Bytes)
  | warn (w : Warning)
  | error (e : Err)
  deriving DecidableEq, Repr

/-- The status of an operation (00_scope.md R14, 60_exceptions.md R220, R236). -/
inductive Status where
  | ok (v : Result)
  | hold
  | err (e : Err)
  deriving DecidableEq, Repr

/-- What an operation returns: its status and its events in order (60_exceptions.md R240). -/
structure Reply where
  status : Status
  events : List Event := []
  deriving DecidableEq, Repr

/-- The state of the block (10_state.md R20), and the model's two own fields, `pending` and `reply`. -/
structure State where
  /-- The configuration constants (R21). -/
  cfg : Config
  /-- RBMEM (R22). -/
  rbmem : Memory
  /-- Index of the oldest stored byte (R23). -/
  head : Nat
  /-- Index where the next byte is stored (R24). -/
  tail : Nat
  /-- Count of bytes stored (R25). -/
  size : Nat
  /-- PB, the parse buffer (R30). -/
  pb : Memory
  /-- Number of bytes collected in PB (R31). -/
  readCount : Nat
  /-- ACC, the checksum accumulator (R33). -/
  acc : Word32
  /-- FATAL, sticky (R34). -/
  fatal : Bool
  /-- CFGERR (R35). -/
  cfgErr : Bool
  /-- FQ, oldest frame first (R36). -/
  fq : List Bytes
  /-- DQ, oldest RawFrame first (R36). -/
  dq : List Bytes
  /-- The actions still to come, next first: the interleaving (20_memory.md R64) as data.
  DESIGN CHOICE, safe (log 2). -/
  pending : List Action
  /-- What the last step returned to its issuer; none when it issued nothing. DESIGN CHOICE, safe (log 3). -/
  reply : Option Reply
  deriving DecidableEq, Repr

/-- Right after reset with an instance's arguments (10_state.md R40, 70_reset_and_hazards.md R260, R261). RBMEM and PB
are "unspecified, unobservable": DESIGN CHOICE, unsafe, nothing listed (log 6). -/
def State.resetWith (c : Config) : State where
  cfg := c
  rbmem := []
  head := 0
  tail := 0
  size := 0
  pb := []
  readCount := 0
  acc := 0xFFFFFFFF
  fatal := false
  cfgErr := !c.valid
  fq := []
  dq := []
  pending := []
  reply := none

/-- The machine right after reset, with the arguments of log 4. -/
def State.reset : State := State.resetWith exampleConfig

end Sys2Proof.Machine
end

