-- ==== Sys2Proof/Machine/Flags.lean ====
section
/-! DEFINITION. Machine/Flags.lean: the derived flags (10_state.md R27, R32), queue fullness (20_memory.md R66), and the
numbers of the codes (60_exceptions.md R220). -/

namespace Sys2Proof.Machine

/-- `full = (size = RB_CAP)` (10_state.md R27). -/
def State.ringFull (s : State) : Bool := s.size == s.cfg.rbCap

/-- `empty = (size = 0)` (10_state.md R27). -/
def State.ringEmpty (s : State) : Bool := s.size == 0

/-- The scanner's states (10_state.md R32). -/
inductive ScannerState where
  | idle
  | accumulating (n : Nat)
  deriving DecidableEq, Repr

/-- The scanner state is a function of readCount alone (10_state.md R32). -/
def State.scanner (s : State) : ScannerState :=
  if s.readCount = 0 then .idle else .accumulating s.readCount

/-- `len(FQ) = FQ_CAP` (43_frame_scanner.md R161, R167). -/
def State.fqFull (s : State) : Bool := s.fq.length == s.cfg.fqCap

/-- `len(DQ) = DQ_CAP` (43_frame_scanner.md R176). -/
def State.dqFull (s : State) : Bool := s.dq.length == s.cfg.dqCap

/-- "The parse buffer is exactly full" (10_state.md R31). -/
def State.parseFull (s : State) : Bool := s.readCount == s.cfg.pktSize

/-- The number of an error code (60_exceptions.md R220). -/
def Err.number : Err → Byte
  | .full => 0x10
  | .empty => 0x11
  | .emptyInput => 0x20
  | .zeroLength _ => 0x21
  | .truncatedFrame _ => 0x22
  | .invalidFieldRange _ => 0x30
  | .frameTooShort _ => 0x31
  | .rxOverflow => 0x50
  | .disconnected => 0x51
  | .configInvalid => 0x60
  | .illegalOp _ => 0x61

/-- The number of a warning (60_exceptions.md R220). -/
def Warning.number : Warning → Byte
  | .delimiterMismatch _ => 0x40
  | .delimiterMissing _ => 0x41
  | .bufferOverrun _ => 0x42
  | .lengthMismatch _ => 0x43

/-- The number of a status (60_exceptions.md R220). -/
def Status.number : Status → Byte
  | .ok _ => 0x00
  | .hold => 0x01
  | .err e => e.number

end Sys2Proof.Machine
end

