-- ==== Sys2Proof/Machine/Ops.lean ====
section
/-! DEFINITION. Machine/Ops.lean: the named operations over the storage arrays, the ring, the parse buffer and the
queues, and the one way an operation returns. Returning a non-Ok status is the block's exception (60_exceptions.md
R230): the "trap entry" is `State.raise`, and the "trap return" is the issuer's next operation. -/

namespace Sys2Proof.Machine

/-! ## Byte arrays -/

/-- What an index nothing has written reads as. The spec leaves such bytes unspecified and unobservable (10_state.md
R29, R30, R40). DESIGN CHOICE, unsafe (log 6); "a model that zeroes the arrays loses nothing" (92_eei_decisions.md D8). -/
def Memory.fillByte : Byte := 0

/-- The byte at an index. -/
def Memory.read : Memory → Nat → Byte
  | [], _ => Memory.fillByte
  | (k, v) :: m, a => if k = a then v else Memory.read m a

/-- Put a cell in front, or nothing where the byte is the one unlisted indices read as. -/
def Memory.cons (a : Nat) (v : Byte) (m : Memory) : Memory :=
  if v = Memory.fillByte then m else (a, v) :: m

/-- Write one byte, keeping the canonical form. -/
def Memory.write : Memory → Nat → Byte → Memory
  | [], a, v => Memory.cons a v []
  | (k, w) :: m, a, v =>
    if a < k then Memory.cons a v ((k, w) :: m)
    else if a = k then Memory.cons a v m
    else (k, w) :: Memory.write m a v

/-- Every listed index is at least `lo`, the indices rise strictly, and no cell holds the fill byte. -/
def Memory.wfFrom : Nat → Memory → Bool
  | _, [] => true
  | lo, (k, v) :: m => decide (lo ≤ k) && decide (v ≠ Memory.fillByte) && Memory.wfFrom (k + 1) m

/-- The canonical form. -/
def Memory.wf (m : Memory) : Bool := Memory.wfFrom 0 m

/-- Every listed index is below `n`. -/
def Memory.below (m : Memory) (n : Nat) : Bool := m.all (fun c => decide (c.1 < n))

/-! ## Returning from an operation -/

/-- The state that has returned a status with events to its issuer (60_exceptions.md R240). -/
def State.answer (s : State) (st : Status) (evs : List Event) : State :=
  { s with reply := some { status := st, events := evs } }

/-- An operation ends with a status and events. -/
def State.finish (s : State) (st : Status) (evs : List Event) : Host.Outcome State Fault Refusal :=
  .next (s.answer st evs)

/-- An operation ends with Ok(v) and no event. -/
def State.ok (s : State) (v : Result) : Host.Outcome State Fault Refusal := s.finish (.ok v) []

/-- `raise`: an operation ends at once with an error (00_scope.md R14, 60_exceptions.md R230), the state otherwise as it
stands. -/
def State.raise (s : State) (e : Err) : Host.Outcome State Fault Refusal := s.finish (.err e) []

/-- Hold: the operation is not enabled now and changes nothing (60_exceptions.md R236; log 9). -/
def State.hold (s : State) : Host.Outcome State Fault Refusal := s.finish .hold []

/-- "Every operation here begins with: if CFGERR then raise ConfigInvalid" (10_state.md R35). -/
def State.whenValid (s : State) (body : Host.Outcome State Fault Refusal) : Host.Outcome State Fault Refusal :=
  if s.cfgErr then s.raise .configInvalid else body

/-- "if FATAL = 1 then raise Disconnected" (60_exceptions.md R233), after the CFGERR check (R231). -/
def State.whenLive (s : State) (body : Host.Outcome State Fault Refusal) : Host.Outcome State Fault Refusal :=
  if s.fatal then s.raise .disconnected else body

/-- End a pure operation with its value or its error (10_state.md R38). -/
def State.okOrRaise (s : State) (r : Except Err Result) : Host.Outcome State Fault Refusal :=
  match r with
  | .ok v => s.ok v
  | .error e => s.raise e

/-- Go on with a value, or stop with the fault that computing it met. -/
def orFault {α : Type} (x : Except Fault α) (k : α → Host.Outcome State Fault Refusal) :
    Host.Outcome State Fault Refusal :=
  match x with
  | .ok a => k a
  | .error f => .fault f

/-! ## Ring buffer -/

/-- The next ring index (20_memory.md R56). -/
def State.nextIndex (s : State) (i : Nat) : Nat := (i + 1) % s.cfg.rbCap

/-- Read RBMEM[i]; an index outside the array does not exist (10_state.md R22; log 7). -/
def State.ringLoad (s : State) (i : Nat) : Except Fault Byte :=
  if i < s.cfg.rbCap then .ok (s.rbmem.read i) else .error .ringIndex

/-- `RBMEM[tail] <- b ; tail <- (tail + 1) mod RB_CAP ; size <- size + 1` (40_ring_buffer.md R101, 43_frame_scanner.md
R160), after the test that the ring is not full. -/
def State.enqueue (s : State) (b : Byte) : Except Fault State :=
  if s.tail < s.cfg.rbCap then
    .ok { s with rbmem := s.rbmem.write s.tail b, tail := s.nextIndex s.tail, size := s.size + 1 }
  else .error .ringIndex

/-- `head <- (head + 1) mod RB_CAP ; size <- size - 1` (40_ring_buffer.md R102), after the test that the ring is not
empty. -/
def State.dropOldest (s : State) : State :=
  { s with head := s.nextIndex s.head, size := s.size - 1 }

/-- The logical contents, oldest byte first (10_state.md R28). -/
def State.contents (s : State) : Bytes :=
  (List.range s.size).map (fun k => s.rbmem.read ((s.head + k) % s.cfg.rbCap))

/-- The copy RB.SNAP makes (40_ring_buffer.md R108). Its indices are formed mod RB_CAP, so they exist unless the array
has no cell. -/
def State.snapshot (s : State) : Except Fault Bytes :=
  if s.size = 0 ∨ 0 < s.cfg.rbCap then .ok s.contents else .error .ringIndex

/-! ## Parse buffer -/

/-- `PB[i] <- b` (43_frame_scanner.md R163). An index outside 0..PKT_SIZE-1 is no cell of PB and nothing is stored; the
defensive check then reports it (R166). DESIGN CHOICE, safe: only in states no run reaches (log 8). -/
def State.parseStore (s : State) (i : Nat) (b : Byte) : State :=
  if i < s.cfg.pktSize then { s with pb := s.pb.write i b } else s

/-- A copy of all PKT_SIZE bytes of PB, in index order (43_frame_scanner.md R162). -/
def State.parseFrame (s : State) : Bytes :=
  (List.range s.cfg.pktSize).map s.pb.read

end Sys2Proof.Machine
end

