-- ==== Sys2Proof/Machine/Operands.lean ====
section
/-! DEFINITION. Machine/Operands.lean: how operands are read: ranges and slices of sequences (00_scope.md R13,
30_encoding.md R81), little-endian assembly and splitting (20_memory.md R51), and records (30_encoding.md R82). -/

namespace Sys2Proof.Machine

/-- A field range is valid for a frame of `n` bytes (30_encoding.md R81, 44_field_extractor.md R190). `endIdx` is
inclusive: the word "exclusive" in opcode_table.json is not the spec's (log 14). -/
def rangeValid (startIdx endIdx n : Nat) : Bool := decide (startIdx ≤ endIdx) && decide (endIdx < n)

/-- The half-open slice `s[a..b)` (00_scope.md R13). -/
def sliceHalfOpen (s : Bytes) (a b : Nat) : Bytes := (s.drop a).take (b - a)

/-- The closed slice `s[a..=b]` (00_scope.md R13). -/
def sliceClosed (s : Bytes) (a b : Nat) : Bytes := sliceHalfOpen s a (b + 1)

/-- `zext_32(s[k]) << (8 * k)`, combined with or, from byte number `k` on (44_field_extractor.md R191). -/
def littleEndianFrom : Nat → Bytes → Word32
  | _, [] => 0
  | k, b :: s => (b.setWidth 32 <<< (8 * k)) ||| littleEndianFrom (k + 1) s

/-- Up to four bytes as an unsigned little-endian integer, zero-extended (44_field_extractor.md R191). -/
def littleEndian (s : Bytes) : Word32 := littleEndianFrom 0 s

/-- The bytes `c[7:0], c[15:8], c[23:16], c[31:24]` (30_encoding.md R79, R98 d). -/
def littleEndianBytes (c : Word32) : Bytes :=
  [c.extractLsb' 0 8, c.extractLsb' 8 8, c.extractLsb' 16 8, c.extractLsb' 24 8]

/-- Every byte at an index in `a..=b` becomes 0x00 (42_checksum.md R146). -/
def zeroRange (m : Bytes) (a b : Nat) : Bytes :=
  m.mapIdx (fun k x => if a ≤ k ∧ k ≤ b then 0 else x)

/-- A strict order of names, only to keep records in one canonical form (log 12). -/
def nameLt : Name → Name → Bool
  | _, [] => false
  | [], _ :: _ => true
  | a :: x, b :: y => if a = b then nameLt x y else decide (a.toNat < b.toNat)

/-- `rec[name] <- value`: a later value replaces an earlier one of the same name (44_field_extractor.md R199). -/
def Record.set : Record → Name → Value → Record
  | [], n, v => [(n, v)]
  | (m, w) :: r, n, v =>
    if n = m then (n, v) :: r
    else if nameLt n m then (n, v) :: (m, w) :: r
    else (m, w) :: Record.set r n v

/-- `rec[name]`. -/
def Record.get : Record → Name → Option Value
  | [], _ => none
  | (m, w) :: r, n => if m = n then some w else Record.get r n

/-- The reserved entry "checksum read from the frame" (30_encoding.md R82). -/
def desiredHashName : Name := ['D', 'e', 's', 'i', 'r', 'e', 'd', 'H', 'a', 's', 'h']

/-- The reserved entry "checksum recomputed over the frame" (30_encoding.md R82). -/
def calculatedHashName : Name := ['C', 'a', 'l', 'c', 'u', 'l', 'a', 't', 'e', 'd', 'H', 'a', 's', 'h']

end Sys2Proof.Machine
end

