-- ==== Sys2Proof/Machine/Checksum.lean ====
section
/-! DEFINITION. Machine/Checksum.lean: the checksum engine (42_checksum.md). The CRC-32 parameters are the spec's, from
general knowledge (R140, 93_implementation_defined.md G1): PRESUMED by the spec, unsafe (log 13). -/

namespace Sys2Proof.Machine

/-- The value CRC.INIT writes (42_checksum.md R141). -/
def crcInitial : Word32 := 0xFFFFFFFF

/-- One of the eight steps of CRC.UPD (42_checksum.md R142). -/
def crcShift (c : Word32) : Word32 :=
  if c.getLsbD 0 then (c >>> 1) ^^^ 0xEDB88320 else c >>> 1

/-- `k` of those steps. -/
def crcShifts : Nat → Word32 → Word32
  | 0, c => c
  | k + 1, c => crcShifts k (crcShift c)

/-- The body of CRC.UPD (42_checksum.md R142): `b` enters at bits 7:0, then eight steps. -/
def crcByte (c : Word32) (b : Byte) : Word32 := crcShifts 8 (c ^^^ b.setWidth 32)

/-- The final exclusive-or (42_checksum.md R143). -/
def crcFinal (c : Word32) : Word32 := c ^^^ 0xFFFFFFFF

/-- CRC.SUM as a function (42_checksum.md R144): bytes in index order, ACC not involved. -/
def crcSum (data : Bytes) : Word32 := crcFinal (data.foldl crcByte crcInitial)

/-- Zero-fill the ranges of the descriptors marked zerofill, in schema order, `j` being the index of the first
(42_checksum.md R146, R147). -/
def maskFields (n : Nat) : Nat → Schema → Bytes → Except Err Bytes
  | _, [], m => .ok m
  | j, f :: fs, m =>
    if f.zerofill then
      if rangeValid f.startIdx f.endIdx n then maskFields n (j + 1) fs (zeroRange m f.startIdx f.endIdx)
      else .error (.invalidFieldRange (some (j, f.name)))
    else maskFields n (j + 1) fs m

/-- CRC.MSUM as a function (42_checksum.md R146, R149): mask a copy, mask the trailer, hash bytes 1..n-5. -/
def crcMaskedSum (data : Bytes) (fields : Schema) : Except Err Word32 :=
  if data.length < 5 then .error (.frameTooShort data.length)
  else
    match maskFields data.length 0 fields data with
    | .error e => .error e
    | .ok m =>
      .ok (crcSum (sliceHalfOpen (zeroRange m (data.length - 4) (data.length - 1)) 1 (data.length - 4)))

/-- CRC.INIT (42_checksum.md R141). -/
def execCrcInit (s : State) : Host.Outcome State Fault Refusal :=
  s.whenValid <| State.ok { s with acc := crcInitial } .unit

/-- CRC.UPD (42_checksum.md R142). -/
def execCrcUpd (b : Byte) (s : State) : Host.Outcome State Fault Refusal :=
  s.whenValid <| State.ok { s with acc := crcByte s.acc b } .unit

/-- CRC.FIN (42_checksum.md R143): ACC is not changed. -/
def execCrcFin (s : State) : Host.Outcome State Fault Refusal :=
  s.whenValid <| s.ok (.word (crcFinal s.acc))

/-- CRC.SUM (42_checksum.md R144). -/
def execCrcSum (data : Bytes) (s : State) : Host.Outcome State Fault Refusal :=
  s.whenValid <| s.ok (.word (crcSum data))

/-- CRC.MSUM (42_checksum.md R146). -/
def execCrcMsum (data : Bytes) (fields : Schema) (s : State) : Host.Outcome State Fault Refusal :=
  s.whenValid <| s.okOrRaise ((crcMaskedSum data fields).map .word)

end Sys2Proof.Machine
end

