-- ==== Sys2Proof/Machine/Extractor.lean ====
section
/-! DEFINITION. Machine/Extractor.lean: the little-endian field extractor and the record decoder
(44_field_extractor.md). -/

namespace Sys2Proof.Machine

/-- The value of a valid range (44_field_extractor.md R191): up to 4 bytes an unsigned integer, more the raw bytes. -/
def fieldValue (frame : Bytes) (startIdx endIdx : Nat) : Value :=
  if endIdx - startIdx + 1 ≤ 4 then .integer (littleEndian (sliceClosed frame startIdx endIdx))
  else .bytes (sliceClosed frame startIdx endIdx)

/-- FX.GET as a function (44_field_extractor.md R190, R191). -/
def fieldGet (frame : Bytes) (startIdx endIdx : Nat) : Except Err Value :=
  if rangeValid startIdx endIdx frame.length then .ok (fieldValue frame startIdx endIdx)
  else .error (.invalidFieldRange none)

/-- FX.HASH as a function (44_field_extractor.md R195): the trailing four bytes, little-endian. -/
def trailerHash (frame : Bytes) : Except Err Word32 :=
  if frame.length < 4 then .error (.frameTooShort frame.length)
  else .ok (littleEndian (frame.drop (frame.length - 4)))

/-- The extraction loop of REC.DEC, `j` being the index of the first descriptor (44_field_extractor.md R196-R199):
unnamed descriptors are skipped unchecked, the first invalid named one ends the operation. -/
def extractFields (frame : Bytes) : Nat → Schema → Record → Except Err Record
  | _, [], rec => .ok rec
  | j, f :: fs, rec =>
    if f.name = [] then extractFields frame (j + 1) fs rec
    else if rangeValid f.startIdx f.endIdx frame.length then
      extractFields frame (j + 1) fs (rec.set f.name (fieldValue frame f.startIdx f.endIdx))
    else .error (.invalidFieldRange (some (j, f.name)))

/-- REC.DEC as a function (44_field_extractor.md R196, R198, R200, R201): the two hashes are written last and are never
compared. -/
def recordDecode (frame : Bytes) (schema : Schema) : Except Err Record :=
  if frame.length < 5 then .error (.frameTooShort frame.length)
  else
    match extractFields frame 0 schema [] with
    | .error e => .error e
    | .ok rec =>
      match trailerHash frame, crcMaskedSum frame schema with
      | .error e, _ => .error e
      | .ok _, .error e => .error e
      | .ok desired, .ok computed =>
        .ok ((rec.set desiredHashName (.integer desired)).set calculatedHashName (.integer computed))

/-- FX.GET (44_field_extractor.md R191). -/
def execFxGet (frame : Bytes) (startIdx endIdx : Nat) (s : State) : Host.Outcome State Fault Refusal :=
  s.whenValid <| s.okOrRaise ((fieldGet frame startIdx endIdx).map .value)

/-- FX.HASH (44_field_extractor.md R195). -/
def execFxHash (frame : Bytes) (s : State) : Host.Outcome State Fault Refusal :=
  s.whenValid <| s.okOrRaise ((trailerHash frame).map .word)

/-- REC.DEC (44_field_extractor.md R196). -/
def execRecDec (frame : Bytes) (schema : Schema) (s : State) : Host.Outcome State Fault Refusal :=
  s.whenValid <| s.okOrRaise ((recordDecode frame schema).map .record)

end Sys2Proof.Machine
end

