-- ==== Sys2Proof/Machine/Codec.lean ====
section
/-! DEFINITION. Machine/Codec.lean: the byte-stuffing codec (41_cobs_codec.md). -/

namespace Sys2Proof.Machine

/-- The code byte of a block with these literals: their number plus one, a plain number (30_encoding.md R71, R73). -/
def codeByte (literals : Bytes) : Byte := BitVec.ofNat 8 (literals.length + 1)

/-- A closed block (30_encoding.md R71). -/
def closeBlock (literals : Bytes) : Bytes := codeByte literals :: literals

/-- The loop of COBS.ENC (41_cobs_codec.md R121). `lits` are the literals of the open block, whose code byte is written
when the block is closed: at a payload byte equal to `d`, at 254 literals (R124), and at the end. -/
def encodeBlocks (d : Byte) : Bytes → Bytes → Bytes
  | lits, [] => closeBlock lits
  | lits, b :: p =>
    if b = d then closeBlock lits ++ encodeBlocks d [] p
    else if lits.length + 1 = 254 then closeBlock (lits ++ [b]) ++ encodeBlocks d [] p
    else encodeBlocks d (lits ++ [b]) p

/-- COBS.ENC as a function (41_cobs_codec.md R121, R122): the empty payload encodes to the terminator alone. -/
def cobsEncode (p : Bytes) (d : Byte) : Bytes :=
  match p with
  | [] => [d]
  | _ :: _ => encodeBlocks d [] p ++ [d]

/-- Drop at most one terminating delimiter (41_cobs_codec.md R126). -/
def dropTerminator (e : Bytes) (d : Byte) : Bytes :=
  if e.getLast? = some d then e.dropLast else e

/-- The loop of COBS.DEC (41_cobs_codec.md R125, R127) from index `i`, the bytes from there on being the list. The first
argument bounds the number of blocks: each takes at least one byte, so the input's length is enough. -/
def decodeBlocks (d : Byte) : Nat → Nat → Bytes → Except Err Bytes
  | _, _, [] => .ok []
  | 0, _, _ :: _ => .ok []
  | k + 1, i, L :: rest =>
    if L = 0 then .error (.zeroLength i)
    else if (L :: rest).length < L.toNat then .error (.truncatedFrame i)
    else
      let lits := rest.take (L.toNat - 1)
      let after := rest.drop (L.toNat - 1)
      match decodeBlocks d k (i + L.toNat) after with
      | .error e => .error e
      | .ok out => .ok (lits ++ (if L.toNat < 255 ∧ after ≠ [] then [d] else []) ++ out)

/-- COBS.DEC as a function (41_cobs_codec.md R125): EmptyInput is tested on the input as given (R127). -/
def cobsDecode (e : Bytes) (d : Byte) : Except Err Bytes :=
  match e with
  | [] => .error .emptyInput
  | _ :: _ => decodeBlocks d (dropTerminator e d).length 0 (dropTerminator e d)

/-- COBS.ENC (41_cobs_codec.md R121). -/
def execCobsEnc (p : Bytes) (d : Byte) (s : State) : Host.Outcome State Fault Refusal :=
  s.whenValid <| s.ok (.seq (cobsEncode p d))

/-- COBS.DEC (41_cobs_codec.md R125). -/
def execCobsDec (e : Bytes) (d : Byte) (s : State) : Host.Outcome State Fault Refusal :=
  s.whenValid <| s.okOrRaise ((cobsDecode e d).map .seq)

end Sys2Proof.Machine
end

