-- ==== Sys2Proof/Machine/Outbound.lean ====
section
/-! DEFINITION. Machine/Outbound.lean: the outbound seal and build (45_tx_build.md). -/

namespace Sys2Proof.Machine

/-- TX.SEAL as a function (45_tx_build.md R211): the frame with a zero trailer is hashed with an empty field list and
the checksum replaces the trailer, little-endian. -/
def txSeal (fields : Bytes) : Except Err Bytes :=
  if fields.length < 1 then .error (.frameTooShort (fields.length + 4))
  else
    match crcMaskedSum (fields ++ [0, 0, 0, 0]) [] with
    | .error e => .error e
    | .ok c => .ok (fields ++ littleEndianBytes c)

/-- TX.BUILD as a function (45_tx_build.md R212). -/
def txBuild (fields : Bytes) (d : Byte) : Except Err Bytes :=
  match txSeal fields with
  | .error e => .error e
  | .ok frame => .ok (cobsEncode frame d)

/-- TX.SEAL (45_tx_build.md R211). -/
def execTxSeal (fields : Bytes) (s : State) : Host.Outcome State Fault Refusal :=
  s.whenValid <| s.okOrRaise ((txSeal fields).map .seq)

/-- TX.BUILD (45_tx_build.md R212). -/
def execTxBuild (fields : Bytes) (d : Byte) (s : State) : Host.Outcome State Fault Refusal :=
  s.whenValid <| s.okOrRaise ((txBuild fields d).map .seq)

end Sys2Proof.Machine
end

