-- ==== Sys2Proof/Machine/Ring.lean ====
section
/-! DEFINITION. Machine/Ring.lean: the ring buffer operations (40_ring_buffer.md). -/

namespace Sys2Proof.Machine

/-- RB.ENQ (40_ring_buffer.md R101). -/
def execRbEnq (b : Byte) (s : State) : Host.Outcome State Fault Refusal :=
  s.whenValid <|
    if s.ringFull then s.raise .full
    else orFault (s.enqueue b) fun t => t.ok .unit

/-- RB.DEQ (40_ring_buffer.md R102). -/
def execRbDeq (s : State) : Host.Outcome State Fault Refusal :=
  s.whenValid <|
    if s.ringEmpty then s.raise .empty
    else orFault (s.ringLoad s.head) fun v => s.dropOldest.ok (.byte v)

/-- RB.FULL (40_ring_buffer.md R103). -/
def execRbFull (s : State) : Host.Outcome State Fault Refusal :=
  s.whenValid <| s.ok (.bool s.ringFull)

/-- RB.EMPTY (40_ring_buffer.md R104). -/
def execRbEmpty (s : State) : Host.Outcome State Fault Refusal :=
  s.whenValid <| s.ok (.bool s.ringEmpty)

/-- RB.SIZE (40_ring_buffer.md R105). -/
def execRbSize (s : State) : Host.Outcome State Fault Refusal :=
  s.whenValid <| s.ok (.nat s.size)

/-- RB.CAP (40_ring_buffer.md R106). -/
def execRbCap (s : State) : Host.Outcome State Fault Refusal :=
  s.whenValid <| s.ok (.nat s.cfg.rbCap)

/-- RB.CLR (40_ring_buffer.md R107): RBMEM, PB and readCount are kept. -/
def execRbClr (s : State) : Host.Outcome State Fault Refusal :=
  s.whenValid <| State.ok { s with head := 0, tail := 0, size := 0 } .unit

/-- RB.SNAP (40_ring_buffer.md R108). -/
def execRbSnap (s : State) : Host.Outcome State Fault Refusal :=
  s.whenValid <| orFault s.snapshot fun out => s.ok (.seq out)

end Sys2Proof.Machine
end

