-- ==== Sys2Proof/Machine/Scanner.lean ====
section
/-! DEFINITION. Machine/Scanner.lean: ingest, the frame scanner, the scan pass and deframing (43_frame_scanner.md). -/

namespace Sys2Proof.Machine

/-- The four cases of a byte that is consumed (43_frame_scanner.md R161-R165): the state after, and the event. -/
def State.scanCase (s : State) (b : Byte) : State × List Event :=
  if b = s.cfg.delim then
    if s.parseFull then
      ({ s with fq := s.fq ++ [s.parseFrame], readCount := 0 }, [.frame s.parseFrame])
    else ({ s with readCount := 0 }, [.warn (.delimiterMismatch s.readCount)])
  else
    if s.parseFull then ({ s with readCount := 0 }, [.warn (.delimiterMissing b)])
    else ({ s.parseStore s.readCount b with readCount := s.readCount + 1 }, [])

/-- The defensive check after the case (43_frame_scanner.md R166), unreachable in a run. -/
def State.defensiveCheck (s : State) : State × List Event :=
  if s.cfg.pktSize < s.readCount then ({ s with readCount := 0 }, [.warn (.bufferOverrun s.readCount)])
  else (s, [])

/-- The per-byte transition, less the tests for Disconnected and Hold (43_frame_scanner.md R161). -/
def State.scanByte (s : State) (b : Byte) : State × List Event :=
  let c := s.scanCase b
  let t := c.1.defensiveCheck
  (t.1, c.2 ++ t.2)

/-- The byte would emit a frame and FQ is full (43_frame_scanner.md R167, R172). -/
def State.scanHeld (s : State) (b : Byte) : Bool := decide (b = s.cfg.delim) && s.parseFull && s.fqFull

/-- The loop of SC.PASS, `n` being the bytes still in the ring and `evs` the events so far (43_frame_scanner.md R172). -/
def passLoop : Nat → State → List Event → Host.Outcome State Fault Refusal
  | 0, s, evs => s.finish (.ok (.pass .drained)) evs
  | n + 1, s, evs =>
    orFault (s.ringLoad s.head) fun b =>
      if s.scanHeld b then s.finish (.ok (.pass .held)) evs
      else passLoop n (s.dropOldest.scanByte b).1 (evs ++ (s.dropOldest.scanByte b).2)

/-- RX.PUSH (43_frame_scanner.md R160, 60_exceptions.md R232): on overflow FATAL is set and the byte is lost. -/
def execRxPush (b : Byte) (s : State) : Host.Outcome State Fault Refusal :=
  s.whenValid <| s.whenLive <|
    if s.ringFull then State.raise { s with fatal := true } .rxOverflow
    else orFault (s.enqueue b) fun t => t.ok .unit

/-- SC.STEP (43_frame_scanner.md R161, R167). -/
def execScStep (b : Byte) (s : State) : Host.Outcome State Fault Refusal :=
  s.whenValid <| s.whenLive <|
    if s.scanHeld b then s.hold
    else (s.scanByte b).1.finish (.ok .unit) (s.scanByte b).2

/-- SC.PASS (43_frame_scanner.md R172): the gate is tested once, at the start. -/
def execScPass (s : State) : Host.Outcome State Fault Refusal :=
  s.whenValid <| s.whenLive <|
    if s.readCount + s.size < s.cfg.pktSize then s.ok (.pass .gated)
    else passLoop s.size s []

/-- What FR.CHK does with the oldest frame `e`, already removed from FQ (43_frame_scanner.md R176, R177). -/
def State.deframe (s : State) (e : Bytes) : State × Event :=
  match cobsDecode e s.cfg.delim with
  | .error err => (s, .error err)
  | .ok out =>
    if out.length = s.cfg.msgSize then ({ s with dq := s.dq ++ [out] }, .data out)
    else (s, .warn (.lengthMismatch out.length))

/-- FR.CHK (43_frame_scanner.md R176). -/
def execFrChk (s : State) : Host.Outcome State Fault Refusal :=
  s.whenValid <|
    match s.fq with
    | [] => s.hold
    | e :: rest =>
      if s.dqFull then s.hold
      else
        let t := State.deframe { s with fq := rest } e
        t.1.finish (.ok .unit) [t.2]

end Sys2Proof.Machine
end

