-- ==== Sys2Proof/Machine/Dispatch.lean ====
section
/-! DEFINITION. Machine/Dispatch.lean: one arm per operation (30_encoding.md R90). -/

namespace Sys2Proof.Machine

def exec (i : Instr) (s : State) : Host.Outcome State Fault Refusal :=
  match i with
  | .rbEnq b => Sys2Proof.Machine.execRbEnq b s
  | .rbDeq => Sys2Proof.Machine.execRbDeq s
  | .rbFull => Sys2Proof.Machine.execRbFull s
  | .rbEmpty => Sys2Proof.Machine.execRbEmpty s
  | .rbSize => Sys2Proof.Machine.execRbSize s
  | .rbCap => Sys2Proof.Machine.execRbCap s
  | .rbClr => Sys2Proof.Machine.execRbClr s
  | .rbSnap => Sys2Proof.Machine.execRbSnap s
  | .cobsEnc p d => Sys2Proof.Machine.execCobsEnc p d s
  | .cobsDec e d => Sys2Proof.Machine.execCobsDec e d s
  | .crcInit => Sys2Proof.Machine.execCrcInit s
  | .crcUpd b => Sys2Proof.Machine.execCrcUpd b s
  | .crcFin => Sys2Proof.Machine.execCrcFin s
  | .crcSum data => Sys2Proof.Machine.execCrcSum data s
  | .crcMsum data fields => Sys2Proof.Machine.execCrcMsum data fields s
  | .rxPush b => Sys2Proof.Machine.execRxPush b s
  | .scStep b => Sys2Proof.Machine.execScStep b s
  | .scPass => Sys2Proof.Machine.execScPass s
  | .frChk => Sys2Proof.Machine.execFrChk s
  | .fxGet frame startIdx endIdx => Sys2Proof.Machine.execFxGet frame startIdx endIdx s
  | .fxHash frame => Sys2Proof.Machine.execFxHash frame s
  | .recDec frame schema => Sys2Proof.Machine.execRecDec frame schema s
  | .txSeal fields => Sys2Proof.Machine.execTxSeal fields s
  | .txBuild fields d => Sys2Proof.Machine.execTxBuild fields d s

end Sys2Proof.Machine
end

