-- ==== Sys2Proof/Machine/Issue.lean ====
section
/-! DEFINITION. Machine/Issue.lean: what one action of the world does to the block: an agent's request, APP taking a
RawFrame, the host's reset. -/

namespace Sys2Proof.Machine

/-- The agent an operation belongs to (20_memory.md R60-R62): the owner of the state it touches. -/
def issuerOf (c : Config) : Instr → Agent
  | .rbEnq _ | .rbDeq | .rbFull | .rbEmpty | .rbSize | .rbCap | .rbClr | .rbSnap => .reader
  | .rxPush _ | .scStep _ | .scPass => .reader
  | .frChk => .deframer
  | .crcInit | .crcUpd _ | .crcFin => c.accOwner
  | .cobsEnc _ _ | .cobsDec _ _ | .crcSum _ | .crcMsum _ _ => .app
  | .fxGet _ _ _ | .fxHash _ | .recDec _ _ | .txSeal _ | .txBuild _ _ => .app

/-- A pure function of its operands: it reads and writes no state but CFGERR (10_state.md R38). -/
def pureOp : Instr → Bool
  | .cobsEnc _ _ | .cobsDec _ _ | .crcSum _ | .crcMsum _ _ => true
  | .fxGet _ _ _ | .fxHash _ | .recDec _ _ | .txSeal _ | .txBuild _ _ => true
  | _ => false

/-- Who may issue what: state only by its owner (60_exceptions.md R245), pure functions by any agent.
DESIGN CHOICE, safe (log 10). -/
def mayIssue (c : Config) (a : Agent) (i : Instr) : Bool := pureOp i || decide (a = issuerOf c i)

/-- An agent issues a request. A reserved code is answered IllegalOp before anything else (30_encoding.md R92,
60_exceptions.md R231); operands outside their types and operations of another agent's unit have no meaning
(93_implementation_defined.md U11, U14); with CFGERR every operation is answered ConfigInvalid, whoever issues it
(10_state.md R35). -/
def issue (a : Agent) (r : Request) (s : State) : Host.Outcome State Fault Refusal :=
  match decode r with
  | .error (.reservedCode c) => s.raise (.illegalOp c)
  | .error (.operandMismatch c) => .refused (.badOperands c)
  | .ok i => if s.cfgErr || mayIssue s.cfg a i then exec i s else .refused (.notOwner a)

/-- APP removes the oldest RawFrame of DQ (10_state.md R36, 20_memory.md R62); with DQ empty there is nothing to take
and the action holds. DESIGN CHOICE, safe (log 17). -/
def takeData (s : State) : Host.Outcome State Fault Refusal :=
  match s.dq with
  | [] => s.hold
  | r :: rest => State.ok { s with dq := rest } (.seq r)

/-- One action of the world. A reset leaves the world's further actions as they are (70_reset_and_hazards.md R260,
R263; log 11). -/
def perform (act : Action) (s : State) : Host.Outcome State Fault Refusal :=
  match act with
  | .issue a r => issue a r s
  | .takeData => takeData s
  | .reset c => .next { State.resetWith c with pending := s.pending }

/-- Nobody does anything: all state is kept (60_exceptions.md R247) and nothing is returned (log 3). -/
def idle (s : State) : Host.Outcome State Fault Refusal := .next { s with reply := none }

/-- The agent the interface's request for a code is issued by: the owner of the operation, APP for a reserved code. -/
def fetchAgent (c : Config) (w : Nat) : Agent :=
  match decode (zeroRequest (BitVec.ofNat 8 w)) with
  | .ok i => issuerOf c i
  | .error _ => .app

end Sys2Proof.Machine
end

