-- ==== Sys2Proof/Machine/Step.lean ====
section
/-! DEFINITION. Machine/Step.lean: one step is one action of the world, the next in the interleaving (20_memory.md R64).
The block fetches no instructions (00_scope.md R7): a request comes to it from an agent. -/

namespace Sys2Proof.Machine

/-- One step: the next action, taken off the list before it acts; with none to come the block is idle (log 2). -/
def step (s : State) : Host.Outcome State Fault Refusal :=
  match s.pending with
  | [] => idle s
  | act :: rest => perform act { s with pending := rest }

/-- `s` with the operation of a row of opcode_table.json, with operands of zeros, as the very next action, issued by
its unit's owner (log 2). -/
def State.withFetchWord (s : State) (_nbits w : Nat) : State :=
  { s with pending := .issue (fetchAgent s.cfg w) (zeroRequest (BitVec.ofNat 8 w)) :: s.pending }

end Sys2Proof.Machine
end

