-- ==== Sys2Proof/Safety.lean ====
section
/-! DEFINITION. Safety.lean: the terms claims are stated in: the invariant of the block's state, runs of operations, what
is visible of a state, who writes what, and the ring buffer's abstract meaning. -/

namespace Sys2Proof.Machine

/-! ## The invariant -/

/-- CFGERR is the outcome of the construction check (10_state.md R35, 70_reset_and_hazards.md R261). -/
abbrev State.ConfigInv (s : State) : Prop := s.cfgErr = !s.cfg.valid

/-- The byte arrays are canonical and hold no byte outside their indices (10_state.md R22, R30). -/
abbrev State.StorageInv (s : State) : Prop :=
  s.rbmem.wf = true ∧ s.pb.wf = true ∧
    s.rbmem.below s.cfg.rbCap = true ∧ s.pb.below s.cfg.pktSize = true

/-- The three ring registers: their bounds (10_state.md R23-R25) and the invariant that ties them (R26). An instance
with an invalid configuration has no array to index (70_reset_and_hazards.md R262). -/
abbrev State.RingInv (s : State) : Prop :=
  s.size ≤ s.cfg.rbCap ∧ s.tail = (s.head + s.size) % s.cfg.rbCap ∧
    (s.cfgErr = false → s.head < s.cfg.rbCap ∧ s.tail < s.cfg.rbCap)

/-- The scanner's invariants (43_frame_scanner.md R169 a, b). -/
abbrev State.ScannerInv (s : State) : Prop :=
  s.readCount ≤ s.cfg.pktSize ∧ ∀ k < s.readCount, s.pb.read k ≠ s.cfg.delim

/-- The queues: capacities and the lengths of what they hold (10_state.md R36); no frame holds DELIM (43 R169 b). That a
capacity is at least 1 (00_scope.md R11) every Config carries. -/
abbrev State.QueueInv (s : State) : Prop :=
  s.fq.length ≤ s.cfg.fqCap ∧ (∀ f ∈ s.fq, f.length = s.cfg.pktSize ∧ s.cfg.delim ∉ f) ∧
    s.dq.length ≤ s.cfg.dqCap ∧ ∀ r ∈ s.dq, r.length = s.cfg.msgSize

/-- The invariant of every state a run reaches. -/
abbrev State.Inv (s : State) : Prop :=
  s.ConfigInv ∧ s.StorageInv ∧ s.RingInv ∧ s.ScannerInv ∧ s.QueueInv

/-! ## What a step returned -/

/-- The status the last step returned. -/
def State.status (s : State) : Option Status := s.reply.map Reply.status

/-- The events the last step returned, in order. -/
def State.events (s : State) : List Event :=
  match s.reply with
  | some r => r.events
  | none => []

/-- Operations one after the other, with all their events in order; none if one of them does not answer. -/
def trace : List Instr → State → Option (State × List Event)
  | [], s => some (s, [])
  | i :: is, s =>
    match exec i s with
    | .next t =>
      match trace is t with
      | some (u, evs) => some (u, t.events ++ evs)
      | none => none
    | .fault _ => none
    | .refused _ => none

/-! ## What is visible of a state -/

/-- Two states that differ at most in bytes no operation may expose: cells of RBMEM outside the logical contents
(10_state.md R29) and cells of PB at readCount and above (R30). -/
abbrev State.SameVisible (s t : State) : Prop :=
  t = { s with rbmem := t.rbmem, pb := t.pb } ∧ t.contents = s.contents ∧
    ∀ k < s.readCount, t.pb.read k = s.pb.read k

/-! ## Who writes what: the columns of 10_state.md R41 -/

def writesRbmem : Instr → Bool
  | .rbEnq _ | .rxPush _ => true
  | _ => false

def writesHead : Instr → Bool
  | .rbDeq | .rbClr | .scPass => true
  | _ => false

def writesTail : Instr → Bool
  | .rbEnq _ | .rbClr | .rxPush _ => true
  | _ => false

def writesSize : Instr → Bool
  | .rbEnq _ | .rbDeq | .rbClr | .rxPush _ | .scPass => true
  | _ => false

/-- The columns PB and readCount have the same rows. -/
def writesParse : Instr → Bool
  | .scStep _ | .scPass => true
  | _ => false

def writesAcc : Instr → Bool
  | .crcInit | .crcUpd _ => true
  | _ => false

def writesFatal : Instr → Bool
  | .rxPush _ => true
  | _ => false

def writesFq : Instr → Bool
  | .scStep _ | .scPass | .frChk => true
  | _ => false

def writesDq : Instr → Bool
  | .frChk => true
  | _ => false

/-- The operations the fatal latch refuses (60_exceptions.md R233). -/
def onTransportPath : Instr → Bool
  | .rxPush _ | .scStep _ | .scPass => true
  | _ => false

/-! ## The ring buffer's abstract meaning -/

/-- A bounded FIFO of bytes: the status an RB.* operation returns and the contents it leaves (40_ring_buffer.md R109);
none for an operation of another unit. -/
def fifoStep (cap : Nat) (q : Bytes) : Instr → Option (Status × Bytes)
  | .rbEnq b => some (if q.length = cap then (.err .full, q) else (.ok .unit, q ++ [b]))
  | .rbDeq =>
    some (match q with
      | [] => (.err .empty, [])
      | b :: q' => (.ok (.byte b), q'))
  | .rbFull => some (.ok (.bool (decide (q.length = cap))), q)
  | .rbEmpty => some (.ok (.bool (decide (q.length = 0))), q)
  | .rbSize => some (.ok (.nat q.length), q)
  | .rbCap => some (.ok (.nat cap), q)
  | .rbClr => some (.ok .unit, [])
  | .rbSnap => some (.ok (.seq q), q)
  | _ => none

/-- An outcome whose next state, if it has one, is changed by `f`. -/
def mapNext (f : State → State) : Host.Outcome State Fault Refusal → Host.Outcome State Fault Refusal
  | .next t => .next (f t)
  | .fault r => .fault r
  | .refused r => .refused r

/-! ## The codec's pseudocode, line by line, to hold the model's functions against -/

/-- The variables of COBS.ENC's loop (41_cobs_codec.md R121). -/
structure EncodeLoop where
  out : Bytes
  slot : Nat
  code : Nat
  deriving DecidableEq, Repr

/-- The body of COBS.ENC's loop for the payload byte `b` (41_cobs_codec.md R121). -/
def encodeLoopBody (d : Byte) (v : EncodeLoop) (b : Byte) : EncodeLoop :=
  if b = d then
    { out := v.out.set v.slot (BitVec.ofNat 8 v.code) ++ [0x00], slot := v.out.length, code := 1 }
  else if v.code + 1 = 255 then
    { out := (v.out ++ [b]).set v.slot 255 ++ [0x00], slot := (v.out ++ [b]).length, code := 1 }
  else { out := v.out ++ [b], slot := v.slot, code := v.code + 1 }

/-- COBS.ENC as R121's pseudocode has it. -/
def encodePseudocode (p : Bytes) (d : Byte) : Bytes :=
  if p.length = 0 then [d]
  else
    let v := p.foldl (encodeLoopBody d) { out := [0x00], slot := 0, code := 1 }
    v.out.set v.slot (BitVec.ofNat 8 v.code) ++ [d]

/-- The `while i < m` loop of COBS.DEC (41_cobs_codec.md R125); the first argument bounds its rounds, and `m` rounds are
enough since `i` grows. -/
def decodeLoop (e : Bytes) (d : Byte) (m : Nat) : Nat → Nat → Bytes → Except Err Bytes
  | 0, _, out => .ok out
  | k + 1, i, out =>
    if i < m then
      let L := (e.getD i 0).toNat
      if L = 0 then .error (.zeroLength i)
      else if m < i + L then .error (.truncatedFrame i)
      else
        let lits := out ++ sliceHalfOpen e (i + 1) (i + L)
        decodeLoop e d m k (i + L) (if L < 255 ∧ i + L < m then lits ++ [d] else lits)
    else .ok out

/-- COBS.DEC as R125's pseudocode has it. -/
def decodePseudocode (e : Bytes) (d : Byte) : Except Err Bytes :=
  if e.length = 0 then .error .emptyInput
  else
    let m := if e.getD (e.length - 1) 0 = d then e.length - 1 else e.length
    decodeLoop e d m m 0 []

end Sys2Proof.Machine
end

