-- ==== Sys2Proof/Certificates/Slice0/Obligations.lean ====
section
/-! DEFINITION. Certificates/Slice0/Obligations.lean: the statements for the provers. Each docstring names the rule of
spec/ it formalises. `s.answer st evs` is `s` with the reply ⟨st, evs⟩ and nothing else changed; a completion has the
form `exec i s = .next t` under hypotheses on the state and the operands alone. -/

open Sys2Proof Sys2Proof.Machine

/-! ## Requests and steps -/

/-- The select codes of 30_encoding.md R90, one per row, written out, with the operands of R91 in the row's order. -/
def Obligations.DecodeReadsSelectCodes : Prop :=
  (∀ b, decode ⟨0x10, [.byte b]⟩ = .ok (.rbEnq b)) ∧
  decode ⟨0x11, []⟩ = .ok .rbDeq ∧
  decode ⟨0x12, []⟩ = .ok .rbFull ∧
  decode ⟨0x13, []⟩ = .ok .rbEmpty ∧
  decode ⟨0x14, []⟩ = .ok .rbSize ∧
  decode ⟨0x15, []⟩ = .ok .rbCap ∧
  decode ⟨0x16, []⟩ = .ok .rbClr ∧
  decode ⟨0x17, []⟩ = .ok .rbSnap ∧
  (∀ p d, decode ⟨0x20, [.seq p, .byte d]⟩ = .ok (.cobsEnc p d)) ∧
  (∀ e d, decode ⟨0x21, [.seq e, .byte d]⟩ = .ok (.cobsDec e d)) ∧
  decode ⟨0x30, []⟩ = .ok .crcInit ∧
  (∀ b, decode ⟨0x31, [.byte b]⟩ = .ok (.crcUpd b)) ∧
  decode ⟨0x32, []⟩ = .ok .crcFin ∧
  (∀ data, decode ⟨0x33, [.seq data]⟩ = .ok (.crcSum data)) ∧
  (∀ data fields, decode ⟨0x34, [.seq data, .schema fields]⟩ = .ok (.crcMsum data fields)) ∧
  (∀ b, decode ⟨0x40, [.byte b]⟩ = .ok (.rxPush b)) ∧
  (∀ b, decode ⟨0x41, [.byte b]⟩ = .ok (.scStep b)) ∧
  decode ⟨0x42, []⟩ = .ok .scPass ∧
  decode ⟨0x43, []⟩ = .ok .frChk ∧
  (∀ frame i j, decode ⟨0x50, [.seq frame, .nat i, .nat j]⟩ = .ok (.fxGet frame i j)) ∧
  (∀ frame, decode ⟨0x51, [.seq frame]⟩ = .ok (.fxHash frame)) ∧
  (∀ frame schema, decode ⟨0x52, [.seq frame, .schema schema]⟩ = .ok (.recDec frame schema)) ∧
  (∀ fields, decode ⟨0x60, [.seq fields]⟩ = .ok (.txSeal fields)) ∧
  (∀ fields d, decode ⟨0x61, [.seq fields, .byte d]⟩ = .ok (.txBuild fields d))

/-- 30_encoding.md R92: the 232 other codes, 0x00 and 0xFF among them, are answered IllegalOp and change no state,
whoever issues them, with whatever operands, whatever the state (60_exceptions.md R231 (1)). (`pending`, from which the
request is taken, is the model's list of what the agents do, log 2.) -/
def Obligations.ReservedCodesAnswerIllegalOp : Prop :=
  ((List.range 256).countP fun n => decide (BitVec.ofNat 8 n ∉ definedCodes)) = 232 ∧
  (0x00 : Byte) ∉ definedCodes ∧ (0xFF : Byte) ∉ definedCodes ∧
  ∀ (s : State) (a : Agent) (r : Request) (rest : List Action),
    s.pending = .issue a r :: rest → r.code ∉ definedCodes →
    step s = .next (State.answer { s with pending := rest } (.err (.illegalOp r.code)) [])

/-- Decode and encode agree in both directions, for every request and every operation: no operand is dropped, and
no other request is an operation (30_encoding.md R91). -/
def Obligations.DecodedRequestIsItsEncoding : Prop :=
  ∀ (r : Request) (i : Instr), decode r = .ok i ↔ r = encode i

/-- A step runs the decoded operation: the next action's request, issued by an agent that may issue it, is run by
`exec` on the state with that action taken off the list, and nothing else is added (20_memory.md R64; the list is the
model's, log 2). Who may issue what, written out: READER every RB.* operation, RX.PUSH, SC.STEP and SC.PASS (R60),
DEFRAMER FR.CHK (R61), the one owner of ACC CRC.INIT, CRC.UPD and CRC.FIN (R62), and any agent the pure operations (that
it is any agent, not APP alone, is the model's choice, log 10). -/
def Obligations.StepRunsDecodedOperation : Prop :=
  (∀ (s : State) (a : Agent) (r : Request) (rest : List Action) (i : Instr),
    s.pending = .issue a r :: rest → decode r = .ok i → mayIssue s.cfg a i = true →
    step s = exec i { s with pending := rest }) ∧
  (∀ (s : State) (a : Agent) (i : Instr) (rest : List Action), s.pending = .issue a (encode i) :: rest →
    (a = .reader ∧ ((∃ b, i = .rbEnq b ∨ i = .rxPush b ∨ i = .scStep b) ∨
        i ∈ [.rbDeq, .rbFull, .rbEmpty, .rbSize, .rbCap, .rbClr, .rbSnap, .scPass])) ∨
      (a = .deframer ∧ i = .frChk) ∨
      (a = s.cfg.accOwner ∧ (i = .crcInit ∨ (∃ b, i = .crcUpd b) ∨ i = .crcFin)) ∨
      (∃ (x : Bytes) (d : Byte) (fs : Schema) (m n : Nat), i ∈ [.cobsEnc x d, .cobsDec x d, .crcSum x, .crcMsum x fs,
        .fxGet x m n, .fxHash x, .recDec x fs, .txSeal x, .txBuild x d]) →
    step s = exec i { s with pending := rest })

/-- What a step does with the other actions: an operation of another agent's unit is refused by name (60_exceptions.md
R245, 20_memory.md R60, R61, R62), and so is a defined code with operands of the wrong number or kind (93 U11); APP takes the oldest RawFrame of DQ (10_state.md R36), and holds when there is none
(the model's choice, log 17); with no action to come all state is kept (the model's choice, log 3). -/
def Obligations.StepOnOtherActions : Prop :=
  (∀ (s : State) (a : Agent) (i : Instr) (rest : List Action),
    s.pending = .issue a (encode i) :: rest → s.cfgErr = false → a ≠ .reader →
    (∃ b, i = .rbEnq b ∨ i = .rxPush b ∨ i = .scStep b) ∨ i ∈ [.rbDeq, .rbFull, .rbEmpty, .rbSize, .rbCap, .rbClr,
      .rbSnap, .scPass] →
    step s = .refused (.notOwner a)) ∧
  (∀ (s : State) (a : Agent) (rest : List Action),
    s.pending = .issue a (encode .frChk) :: rest → s.cfgErr = false → a ≠ .deframer →
    step s = .refused (.notOwner a)) ∧
  (∀ (s : State) (a : Agent) (i : Instr) (rest : List Action),
    s.pending = .issue a (encode i) :: rest → s.cfgErr = false → a ≠ s.cfg.accOwner → writesAcc i = true ∨ i = .crcFin →
    step s = .refused (.notOwner a)) ∧
  (∀ (s : State) (a : Agent) (r : Request) (rest : List Action),
    s.pending = .issue a r :: rest → r.code ∈ definedCodes → (∀ i, r ≠ encode i) →
    step s = .refused (.badOperands r.code)) ∧
  (∀ (s : State) (rest : List Action) (r : Bytes) (q : List Bytes),
    s.pending = .takeData :: rest → s.dq = r :: q →
    step s = .next (State.answer { s with pending := rest, dq := q } (.ok (.seq r)) [])) ∧
  (∀ (s : State) (rest : List Action), s.pending = .takeData :: rest → s.dq = [] →
    step s = .next (State.answer { s with pending := rest } .hold [])) ∧
  (∀ (s : State), s.pending = [] → step s = .next { s with reply := none })

/-! ## Reset and construction -/

/-- 10_state.md R40, 70_reset_and_hazards.md R260: what the host's reset leaves, from any state, with any arguments.
(RBMEM and PB are unspecified there; that the world's further actions stay is the model's choice, log 11.) -/
def Obligations.HostResetLeavesTable : Prop :=
  ∀ (s : State) (c : Config) (rest : List Action), s.pending = .reset c :: rest →
    ∃ t, step s = .next t ∧ t.cfg = c ∧ t.head = 0 ∧ t.tail = 0 ∧ t.size = 0 ∧ t.readCount = 0 ∧
      t.acc = 0xFFFFFFFF ∧ t.fatal = false ∧ t.fq = [] ∧ t.dq = [] ∧ t.contents = [] ∧ t.scanner = .idle ∧
      t.pending = rest

/-- 70_reset_and_hazards.md R261: CFGERR is the outcome of the four tests of 00_scope.md R9, at the host's reset. -/
def Obligations.HostResetComputesCfgErr : Prop :=
  ∀ (s : State) (c : Config) (rest : List Action), s.pending = .reset c :: rest →
    ∃ t, step s = .next t ∧
      (t.cfgErr = false ↔ 1 ≤ c.msgSize ∧ 1 ≤ c.rdBuf ∧ 1 ≤ c.rbCap ∧ c.rdBuf ≤ c.rbCap)

/-- The reset state of every instance meets the invariant (10_state.md R26, R40). -/
def Obligations.ResetSatisfiesInvariant : Prop :=
  (∀ c : Config, (State.resetWith c).Inv) ∧ State.reset.Inv

/-- Every step, whatever the next action of the world, keeps the invariant: the ring registers tied and in range
(10_state.md R23-R26), `readCount ≤ PKT_SIZE` and no delimiter collected (43_frame_scanner.md R169), the queues within
their capacities and every frame of its length (10_state.md R36), canonical storage, CFGERR the construction check. -/
def Obligations.StepKeepsInvariant : Prop :=
  ∀ (s t : State), s.Inv → step s = .next t → t.Inv

/-- In every state of the invariant every operation answers: no operation faults and none is refused, whatever its
operands (20_memory.md R56: no rule forms an index outside an array). -/
def Obligations.EveryOperationAnswers : Prop :=
  ∀ (i : Instr) (s : State), s.Inv → ∃ t, exec i s = .next t ∧ t.Inv

/-- 10_state.md R35: CFGERR is the construction check's outcome, no operation changes it, and while it is 1 every
operation is answered ConfigInvalid and changes nothing. That this comes before the test of ownership, so that also an
agent that does not own the operation's unit is answered ConfigInvalid instead of being refused (20_memory.md R60,
60_exceptions.md R245), is the model's choice (log 10). -/
def Obligations.InvalidConfigurationRefusesAll : Prop :=
  (∀ c : Config, (State.resetWith c).cfgErr = !c.valid) ∧
  (∀ (i : Instr) (s t : State), exec i s = .next t → t.cfgErr = s.cfgErr) ∧
  (∀ (s t : State), step s = .next t → t.cfgErr = s.cfgErr ∨ ∃ c, s.pending.head? = some (.reset c)) ∧
  (∀ (i : Instr) (s : State), s.cfgErr = true → exec i s = .next (s.answer (.err .configInvalid) [])) ∧
  (∀ (s : State) (a : Agent) (i : Instr) (rest : List Action), s.cfgErr = true → s.pending = .issue a (encode i) :: rest →
    step s = .next (State.answer { s with pending := rest } (.err .configInvalid) []))

/-! ## Rules of the whole machine -/

/-- 10_state.md R34, 60_exceptions.md R233: the fatal latch. Set by RX.PUSH on a full ring and by nothing else; while set, RX.PUSH,
SC.STEP and SC.PASS answer Disconnected and change nothing; every other operation does what it does without it; no
operation clears it, and among the steps only a reset does. -/
def Obligations.FatalLatch : Prop :=
  (∀ (i : Instr) (s : State), s.cfgErr = false → s.fatal = true → onTransportPath i = true →
    exec i s = .next (s.answer (.err .disconnected) [])) ∧
  (∀ (i : Instr) (s : State) (f : Bool), onTransportPath i = false →
    exec i { s with fatal := f } = mapNext (fun t => { t with fatal := f }) (exec i s)) ∧
  (∀ (i : Instr) (s t : State), exec i s = .next t → s.fatal = true → t.fatal = true) ∧
  (∀ (s : State) (b : Byte), s.cfgErr = false → s.fatal = false → s.size = s.cfg.rbCap →
    exec (.rxPush b) s = .next (State.answer { s with fatal := true } (.err .rxOverflow) [])) ∧
  (∀ (i : Instr) (s t : State), exec i s = .next t → s.fatal = false → t.fatal = true →
    (∃ b, i = .rxPush b) ∧ s.size = s.cfg.rbCap ∧ t.status = some (.err .rxOverflow)) ∧
  (∀ (s t : State), step s = .next t → s.fatal = true → t.fatal = true ∨ ∃ c, s.pending.head? = some (.reset c)) ∧
  (∀ c : Config, (State.resetWith c).fatal = false)

/-- 60_exceptions.md R230: every non-Ok status is precise. An operation that answers an error has written no state, with
the single exception of RX.PUSH setting FATAL before RxOverflow, and has emitted no event; one that answers Hold has
written nothing. A warning does not end its operation: the status is Ok, and SC.STEP has set readCount to 0. -/
def Obligations.NonOkStatusesArePrecise : Prop :=
  (∀ (i : Instr) (s t : State) (e : Err), exec i s = .next t → t.status = some (.err e) →
    (e ≠ .rxOverflow ∧ t = s.answer (.err e) []) ∨
    (e = .rxOverflow ∧ (∃ b, i = .rxPush b) ∧ t = State.answer { s with fatal := true } (.err .rxOverflow) [])) ∧
  (∀ (i : Instr) (s t : State), exec i s = .next t → t.status = some .hold → t = s.answer .hold []) ∧
  (∀ (i : Instr) (s t : State) (w : Warning), exec i s = .next t → Event.warn w ∈ t.events →
    ∃ v, t.status = some (.ok v)) ∧
  (∀ (b : Byte) (s t : State) (w : Warning), exec (.scStep b) s = .next t → Event.warn w ∈ t.events →
    t.status = some (.ok .unit) ∧ t.readCount = 0)

/-- 60_exceptions.md R236, 20_memory.md R66: an operation holds exactly where it is not enabled, SC.STEP at a frame
boundary with FQ full, FR.CHK with FQ empty or DQ full; it then changes nothing and emits nothing. (That such an
operation answers Hold, rather than having no step, is the model's choice, log 9.) Every queue has at least one place
(00_scope.md R11): SC.STEP never holds with FQ empty, nor FR.CHK with a frame in FQ and DQ empty. -/
def Obligations.HoldExactlyWhenBlocked : Prop :=
  ∀ (i : Instr) (s t : State), exec i s = .next t →
    (t.status = some .hold ↔
      s.cfgErr = false ∧
        ((i = .scStep s.cfg.delim ∧ s.fatal = false ∧ s.readCount = s.cfg.pktSize ∧ s.fq.length = s.cfg.fqCap) ∨
          (i = .frChk ∧ (s.fq = [] ∨ s.dq.length = s.cfg.dqCap)))) ∧
    (t.status = some .hold → t = s.answer .hold []) ∧
    (s.fq = [] → (∃ b, i = .scStep b) → t.status ≠ some .hold) ∧
    (s.fq ≠ [] → s.dq = [] → i = .frChk → t.status ≠ some .hold)

/-- 10_state.md R41, R21: the frame of every operation. What an operation has no `w` for in the table's columns it
leaves unchanged; no operation writes the configuration, CFGERR or the actions still to come; the composites contain
their primitives (R20). -/
def Obligations.OperationsWriteOnlyTheirColumns : Prop :=
  ∀ (i : Instr) (s t : State), exec i s = .next t →
    (writesRbmem i = false → t.rbmem = s.rbmem) ∧
    (writesHead i = false → t.head = s.head) ∧
    (writesTail i = false → t.tail = s.tail) ∧
    (writesSize i = false → t.size = s.size) ∧
    (writesParse i = false → t.pb = s.pb ∧ t.readCount = s.readCount) ∧
    (writesAcc i = false → t.acc = s.acc) ∧
    (writesFatal i = false → t.fatal = s.fatal) ∧
    (writesFq i = false → t.fq = s.fq) ∧
    (writesDq i = false → t.dq = s.dq) ∧
    t.cfg = s.cfg ∧ t.cfgErr = s.cfgErr ∧ t.pending = s.pending

/-- The frame of the two byte arrays, byte by byte (20_memory.md R54, 10_state.md R22, R30): RB.ENQ and RX.PUSH store
at `tail` only, SC.STEP at `readCount` only, SC.PASS inside PB only; every other byte reads as before, in every state. -/
def Obligations.StorageBytesFrame : Prop :=
  (∀ (i : Instr) (s t : State) (a : Nat), exec i s = .next t →
    (writesRbmem i = true → a ≠ s.tail) → t.rbmem.read a = s.rbmem.read a) ∧
  (∀ (i : Instr) (s t : State) (a : Nat), exec i s = .next t →
    (∀ b, i = .scStep b → a ≠ s.readCount) → (i = .scPass → s.cfg.pktSize ≤ a) → t.pb.read a = s.pb.read a)

/-- 10_state.md R38: the pure operations. What they return depends on the operands alone, whatever the two states are
(both with a valid configuration), and they write nothing. -/
def Obligations.PureOperationsDependOnOperandsOnly : Prop :=
  ∀ (i : Instr) (s s' : State), pureOp i = true → s.cfgErr = false → s'.cfgErr = false →
    ∃ st : Status, exec i s = .next (s.answer st []) ∧ exec i s' = .next (s'.answer st [])

/-- 20_memory.md R55: the reads without side effect. Each may be repeated: it leaves the state as it is, and the second
time returns what it returned the first time. -/
def Obligations.ReadsAreRepeatable : Prop :=
  ∀ (i : Instr) (s t : State),
    pureOp i = true ∨ i ∈ [.rbFull, .rbEmpty, .rbSize, .rbCap, .rbSnap, .crcFin] →
    exec i s = .next t → t = { s with reply := t.reply } ∧ exec i t = .next t

/-! ## Ring buffer -/

/-- 40_ring_buffer.md R101: RB.ENQ, full and not full. The bytes of RBMEM other than the one at `tail` are unchanged. -/
def Obligations.RbEnqStoresAtTail : Prop :=
  ∀ (s : State) (b : Byte), s.cfgErr = false →
    (s.size = s.cfg.rbCap → exec (.rbEnq b) s = .next (s.answer (.err .full) [])) ∧
    (s.size ≠ s.cfg.rbCap → s.tail < s.cfg.rbCap → s.rbmem.wf = true →
      ∃ m : Memory,
        exec (.rbEnq b) s = .next (State.answer
          { s with rbmem := m, tail := (s.tail + 1) % s.cfg.rbCap, size := s.size + 1 } (.ok .unit) []) ∧
        m.read s.tail = b ∧ (∀ a, a ≠ s.tail → m.read a = s.rbmem.read a) ∧ m.wf = true)

/-- 40_ring_buffer.md R102: RB.DEQ, empty and not empty; the byte stays in RBMEM. -/
def Obligations.RbDeqTakesAtHead : Prop :=
  ∀ (s : State), s.cfgErr = false →
    (s.size = 0 → exec .rbDeq s = .next (s.answer (.err .empty) [])) ∧
    (s.size ≠ 0 → s.head < s.cfg.rbCap →
      exec .rbDeq s = .next (State.answer { s with head := (s.head + 1) % s.cfg.rbCap, size := s.size - 1 }
        (.ok (.byte (s.rbmem.read s.head))) []))

/-- 40_ring_buffer.md R103, R104, R105, R106: the four queries. -/
def Obligations.RbQueriesReturnRegisters : Prop :=
  ∀ (s : State), s.cfgErr = false →
    exec .rbFull s = .next (s.answer (.ok (.bool (decide (s.size = s.cfg.rbCap)))) []) ∧
    exec .rbEmpty s = .next (s.answer (.ok (.bool (decide (s.size = 0)))) []) ∧
    exec .rbSize s = .next (s.answer (.ok (.nat s.size)) []) ∧
    exec .rbCap s = .next (s.answer (.ok (.nat s.cfg.rbCap)) [])

/-- 40_ring_buffer.md R107: RB.CLR zeroes head, tail and size and nothing else; RBMEM, PB and readCount keep their
values; a following RB.DEQ returns Empty. -/
def Obligations.RbClrKeepsStorage : Prop :=
  ∀ (s : State), s.cfgErr = false →
    ∃ t, exec .rbClr s = .next t ∧
      t = State.answer { s with head := 0, tail := 0, size := 0 } (.ok .unit) [] ∧
      t.ringEmpty = true ∧ t.contents = [] ∧ exec .rbDeq t = .next (t.answer (.err .empty) [])

/-- 40_ring_buffer.md R108: RB.SNAP returns the contents in logical order, by the source's one or two copies, and writes
nothing. -/
def Obligations.RbSnapCopiesInLogicalOrder : Prop :=
  ∀ (s : State), s.cfgErr = false → s.RingInv →
    ∃ out : Bytes, exec .rbSnap s = .next (s.answer (.ok (.seq out)) []) ∧ out.length = s.size ∧
      (∀ k, k < s.size → out[k]? = some (s.rbmem.read ((s.head + k) % s.cfg.rbCap))) ∧
      out =
        if s.head + s.size ≤ s.cfg.rbCap then (List.range' s.head s.size).map s.rbmem.read
        else (List.range' s.head (s.cfg.rbCap - s.head)).map s.rbmem.read ++
          (List.range (s.head + s.size - s.cfg.rbCap)).map s.rbmem.read

/-- 40_ring_buffer.md R109, 10_state.md R28: in every state of the invariant, every RB.* operation is the operation of a
bounded first-in first-out queue on the logical contents: it answers the queue's status and leaves the queue's contents. -/
def Obligations.RingRefinesBoundedFifo : Prop :=
  ∀ (i : Instr) (s : State) (st : Status) (q : Bytes), s.Inv → s.cfgErr = false →
    fifoStep s.cfg.rbCap s.contents i = some (st, q) →
    ∃ t, exec i s = .next t ∧ t.status = some st ∧ t.events = [] ∧ t.contents = q ∧ t.Inv

/-- 40_ring_buffer.md R109 (a): N bytes enqueued into an empty ring (N ≤ RB_CAP), wherever its indices stand, come out in
the order they went in; after `k` dequeues the next returns byte number `k`, and after N it returns Empty. -/
def Obligations.EnqueuedBytesLeaveInOrder : Prop :=
  ∀ (s : State) (bs : Bytes) (k : Nat), s.Inv → s.cfgErr = false → s.size = 0 → bs.length ≤ s.cfg.rbCap →
    k ≤ bs.length →
    ∃ u v, trace (bs.map .rbEnq ++ List.replicate k .rbDeq) s = some (u, []) ∧ u.contents = bs.drop k ∧
      exec .rbDeq u = .next v ∧
      v.status = some (match bs[k]? with
        | some b => .ok (.byte b)
        | none => .err .empty)

/-- An RBMEM index outside 0..RB_CAP-1 does not exist (10_state.md R22) and the operation that forms one faults by name.
The fault is the model's choice (log 7). No state of the invariant is such a state: there, with CFGERR 0, the array has a
cell and both indices lie inside it. -/
def Obligations.RingIndexOutsideArrayFaults : Prop :=
  ∀ (s : State) (b : Byte), s.cfgErr = false →
    (s.size ≠ s.cfg.rbCap → s.cfg.rbCap ≤ s.tail → exec (.rbEnq b) s = .fault .ringIndex) ∧
    (s.fatal = false → s.size ≠ s.cfg.rbCap → s.cfg.rbCap ≤ s.tail → exec (.rxPush b) s = .fault .ringIndex) ∧
    (s.size ≠ 0 → s.cfg.rbCap ≤ s.head → exec .rbDeq s = .fault .ringIndex) ∧
    (s.size ≠ 0 → s.cfg.rbCap = 0 → exec .rbSnap s = .fault .ringIndex) ∧
    (s.fatal = false → s.size ≠ 0 → s.cfg.pktSize ≤ s.readCount + s.size → s.cfg.rbCap ≤ s.head →
      exec .scPass s = .fault .ringIndex) ∧
    (s.Inv → s.head < s.cfg.rbCap ∧ s.tail < s.cfg.rbCap ∧ 1 ≤ s.cfg.rbCap)

/-! ## Codec -/

/-- 41_cobs_codec.md R121: COBS.ENC completes on every payload and delimiter with what the rule's pseudocode, with its
code-byte slots filled in later, returns. -/
def Obligations.CobsEncMatchesPseudocode : Prop :=
  ∀ (s : State) (p : Bytes) (d : Byte), s.cfgErr = false →
    exec (.cobsEnc p d) s = .next (s.answer (.ok (.seq (encodePseudocode p d))) [])

/-- 41_cobs_codec.md R125: COBS.DEC answers on every input and delimiter what the rule's pseudocode, index by index,
returns or raises. -/
def Obligations.CobsDecMatchesPseudocode : Prop :=
  ∀ (s : State) (e : Bytes) (d : Byte), s.cfgErr = false →
    exec (.cobsDec e d) s = .next (s.answer
      (match decodePseudocode e d with
        | .ok out => .ok (.seq out)
        | .error err => .err err) [])

/-- 30_encoding.md R74: the encoded length, n + 2 + F for n ≥ 1, F counting the full runs of 254 in the delimiter-free
segments of the payload; 1 for the empty payload. -/
def Obligations.EncodedLength : Prop :=
  ∀ (p : Bytes) (d : Byte),
    (p = [] → (cobsEncode p d).length = 1) ∧
    (p ≠ [] → (cobsEncode p d).length = p.length + 2 + ((p.splitOn d).map fun seg => seg.length / 254).sum) ∧
    (1 ≤ p.length → p.length ≤ 253 → (cobsEncode p d).length = p.length + 2)

/-- 41_cobs_codec.md R122, R124: the empty payload is the terminator alone; 254 literals close a block at once with code
byte 0xFF, whatever follows, and the last block is always written; COBS.DEC accepts such a payload with and without that
last empty block (R129 c). -/
def Obligations.FullRunsChain : Prop :=
  (∀ d : Byte, cobsEncode [] d = [d]) ∧
  (∀ (x : Bytes) (d : Byte), x.length = 254 → d ∉ x → cobsEncode x d = [0xFF] ++ x ++ [0x01, d]) ∧
  (∀ (x : Bytes) (d y : Byte), x.length = 254 → d ∉ x → y ≠ d →
    cobsEncode (x ++ [y]) d = [0xFF] ++ x ++ [0x02, y, d]) ∧
  (∀ (x : Bytes) (d : Byte), x.length = 254 → d ∉ x → cobsEncode (x ++ [d]) d = [0xFF] ++ x ++ [0x01, 0x01, d]) ∧
  (∀ (x : Bytes) (d : Byte), x.length = 254 →
    cobsDecode ([0xFF] ++ x ++ [0x01, d]) d = .ok x ∧ cobsDecode ([0xFF] ++ x ++ [d]) d = .ok x)

/-- 41_cobs_codec.md R128: the round trip, for every payload and every delimiter, through the two operations. -/
def Obligations.CodecRoundTrip : Prop :=
  ∀ (s : State) (p : Bytes) (d : Byte), s.cfgErr = false →
    ∃ (e : Bytes) (t u : State), exec (.cobsEnc p d) s = .next t ∧ t.status = some (.ok (.seq e)) ∧
      exec (.cobsDec e d) t = .next u ∧ u.status = some (.ok (.seq p)) ∧ e.getLast? = some d

/-- 41_cobs_codec.md R130: without its terminator an encoding still decodes to its payload, for every non-empty payload,
unless the delimiter is 0x01. -/
def Obligations.TerminatorlessRoundTrip : Prop :=
  ∀ (p : Bytes) (d : Byte), p ≠ [] → d ≠ 0x01 → cobsDecode (cobsEncode p d).dropLast d = .ok p

/-- 30_encoding.md R75, 41_cobs_codec.md R131, R129 (d): a terminator-less input of at most 255 bytes decodes to exactly
one byte less; any input decodes to at most one byte less than its length without a terminator. -/
def Obligations.DecodedLength : Prop :=
  (∀ (e out : Bytes) (d : Byte), d ∉ e → e.length ≤ 255 → cobsDecode e d = .ok out → out.length + 1 = e.length) ∧
  (∀ (e out : Bytes) (d : Byte), cobsDecode e d = .ok out → out.length ≤ e.length - 1)

/-- 70_reset_and_hazards.md R278, 30_encoding.md R73: with delimiter 0x00, or one above n + 1 for a payload of
n ≤ 253 bytes, the delimiter occurs in an encoding only as its last byte. -/
def Obligations.SafeDelimiterOnlyTerminates : Prop :=
  (∀ p : Bytes, (0x00 : Byte) ∉ (cobsEncode p 0x00).dropLast) ∧
  (∀ (p : Bytes) (d : Byte), p.length ≤ 253 → p.length + 1 < d.toNat → d ∉ (cobsEncode p d).dropLast)

/-! ## Checksum -/

/-- 42_checksum.md R141, R143: CRC.INIT sets ACC to 0xFFFFFFFF; CRC.FIN returns ACC exclusive-or 0xFFFFFFFF and leaves
ACC. -/
def Obligations.CrcInitAndFin : Prop :=
  ∀ (s : State), s.cfgErr = false →
    exec .crcInit s = .next (State.answer { s with acc := 0xFFFFFFFF } (.ok .unit) []) ∧
    exec .crcFin s = .next (s.answer (.ok (.word (s.acc ^^^ 0xFFFFFFFF))) [])

/-- 42_checksum.md R142: CRC.UPD. The step is written out: a word whose bit 0 is 1 is shifted right by one and
exclusive-ored with 0xEDB88320, any other is only shifted. CRC.UPD completes with ACC after eight steps on
`ACC ^ zext_32(b)`, and that equals the table form `(ACC >> 8) ^ T[(ACC ^ b)[7:0]]`, `T[k]` being the eight steps on
`zext_32(k)`. (The constant is the spec's from general knowledge, 93 G1, log 13.) -/
def Obligations.CrcUpdTableForm : Prop :=
  let step : Word32 → Word32 := fun c => if c.getLsbD 0 = true then (c >>> 1) ^^^ 0xEDB88320 else c >>> 1
  let eight : Word32 → Word32 := fun c => step (step (step (step (step (step (step (step c)))))))
  let table : Byte → Word32 := fun k => eight (k.setWidth 32)
  ∀ (s : State) (b : Byte), s.cfgErr = false →
    exec (.crcUpd b) s = .next (State.answer { s with acc := eight (s.acc ^^^ b.setWidth 32) } (.ok .unit) []) ∧
    exec (.crcUpd b) s = .next (State.answer
      { s with acc := (s.acc >>> 8) ^^^ table (s.acc.setWidth 8 ^^^ b) } (.ok .unit) [])

/-- 42_checksum.md R144, 30_encoding.md R96: CRC.SUM returns what CRC.INIT, one CRC.UPD per byte in order, CRC.FIN
return, from any state, and does not touch ACC. -/
def Obligations.CrcSumIsInitUpdFin : Prop :=
  ∀ (s : State) (data : Bytes), s.cfgErr = false →
    ∃ (t u : State) (w : Word32),
      trace (.crcInit :: data.map .crcUpd ++ [.crcFin]) s = some (t, []) ∧ t.status = some (.ok (.word w)) ∧
      exec (.crcSum data) s = .next u ∧ u = s.answer (.ok (.word w)) []

/-- 42_checksum.md R146, R148, R150: CRC.MSUM on n ≥ 5 bytes with valid zerofill ranges returns the CRC-32 of the n - 5
bytes 1..n-5, those in a zerofill range replaced by 0x00: byte 0 and the trailer do not enter. -/
def Obligations.MsumHashesMaskedWindow : Prop :=
  ∀ (s : State) (data : Bytes) (fields : Schema), s.cfgErr = false → 5 ≤ data.length →
    (∀ f ∈ fields, f.zerofill = true → f.startIdx ≤ f.endIdx ∧ f.endIdx < data.length) →
    exec (.crcMsum data fields) s = .next (s.answer (.ok (.word (crcSum
      ((List.range (data.length - 5)).map fun k =>
        if fields.any (fun f => f.zerofill && decide (f.startIdx ≤ k + 1) && decide (k + 1 ≤ f.endIdx)) then 0x00
        else data.getD (k + 1) 0x00)))) [])

/-- 42_checksum.md R149, R147: fewer than 5 bytes are FrameTooShort; exactly 5 have an empty window and the checksum 0;
from 5 on the first zerofill descriptor in schema order
whose range is invalid is InvalidFieldRange with its index and name. -/
def Obligations.MsumErrors : Prop :=
  ∀ (s : State) (data : Bytes) (fields : Schema), s.cfgErr = false →
    (data.length < 5 → exec (.crcMsum data fields) s = .next (s.answer (.err (.frameTooShort data.length)) [])) ∧
    (data.length = 5 → (∀ f ∈ fields, f.zerofill = true → f.startIdx ≤ f.endIdx ∧ f.endIdx < data.length) →
      exec (.crcMsum data fields) s = .next (s.answer (.ok (.word 0)) [])) ∧
    (∀ (pre post : Schema) (f : FieldDescriptor), 5 ≤ data.length → fields = pre ++ f :: post →
      (∀ g ∈ pre, g.zerofill = true → g.startIdx ≤ g.endIdx ∧ g.endIdx < data.length) →
      f.zerofill = true → ¬(f.startIdx ≤ f.endIdx ∧ f.endIdx < data.length) →
      exec (.crcMsum data fields) s =
        .next (s.answer (.err (.invalidFieldRange (some (pre.length, f.name)))) []))

/-- 42_checksum.md R148: the result depends on the window's unmasked bytes alone; data of the same length that differ
only in byte 0, in the trailer or inside zerofill ranges give the same answer. -/
def Obligations.MsumIgnoresMaskedBytes : Prop :=
  ∀ (s : State) (data data' : Bytes) (fields : Schema), data'.length = data.length →
    (∀ k, 1 ≤ k → k + 4 < data.length →
      (∀ f ∈ fields, f.zerofill = true → ¬(f.startIdx ≤ k ∧ k ≤ f.endIdx)) → data'[k]? = data[k]?) →
    exec (.crcMsum data' fields) s = exec (.crcMsum data fields) s

/-- 44_field_extractor.md R202: any change confined to one byte of the window, outside the zerofill ranges, changes the
checksum that CRC.MSUM returns. (That CRC-32 does so is a fact to prove from the parameters, 93 G3.) -/
def Obligations.MsumDetectsSingleByteChange : Prop :=
  ∀ (s : State) (data : Bytes) (fields : Schema) (k : Nat) (b : Byte), s.cfgErr = false →
    1 ≤ k → k + 4 < data.length → data[k]? ≠ some b →
    (∀ f ∈ fields, f.zerofill = true → f.startIdx ≤ f.endIdx ∧ f.endIdx < data.length ∧ ¬(f.startIdx ≤ k ∧ k ≤ f.endIdx)) →
    ∃ w w' : Word32, w ≠ w' ∧
      exec (.crcMsum data fields) s = .next (s.answer (.ok (.word w)) []) ∧
      exec (.crcMsum (data.set k b) fields) s = .next (s.answer (.ok (.word w')) [])

/-! ## Ingest, scanner, pass, deframer -/

/-- 43_frame_scanner.md R160, 60_exceptions.md R232: RX.PUSH: refused while FATAL = 1; on a full ring the byte is lost,
FATAL is set and every push after that is refused; else the byte is stored as by RB.ENQ. -/
def Obligations.RxPushStoresOrLatches : Prop :=
  ∀ (s : State) (b : Byte), s.cfgErr = false →
    (s.fatal = true → exec (.rxPush b) s = .next (s.answer (.err .disconnected) [])) ∧
    (s.fatal = false → s.size = s.cfg.rbCap →
      ∃ t, exec (.rxPush b) s = .next t ∧ t = State.answer { s with fatal := true } (.err .rxOverflow) [] ∧
        ∀ b', exec (.rxPush b') t = .next (t.answer (.err .disconnected) [])) ∧
    (s.fatal = false → s.size ≠ s.cfg.rbCap → s.tail < s.cfg.rbCap → s.rbmem.wf = true →
      ∃ m : Memory,
        exec (.rxPush b) s = .next (State.answer
          { s with rbmem := m, tail := (s.tail + 1) % s.cfg.rbCap, size := s.size + 1 } (.ok .unit) []) ∧
        m.read s.tail = b ∧ (∀ a, a ≠ s.tail → m.read a = s.rbmem.read a) ∧ m.wf = true)

/-- 43_frame_scanner.md R168: the transition table of SC.STEP, row by row (the rows `n = 0` and `0 < n < PKT_SIZE` have
the same outcome and are one clause here). -/
def Obligations.ScStepTransitionTable : Prop :=
  ∀ (s : State) (b : Byte), s.cfgErr = false → s.fatal = false →
    (s.readCount < s.cfg.pktSize → b ≠ s.cfg.delim → s.pb.wf = true →
      ∃ m : Memory,
        exec (.scStep b) s = .next (State.answer { s with pb := m, readCount := s.readCount + 1 } (.ok .unit) []) ∧
        m.read s.readCount = b ∧ (∀ a, a ≠ s.readCount → m.read a = s.pb.read a) ∧ m.wf = true) ∧
    (s.readCount < s.cfg.pktSize → b = s.cfg.delim →
      exec (.scStep b) s = .next (State.answer { s with readCount := 0 } (.ok .unit)
        [.warn (.delimiterMismatch s.readCount)])) ∧
    (s.readCount = s.cfg.pktSize → b = s.cfg.delim → s.fq.length ≠ s.cfg.fqCap →
      exec (.scStep b) s = .next (State.answer
        { s with fq := s.fq ++ [(List.range s.cfg.pktSize).map s.pb.read], readCount := 0 } (.ok .unit)
        [.frame ((List.range s.cfg.pktSize).map s.pb.read)])) ∧
    (s.readCount = s.cfg.pktSize → b = s.cfg.delim → s.fq.length = s.cfg.fqCap →
      exec (.scStep b) s = .next (s.answer .hold [])) ∧
    (s.readCount = s.cfg.pktSize → b ≠ s.cfg.delim →
      exec (.scStep b) s = .next (State.answer { s with readCount := 0 } (.ok .unit) [.warn (.delimiterMissing b)]))

/-- 43_frame_scanner.md R162, R169 (b), 60_exceptions.md R240: every frame an operation emits, from a state of the
invariant, has PKT_SIZE bytes, none of them the delimiter; the frames emitted are, in order, the frames appended to FQ by
the scanner, and RawFrames emitted have MSG_SIZE bytes. -/
def Obligations.EmittedFramesAreWellFormed : Prop :=
  ∀ (i : Instr) (s t : State), s.Inv → exec i s = .next t →
    (∀ f, Event.frame f ∈ t.events → f.length = s.cfg.pktSize ∧ s.cfg.delim ∉ f) ∧
    (∀ r, Event.data r ∈ t.events → r.length = s.cfg.msgSize) ∧
    (i ≠ .frChk → t.fq = s.fq ++ t.events.filterMap fun e => match e with
      | .frame f => some f
      | _ => none)

/-- 43_frame_scanner.md R166: the defensive check reports and resets where readCount exceeds PKT_SIZE after a step, which
no state of the scanner's invariant leads to: there no operation ever emits BufferOverrun. -/
def Obligations.BufferOverrunOnlyOutsideInvariant : Prop :=
  (∀ (s : State) (b : Byte), s.cfgErr = false → s.fatal = false → s.cfg.pktSize < s.readCount → b ≠ s.cfg.delim →
    exec (.scStep b) s = .next (State.answer { s with readCount := 0 } (.ok .unit)
      [.warn (.bufferOverrun (s.readCount + 1))])) ∧
  (∀ (i : Instr) (s t : State) (n : Nat), s.ScannerInv → exec i s = .next t → Event.warn (.bufferOverrun n) ∉ t.events)

/-- 43_frame_scanner.md R171: from Idle with FQ not full, exactly PKT_SIZE non-delimiter bytes and the delimiter emit
exactly one frame equal to those bytes; a delimiter before PKT_SIZE bytes emits no frame and one DelimiterMismatch, and
leaves the scanner Idle. -/
def Obligations.PacketOfBytesEmitsOneFrame : Prop :=
  ∀ (s : State) (bs : Bytes), s.cfgErr = false → s.fatal = false → s.readCount = 0 → s.pb.wf = true →
    s.cfg.delim ∉ bs →
    (bs.length = s.cfg.pktSize → s.fq.length ≠ s.cfg.fqCap →
      ∃ t, trace ((bs ++ [s.cfg.delim]).map .scStep) s = some (t, [.frame bs]) ∧ t.fq = s.fq ++ [bs] ∧
        t.scanner = .idle) ∧
    (bs.length < s.cfg.pktSize →
      ∃ t, trace ((bs ++ [s.cfg.delim]).map .scStep) s = some (t, [.warn (.delimiterMismatch bs.length)]) ∧
        t.fq = s.fq ∧ t.scanner = .idle)

/-- 43_frame_scanner.md R172, 30_encoding.md R96: SC.PASS. While FATAL = 1 it answers Disconnected; below the gate it
answers Gated and changes nothing. Past it, it is RB.DEQ and SC.STEP in turn for the first `n` bytes of the ring, with
their events in order; it answers Drained when `n` is all of them, and Held when the next byte is a frame boundary and FQ
is full. No byte before that is such a boundary when its turn comes, so none of the `n` SC.STEPs is held and no byte is
lost: the pass answers Held exactly at the first boundary in front of a full FQ. -/
def Obligations.PassIsDequeueThenStep : Prop :=
  ∀ (s : State), s.Inv → s.cfgErr = false →
    (s.fatal = true → exec .scPass s = .next (s.answer (.err .disconnected) [])) ∧
    (s.fatal = false → s.readCount + s.size < s.cfg.pktSize →
      exec .scPass s = .next (s.answer (.ok (.pass .gated)) [])) ∧
    (s.fatal = false → s.cfg.pktSize ≤ s.readCount + s.size →
      ∃ (n : Nat) (u : State) (evs : List Event), n ≤ s.size ∧
        trace ((s.contents.take n).flatMap fun b => [.rbDeq, .scStep b]) s = some (u, evs) ∧
        u.contents = s.contents.drop n ∧
        (∀ k < n, ∃ (v : State) (es : List Event),
          trace ((s.contents.take k).flatMap fun b => [.rbDeq, .scStep b]) s = some (v, es) ∧
          v.contents = s.contents.drop k ∧
          ¬(s.contents[k]? = some s.cfg.delim ∧ v.readCount = s.cfg.pktSize ∧ v.fq.length = s.cfg.fqCap)) ∧
        exec .scPass s =
          .next (u.answer (.ok (.pass (if n = s.size then .drained else .held))) evs) ∧
        (n < s.size → s.contents[n]? = some s.cfg.delim ∧ u.readCount = s.cfg.pktSize ∧ u.fq.length = s.cfg.fqCap))

/-- 70_reset_and_hazards.md R283: with a ring smaller than a packet and an Idle scanner the gate never opens: SC.PASS
scans nothing, and once the ring is full the next push is fatal. -/
def Obligations.SmallRingNeverScans : Prop :=
  ∀ (s : State) (b : Byte), s.RingInv → s.cfgErr = false → s.fatal = false → s.readCount = 0 → s.cfg.rbCap < s.cfg.pktSize →
    exec .scPass s = .next (s.answer (.ok (.pass .gated)) []) ∧
    (s.size = s.cfg.rbCap →
      exec (.rxPush b) s = .next (State.answer { s with fatal := true } (.err .rxOverflow) []))

/-- 70_reset_and_hazards.md R282: after a pass that is not held the ring holds at most PKT_SIZE - 1 bytes, so with
RB_CAP ≥ RD_BUF + MSG_SIZE the next read of at most RD_BUF bytes is pushed without overflow. -/
def Obligations.ReaderLoopNeverOverflows : Prop :=
  ∀ (s t : State) (bs : Bytes), s.Inv → s.cfgErr = false → s.fatal = false → exec .scPass s = .next t →
    t.status ≠ some (.ok (.pass .held)) →
    t.size ≤ s.cfg.pktSize - 1 ∧
    (s.cfg.rdBuf + s.cfg.msgSize ≤ s.cfg.rbCap → bs.length ≤ s.cfg.rdBuf →
      ∃ u, trace (bs.map .rxPush) t = some (u, []) ∧ u.fatal = false ∧ u.contents = t.contents ++ bs)

/-- 43_frame_scanner.md R176: FR.CHK, case by case. It holds with nothing to do or no room; else
the oldest frame leaves FQ, and what COBS.DEC makes of it is appended to DQ when it has MSG_SIZE bytes, and reported otherwise. -/
def Obligations.FrChkDeliversOrReports : Prop :=
  ∀ (s : State), s.cfgErr = false →
    (s.fq = [] → exec .frChk s = .next (s.answer .hold [])) ∧
    (s.dq.length = s.cfg.dqCap → exec .frChk s = .next (s.answer .hold [])) ∧
    (∀ (e : Bytes) (rest : List Bytes), s.fq = e :: rest → s.dq.length ≠ s.cfg.dqCap →
      ∃ t, exec .frChk s = .next t ∧
        ((∃ err, exec (.cobsDec e s.cfg.delim) s = .next (s.answer (.err err) []) ∧
            t = State.answer { s with fq := rest } (.ok .unit) [.error err]) ∨
          (∃ out, exec (.cobsDec e s.cfg.delim) s = .next (s.answer (.ok (.seq out)) []) ∧
            out.length ≠ s.cfg.msgSize ∧
            t = State.answer { s with fq := rest } (.ok .unit) [.warn (.lengthMismatch out.length)]) ∨
          (∃ out, exec (.cobsDec e s.cfg.delim) s = .next (s.answer (.ok (.seq out)) []) ∧
            out.length = s.cfg.msgSize ∧
            t = State.answer { s with fq := rest, dq := s.dq ++ [out] } (.ok .unit) [.data out])))

/-- 43_frame_scanner.md R178: with PKT_SIZE ≤ 255, in a state of the invariant, FR.CHK never reports LengthMismatch. -/
def Obligations.NoLengthMismatchUpTo254 : Prop :=
  ∀ (s t : State) (n : Nat), s.Inv → s.cfg.pktSize ≤ 255 → exec .frChk s = .next t →
    Event.warn (.lengthMismatch n) ∉ t.events

/-- 43_frame_scanner.md R179: inbound end to end. A RawFrame of MSG_SIZE ≤ 253 bytes, sent as COBS.ENC of it, pushed byte
by byte into an empty ring with an Idle scanner, FQ empty and room in DQ, scanned by one SC.PASS and deframed by one FR.CHK,
comes out at the end of DQ, provided no code byte of its encoding is the delimiter. -/
def Obligations.InboundEndToEnd : Prop :=
  ∀ (s : State) (r : Bytes), s.Inv → s.cfgErr = false → s.fatal = false → s.size = 0 → s.readCount = 0 →
    s.fq = [] → s.dq.length < s.cfg.dqCap →
    r.length = s.cfg.msgSize → s.cfg.msgSize ≤ 253 → s.cfg.msgSize + 2 ≤ s.cfg.rbCap →
    s.cfg.delim ∉ (cobsEncode r s.cfg.delim).dropLast →
    ∃ t, trace ((cobsEncode r s.cfg.delim).map .rxPush ++ [.scPass, .frChk]) s =
        some (t, [.frame (cobsEncode r s.cfg.delim).dropLast, .data r]) ∧
      t.dq = s.dq ++ [r] ∧ t.fq = [] ∧ t.size = 0 ∧ t.readCount = 0 ∧ t.fatal = false

/-- 10_state.md R29, R30: stale storage is never exposed. From two states of the invariant that differ at most in bytes of
RBMEM outside the logical contents and in bytes of PB at readCount and above, every operation returns the same status and
events and leads to two such states again. So nothing rests on what unwritten storage reads as (log 6). -/
def Obligations.StaleStorageNeverObserved : Prop :=
  ∀ (i : Instr) (s s' t : State), s.Inv → s'.Inv → s.SameVisible s' → exec i s = .next t →
    ∃ t', exec i s' = .next t' ∧ t'.reply = t.reply ∧ t.SameVisible t'

/-! ## Field extractor and record decoder -/

/-- 44_field_extractor.md R190, R191, R192: FX.GET. A valid range of up to 4 bytes is the unsigned little-endian number
of its bytes, a wider one the bytes themselves; an invalid range is InvalidFieldRange. -/
def Obligations.FxGetReadsLittleEndian : Prop :=
  ∀ (s : State) (frame : Bytes) (startIdx endIdx : Nat), s.cfgErr = false →
    (startIdx ≤ endIdx → endIdx < frame.length → endIdx - startIdx + 1 ≤ 4 →
      ∃ v : Word32, exec (.fxGet frame startIdx endIdx) s = .next (s.answer (.ok (.value (.integer v))) []) ∧
        v.toNat = ((List.range (endIdx - startIdx + 1)).map fun k => (frame.getD (startIdx + k) 0).toNat * 256 ^ k).sum) ∧
    (startIdx ≤ endIdx → endIdx < frame.length → 4 < endIdx - startIdx + 1 →
      exec (.fxGet frame startIdx endIdx) s = .next (s.answer (.ok (.value (.bytes
        ((List.range (endIdx - startIdx + 1)).map fun k => frame.getD (startIdx + k) 0)))) [])) ∧
    (¬(startIdx ≤ endIdx ∧ endIdx < frame.length) →
      exec (.fxGet frame startIdx endIdx) s = .next (s.answer (.err (.invalidFieldRange none)) []))

/-- 44_field_extractor.md R195: FX.HASH is the trailing four bytes as a little-endian number, equal to FX.GET of that
range; fewer than four bytes are FrameTooShort. -/
def Obligations.FxHashReadsTrailer : Prop :=
  ∀ (s : State) (frame : Bytes), s.cfgErr = false →
    (frame.length < 4 → exec (.fxHash frame) s = .next (s.answer (.err (.frameTooShort frame.length)) [])) ∧
    (4 ≤ frame.length →
      ∃ w : Word32, exec (.fxHash frame) s = .next (s.answer (.ok (.word w)) []) ∧
        exec (.fxGet frame (frame.length - 4) (frame.length - 1)) s =
          .next (s.answer (.ok (.value (.integer w))) []) ∧
        w.toNat = (frame.getD (frame.length - 4) 0).toNat + 256 * (frame.getD (frame.length - 3) 0).toNat +
          65536 * (frame.getD (frame.length - 2) 0).toNat + 16777216 * (frame.getD (frame.length - 1) 0).toNat)

/-- 44_field_extractor.md R196, R197, R199, R200: REC.DEC on at least 5 bytes, with every named or zerofill range valid,
returns a record, whether or not the hashes agree. Its entries are: DesiredHash what FX.HASH returns, CalculatedHash what
CRC.MSUM returns (both replace a like-named field), any other non-empty name what FX.GET returns for the LAST descriptor
of that name, and nothing else. -/
def Obligations.RecDecBuildsRecord : Prop :=
  ∀ (s : State) (frame : Bytes) (schema : Schema), s.cfgErr = false → 5 ≤ frame.length →
    (∀ f ∈ schema, f.name ≠ [] ∨ f.zerofill = true → f.startIdx ≤ f.endIdx ∧ f.endIdx < frame.length) →
    ∃ (rec : Record) (desired calculated : Word32),
      exec (.recDec frame schema) s = .next (s.answer (.ok (.record rec)) []) ∧
      exec (.fxHash frame) s = .next (s.answer (.ok (.word desired)) []) ∧
      exec (.crcMsum frame schema) s = .next (s.answer (.ok (.word calculated)) []) ∧
      rec.get desiredHashName = some (.integer desired) ∧
      rec.get calculatedHashName = some (.integer calculated) ∧
      rec.get [] = none ∧
      ∀ n : Name, n ≠ [] → n ≠ desiredHashName → n ≠ calculatedHashName →
        match (schema.filter fun f => f.name = n).getLast? with
        | none => rec.get n = none
        | some f => ∃ v, exec (.fxGet frame f.startIdx f.endIdx) s = .next (s.answer (.ok (.value v)) []) ∧
            rec.get n = some v

/-- 44_field_extractor.md R198, R201: REC.DEC's errors. Fewer than 5 bytes are FrameTooShort, before any field; else the
first named descriptor with an invalid range is reported; only if every named one is valid, the first unnamed zerofill
descriptor with an invalid range. -/
def Obligations.RecDecErrors : Prop :=
  ∀ (s : State) (frame : Bytes) (schema : Schema), s.cfgErr = false →
    (frame.length < 5 → exec (.recDec frame schema) s = .next (s.answer (.err (.frameTooShort frame.length)) [])) ∧
    (∀ (pre post : Schema) (f : FieldDescriptor), 5 ≤ frame.length → schema = pre ++ f :: post →
      ¬(f.startIdx ≤ f.endIdx ∧ f.endIdx < frame.length) →
      (f.name ≠ [] ∧ (∀ g ∈ pre, g.name ≠ [] → g.startIdx ≤ g.endIdx ∧ g.endIdx < frame.length)) ∨
        (f.name = [] ∧ f.zerofill = true ∧
          (∀ g ∈ schema, g.name ≠ [] → g.startIdx ≤ g.endIdx ∧ g.endIdx < frame.length) ∧
          (∀ g ∈ pre, g.zerofill = true → g.startIdx ≤ g.endIdx ∧ g.endIdx < frame.length)) →
      exec (.recDec frame schema) s = .next (s.answer (.err (.invalidFieldRange (some (pre.length, f.name)))) []))

/-! ## Outbound -/

/-- 45_tx_build.md R211: TX.SEAL appends the checksum of bytes 1 and above as a little-endian trailer; of the sealed
frame, FX.HASH and CRC.MSUM with no fields return the same checksum; no field bytes are FrameTooShort. -/
def Obligations.TxSealAppendsChecksum : Prop :=
  ∀ (s : State) (fields : Bytes), s.cfgErr = false →
    (fields = [] → exec (.txSeal fields) s = .next (s.answer (.err (.frameTooShort 4)) [])) ∧
    (1 ≤ fields.length →
      ∃ (frame : Bytes) (c : Word32), c = crcSum (fields.drop 1) ∧
        frame = fields ++ [c.extractLsb' 0 8, c.extractLsb' 8 8, c.extractLsb' 16 8, c.extractLsb' 24 8] ∧
        exec (.txSeal fields) s = .next (s.answer (.ok (.seq frame)) []) ∧
        exec (.crcMsum (fields ++ [0, 0, 0, 0]) []) s = .next (s.answer (.ok (.word c)) []) ∧
        exec (.fxHash frame) s = .next (s.answer (.ok (.word c)) []) ∧
        exec (.crcMsum frame []) s = .next (s.answer (.ok (.word c)) []))

/-- 45_tx_build.md R212: TX.BUILD is COBS.ENC of what TX.SEAL returns, and COBS.DEC of it is the sealed frame; its length
is k + 6 for k + 4 ≤ 253, the terminator last; TX.SEAL's FrameTooShort is passed on. -/
def Obligations.TxBuildEncodesSealedFrame : Prop :=
  ∀ (s : State) (fields : Bytes) (d : Byte), s.cfgErr = false →
    (fields = [] → exec (.txBuild fields d) s = .next (s.answer (.err (.frameTooShort 4)) [])) ∧
    (1 ≤ fields.length →
      ∃ frame w : Bytes,
        exec (.txSeal fields) s = .next (s.answer (.ok (.seq frame)) []) ∧
        exec (.cobsEnc frame d) s = .next (s.answer (.ok (.seq w)) []) ∧
        exec (.txBuild fields d) s = .next (s.answer (.ok (.seq w)) []) ∧
        exec (.cobsDec w d) s = .next (s.answer (.ok (.seq frame)) []) ∧
        w.getLast? = some d ∧ (fields.length + 4 ≤ 253 → w.length = fields.length + 6))

/-- 44_field_extractor.md R202: the record of a frame built by TX.SEAL has equal hashes, under every schema whose named
and zerofill ranges are valid and whose zerofill ranges, where they lie in the checksum window, held zero bytes when the
frame was sealed; a schema with no zerofill range is one of these. -/
def Obligations.SealedFrameHashesAgree : Prop :=
  ∀ (s : State) (fields : Bytes) (schema : Schema), s.cfgErr = false → 1 ≤ fields.length →
    (∀ f ∈ schema, f.name ≠ [] ∨ f.zerofill = true → f.startIdx ≤ f.endIdx ∧ f.endIdx < fields.length + 4) →
    (∀ f ∈ schema, f.zerofill = true → ∀ k, f.startIdx ≤ k → k ≤ f.endIdx → 1 ≤ k → k < fields.length →
      fields[k]? = some 0x00) →
    ∃ (frame : Bytes) (rec : Record) (c : Word32),
      exec (.txSeal fields) s = .next (s.answer (.ok (.seq frame)) []) ∧
      exec (.recDec frame schema) s = .next (s.answer (.ok (.record rec)) []) ∧
      rec.get desiredHashName = some (.integer c) ∧ rec.get calculatedHashName = some (.integer c)
end

