-- ==== Sys2Proof/Laws/State.lean ====
section
/-! SUPPORT. Laws/State.lean: one lemma per field per update of the state, and the one lemma each for the shared ways
an operation returns. -/

namespace Sys2Proof.Machine

/-! ## Returning writes the reply and nothing else -/

@[simp] theorem State.answer_cfg (s : State) (st : Status) (evs : List Event) : (s.answer st evs).cfg = s.cfg := rfl
@[simp] theorem State.answer_rbmem (s : State) (st : Status) (evs : List Event) : (s.answer st evs).rbmem = s.rbmem := rfl
@[simp] theorem State.answer_head (s : State) (st : Status) (evs : List Event) : (s.answer st evs).head = s.head := rfl
@[simp] theorem State.answer_tail (s : State) (st : Status) (evs : List Event) : (s.answer st evs).tail = s.tail := rfl
@[simp] theorem State.answer_size (s : State) (st : Status) (evs : List Event) : (s.answer st evs).size = s.size := rfl
@[simp] theorem State.answer_pb (s : State) (st : Status) (evs : List Event) : (s.answer st evs).pb = s.pb := rfl
@[simp] theorem State.answer_readCount (s : State) (st : Status) (evs : List Event) : (s.answer st evs).readCount = s.readCount := rfl
@[simp] theorem State.answer_acc (s : State) (st : Status) (evs : List Event) : (s.answer st evs).acc = s.acc := rfl
@[simp] theorem State.answer_fatal (s : State) (st : Status) (evs : List Event) : (s.answer st evs).fatal = s.fatal := rfl
@[simp] theorem State.answer_cfgErr (s : State) (st : Status) (evs : List Event) : (s.answer st evs).cfgErr = s.cfgErr := rfl
@[simp] theorem State.answer_fq (s : State) (st : Status) (evs : List Event) : (s.answer st evs).fq = s.fq := rfl
@[simp] theorem State.answer_dq (s : State) (st : Status) (evs : List Event) : (s.answer st evs).dq = s.dq := rfl
@[simp] theorem State.answer_pending (s : State) (st : Status) (evs : List Event) : (s.answer st evs).pending = s.pending := rfl
@[simp] theorem State.answer_reply (s : State) (st : Status) (evs : List Event) :
    (s.answer st evs).reply = some { status := st, events := evs } := rfl

@[simp] theorem State.status_answer (s : State) (st : Status) (evs : List Event) :
    (s.answer st evs).status = some st := rfl

@[simp] theorem State.events_answer (s : State) (st : Status) (evs : List Event) :
    (s.answer st evs).events = evs := rfl

@[simp] theorem State.contents_answer (s : State) (st : Status) (evs : List Event) :
    (s.answer st evs).contents = s.contents := rfl

@[simp] theorem State.answer_answer (s : State) (st st' : Status) (evs evs' : List Event) :
    (s.answer st evs).answer st' evs' = s.answer st' evs' := rfl

/-! ## Dropping the oldest byte writes head and size -/

@[simp] theorem State.dropOldest_cfg (s : State) : s.dropOldest.cfg = s.cfg := rfl
@[simp] theorem State.dropOldest_rbmem (s : State) : s.dropOldest.rbmem = s.rbmem := rfl
@[simp] theorem State.dropOldest_tail (s : State) : s.dropOldest.tail = s.tail := rfl
@[simp] theorem State.dropOldest_pb (s : State) : s.dropOldest.pb = s.pb := rfl
@[simp] theorem State.dropOldest_readCount (s : State) : s.dropOldest.readCount = s.readCount := rfl
@[simp] theorem State.dropOldest_acc (s : State) : s.dropOldest.acc = s.acc := rfl
@[simp] theorem State.dropOldest_fatal (s : State) : s.dropOldest.fatal = s.fatal := rfl
@[simp] theorem State.dropOldest_cfgErr (s : State) : s.dropOldest.cfgErr = s.cfgErr := rfl
@[simp] theorem State.dropOldest_fq (s : State) : s.dropOldest.fq = s.fq := rfl
@[simp] theorem State.dropOldest_dq (s : State) : s.dropOldest.dq = s.dq := rfl
@[simp] theorem State.dropOldest_pending (s : State) : s.dropOldest.pending = s.pending := rfl
@[simp] theorem State.dropOldest_reply (s : State) : s.dropOldest.reply = s.reply := rfl
@[simp] theorem State.dropOldest_head (s : State) : s.dropOldest.head = (s.head + 1) % s.cfg.rbCap := rfl
@[simp] theorem State.dropOldest_size (s : State) : s.dropOldest.size = s.size - 1 := rfl

/-! ## Storing into the parse buffer writes PB -/

@[simp] theorem State.parseStore_cfg (s : State) (i : Nat) (b : Byte) : (s.parseStore i b).cfg = s.cfg := by
  unfold State.parseStore; split <;> rfl
@[simp] theorem State.parseStore_rbmem (s : State) (i : Nat) (b : Byte) : (s.parseStore i b).rbmem = s.rbmem := by
  unfold State.parseStore; split <;> rfl
@[simp] theorem State.parseStore_head (s : State) (i : Nat) (b : Byte) : (s.parseStore i b).head = s.head := by
  unfold State.parseStore; split <;> rfl
@[simp] theorem State.parseStore_tail (s : State) (i : Nat) (b : Byte) : (s.parseStore i b).tail = s.tail := by
  unfold State.parseStore; split <;> rfl
@[simp] theorem State.parseStore_size (s : State) (i : Nat) (b : Byte) : (s.parseStore i b).size = s.size := by
  unfold State.parseStore; split <;> rfl
@[simp] theorem State.parseStore_readCount (s : State) (i : Nat) (b : Byte) : (s.parseStore i b).readCount = s.readCount := by
  unfold State.parseStore; split <;> rfl
@[simp] theorem State.parseStore_acc (s : State) (i : Nat) (b : Byte) : (s.parseStore i b).acc = s.acc := by
  unfold State.parseStore; split <;> rfl
@[simp] theorem State.parseStore_fatal (s : State) (i : Nat) (b : Byte) : (s.parseStore i b).fatal = s.fatal := by
  unfold State.parseStore; split <;> rfl
@[simp] theorem State.parseStore_cfgErr (s : State) (i : Nat) (b : Byte) : (s.parseStore i b).cfgErr = s.cfgErr := by
  unfold State.parseStore; split <;> rfl
@[simp] theorem State.parseStore_fq (s : State) (i : Nat) (b : Byte) : (s.parseStore i b).fq = s.fq := by
  unfold State.parseStore; split <;> rfl
@[simp] theorem State.parseStore_dq (s : State) (i : Nat) (b : Byte) : (s.parseStore i b).dq = s.dq := by
  unfold State.parseStore; split <;> rfl
@[simp] theorem State.parseStore_pending (s : State) (i : Nat) (b : Byte) : (s.parseStore i b).pending = s.pending := by
  unfold State.parseStore; split <;> rfl
@[simp] theorem State.parseStore_reply (s : State) (i : Nat) (b : Byte) : (s.parseStore i b).reply = s.reply := by
  unfold State.parseStore; split <;> rfl

theorem State.parseStore_pb (s : State) (i : Nat) (b : Byte) :
    (s.parseStore i b).pb = if i < s.cfg.pktSize then s.pb.write i b else s.pb := by
  unfold State.parseStore; split <;> rfl

/-! ## How an operation ends: each shared ending said once -/

/-- Ending an operation always answers, and writes the reply only. -/
@[simp] theorem State.finish_eq_next (s t : State) (st : Status) (evs : List Event) :
    s.finish st evs = .next t ↔ s.answer st evs = t := by
  simp [State.finish]

@[simp] theorem State.ok_eq_next (s t : State) (v : Result) : s.ok v = .next t ↔ s.answer (.ok v) [] = t := by
  simp [State.ok]

@[simp] theorem State.raise_eq_next (s t : State) (e : Err) : s.raise e = .next t ↔ s.answer (.err e) [] = t := by
  simp [State.raise]

@[simp] theorem State.hold_eq_next (s t : State) : s.hold = .next t ↔ s.answer .hold [] = t := by
  simp [State.hold]

/-- Everything the CFGERR test can do. -/
theorem State.whenValid_eq_next (s t : State) (body : Host.Outcome State Fault Refusal) :
    s.whenValid body = .next t ↔
      (s.cfgErr = true ∧ s.answer (.err .configInvalid) [] = t) ∨ (s.cfgErr = false ∧ body = .next t) := by
  unfold State.whenValid
  cases s.cfgErr <;> simp

/-- Everything the FATAL test can do. -/
theorem State.whenLive_eq_next (s t : State) (body : Host.Outcome State Fault Refusal) :
    s.whenLive body = .next t ↔
      (s.fatal = true ∧ s.answer (.err .disconnected) [] = t) ∨ (s.fatal = false ∧ body = .next t) := by
  unfold State.whenLive
  cases s.fatal <;> simp

/-- A pure operation ends with its value or with its error, and writes the reply only. -/
theorem State.okOrRaise_eq_next (s t : State) (r : Except Err Result) :
    s.okOrRaise r = .next t ↔
      (∃ v, r = .ok v ∧ s.answer (.ok v) [] = t) ∨ (∃ e, r = .error e ∧ s.answer (.err e) [] = t) := by
  cases r <;> simp [State.okOrRaise]

/-- Going on after a computation that may fault answers only where the computation has a value. -/
theorem orFault_eq_next {α : Type} (x : Except Fault α) (k : α → Host.Outcome State Fault Refusal) (t : State) :
    orFault x k = .next t ↔ ∃ a, x = .ok a ∧ k a = .next t := by
  cases x <;> simp [orFault]

end Sys2Proof.Machine
end

