-- ==== Sys2Proof/Laws/Checksum.lean ====
section
/-! SUPPORT. Laws/Checksum.lean: the checksum step is linear and one-to-one, and what masking a copy of the data gives
(42_checksum.md). -/

namespace Sys2Proof.Machine

/-! ## The register -/

/-- A step of the register is linear over exclusive-or (42_checksum.md R142). -/
theorem crcShift_xor (a b : Word32) : crcShift (a ^^^ b) = crcShift a ^^^ crcShift b := by
  unfold crcShift
  rw [BitVec.getLsbD_xor, BitVec.ushiftRight_xor_distrib]
  cases a.getLsbD 0 <;> cases b.getLsbD 0 <;> simp only [Bool.false_eq_true, if_false, if_true, bne_self_eq_false,
    Bool.bne_true, Bool.bne_false, Bool.not_false]
  · rw [BitVec.xor_assoc]
  · ac_rfl
  · generalize a >>> 1 = x, b >>> 1 = y, (0xEDB88320 : Word32) = p
    rw [BitVec.xor_assoc, ← BitVec.xor_assoc p, BitVec.xor_comm p y, BitVec.xor_assoc, BitVec.xor_self, BitVec.xor_zero]

/-- A step sends only 0 to 0: the bit shifted out comes back in at the top. -/
theorem crcShift_eq_zero {a : Word32} (h : crcShift a = 0) : a = 0 := by
  have h31 := congrArg (fun x => x.getLsbD 31) h
  unfold crcShift at h h31
  cases h0 : a.getLsbD 0
  · simp only [h0, Bool.false_eq_true, if_false] at h
    refine BitVec.eq_of_getLsbD_eq fun k hk => ?_
    cases k with
    | zero => simpa using h0
    | succ k =>
      have := congrArg (fun x => x.getLsbD k) h
      simpa [Nat.add_comm] using this
  · simp [h0] at h31

theorem crcShift_injective {a b : Word32} (h : crcShift a = crcShift b) : a = b := by
  have : crcShift (a ^^^ b) = 0 := by rw [crcShift_xor, h]; simp
  simpa using crcShift_eq_zero this

theorem crcShifts_xor (k : Nat) (a b : Word32) : crcShifts k (a ^^^ b) = crcShifts k a ^^^ crcShifts k b := by
  induction k generalizing a b with
  | zero => rfl
  | succ k ih => simp only [crcShifts, crcShift_xor, ih]

theorem crcShifts_injective (k : Nat) {a b : Word32} (h : crcShifts k a = crcShifts k b) : a = b := by
  induction k generalizing a b with
  | zero => exact h
  | succ k ih => exact crcShift_injective (ih h)

/-- Eight steps on a word without its low byte only shift it. -/
theorem crcShifts_of_low_zero (k : Nat) (a : Word32) (h : ∀ j < k, a.getLsbD j = false) : crcShifts k a = a >>> k := by
  induction k generalizing a with
  | zero => simp [crcShifts]
  | succ k ih =>
    have h0 := h 0 (by omega)
    simp only [crcShifts, crcShift, h0, Bool.false_eq_true, if_false]
    rw [ih _ fun j hj => by simpa [Nat.add_comm] using h (j + 1) (by omega), ← BitVec.shiftRight_add, Nat.add_comm]

/-- Different registers stay different through the same byte. -/
theorem crcByte_left_injective {a a' : Word32} {b : Byte} (h : crcByte a b = crcByte a' b) : a = a' := by
  have := crcShifts_injective 8 h
  simpa using this

/-- Different bytes make one register different. -/
theorem crcByte_right_injective {a : Word32} {b b' : Byte} (h : crcByte a b = crcByte a b') : b = b' := by
  have h1 := crcShifts_injective 8 h
  have h2 : b.setWidth 32 = b'.setWidth 32 := by simpa using h1
  have h3 := congrArg BitVec.toNat h2
  have := b.isLt
  have := b'.isLt
  exact BitVec.eq_of_toNat_eq (by simp at h3; omega)

theorem foldl_crcByte_injective (l : Bytes) {a a' : Word32} (h : l.foldl crcByte a = l.foldl crcByte a') : a = a' := by
  induction l generalizing a a' with
  | nil => exact h
  | cons b l ih => exact crcByte_left_injective (ih h)

/-! ## Masking -/

/-- Index `k` lies in a zerofill range of the schema. -/
def maskedAt (fields : Schema) (k : Nat) : Bool :=
  fields.any fun f => f.zerofill && decide (f.startIdx ≤ k) && decide (k ≤ f.endIdx)

@[simp] theorem length_zeroRange (m : Bytes) (a b : Nat) : (zeroRange m a b).length = m.length := by simp [zeroRange]

theorem getElem?_zeroRange (m : Bytes) (a b k : Nat) :
    (zeroRange m a b)[k]? = if a ≤ k ∧ k ≤ b then m[k]?.map fun _ => 0 else m[k]? := by
  simp only [zeroRange, List.getElem?_mapIdx]
  split <;> cases m[k]? <;> simp [*]

/-- Masking succeeds exactly when every zerofill range is valid, and then only the bytes in those ranges are zeroed
(42_checksum.md R146). -/
theorem maskFields_eq_ok (n j : Nat) (fields : Schema) (m m' : Bytes) :
    maskFields n j fields m = .ok m' ↔
      (∀ f ∈ fields, f.zerofill = true → f.startIdx ≤ f.endIdx ∧ f.endIdx < n) ∧
        m.mapIdx (fun k x => if maskedAt fields k then 0 else x) = m' := by
  induction fields generalizing j m with
  | nil => simp [maskFields, maskedAt, List.mapIdx_eq_zipIdx_map]
  | cons f fs ih =>
    unfold maskFields
    cases hz : f.zerofill
    · simp [hz, ih, maskedAt]
    · by_cases hv : f.startIdx ≤ f.endIdx ∧ f.endIdx < n
      · simp only [if_true, rangeValid, hv.1, hv.2, decide_true, Bool.and_self, ih]
        refine and_congr (by simp [hv]) ?_
        have : (zeroRange m f.startIdx f.endIdx).mapIdx (fun k x => if maskedAt fs k then 0 else x) =
            m.mapIdx fun k x => if maskedAt (f :: fs) k then 0 else x := by
          refine List.ext_getElem? fun k => ?_
          simp only [List.getElem?_mapIdx, getElem?_zeroRange, maskedAt, List.any_cons, hz, Bool.true_and]
          cases m[k]? <;> by_cases hk : f.startIdx ≤ k ∧ k ≤ f.endIdx <;> simp [hk]
        rw [this]
      · have : rangeValid f.startIdx f.endIdx n = false := by simpa [rangeValid] using hv
        simp [this, hz, hv]

/-- The first invalid zerofill descriptor is the one reported (42_checksum.md R147). -/
theorem maskFields_eq_error (n j : Nat) (pre post : Schema) (f : FieldDescriptor) (m : Bytes)
    (hp : ∀ g ∈ pre, g.zerofill = true → g.startIdx ≤ g.endIdx ∧ g.endIdx < n) (hz : f.zerofill = true)
    (hf : ¬(f.startIdx ≤ f.endIdx ∧ f.endIdx < n)) :
    maskFields n j (pre ++ f :: post) m = .error (.invalidFieldRange (some (j + pre.length, f.name))) := by
  induction pre generalizing j m with
  | nil =>
    have : rangeValid f.startIdx f.endIdx n = false := by simpa [rangeValid] using hf
    simp [maskFields, hz, this]
  | cons g pre ih =>
    have ih' := fun m => ih (j + 1) m fun g' hg' => hp g' (List.mem_cons_of_mem _ hg')
    simp only [List.cons_append, maskFields, ih', List.length_cons, Nat.add_assoc, Nat.add_comm 1]
    cases hg : g.zerofill
    · simp
    · have := hp g List.mem_cons_self hg
      simp [rangeValid, this]

end Sys2Proof.Machine
end

