-- ==== Sys2Proof/Laws/Codec.lean ====
section
/-! SUPPORT. Laws/Codec.lean: blocks (30_encoding.md R71): what an encoder writes block by block, and what a decoder
makes of one block. -/

namespace Sys2Proof.Machine

@[simp] theorem length_closeBlock (lits : Bytes) : (closeBlock lits).length = lits.length + 1 := rfl

/-- A code byte is the number of literals plus one, at most 255 (30_encoding.md R71, R73). -/
theorem toNat_codeByte (lits : Bytes) (h : lits.length ≤ 254) : (codeByte lits).toNat = lits.length + 1 := by
  simp [codeByte]; omega

theorem codeByte_ne_zero (lits : Bytes) (h : lits.length ≤ 254) : codeByte lits ≠ 0 := fun e => by
  have := toNat_codeByte lits h
  rw [e] at this
  exact absurd this (by simp)

/-- The encoder's loop always writes a last block (41_cobs_codec.md R121). -/
theorem encodeBlocks_ne_nil (d : Byte) (lits p : Bytes) : encodeBlocks d lits p ≠ [] := by
  induction p generalizing lits with
  | nil => simp [encodeBlocks, closeBlock]
  | cons b p ih => unfold encodeBlocks; split <;> (try split) <;> simp [closeBlock, ih]

/-- Everything the decoder can do with one whole block (41_cobs_codec.md R125): its literals come out, followed by the
delimiter when the block has fewer than 254 of them and is not the last. -/
theorem decodeBlocks_closeBlock (d : Byte) (k i : Nat) (lits rest : Bytes) (h : lits.length ≤ 254) :
    decodeBlocks d (k + 1) i (closeBlock lits ++ rest) =
      (decodeBlocks d k (i + (lits.length + 1)) rest).map fun out =>
        lits ++ (if lits.length < 254 ∧ rest ≠ [] then [d] else []) ++ out := by
  simp only [closeBlock, List.cons_append, decodeBlocks, if_neg (codeByte_ne_zero lits h), toNat_codeByte lits h,
    Nat.add_sub_cancel, List.take_left, List.drop_left, List.length_cons, List.length_append]
  rw [if_neg (by omega)]
  have : lits.length + 1 < 255 ↔ lits.length < 254 := by omega
  simp only [this]
  cases decodeBlocks d k (i + (lits.length + 1)) rest <;> rfl

/-- The decoder undoes the encoder's loop, from any index, given enough rounds. -/
theorem decodeBlocks_encodeBlocks (d : Byte) (p lits : Bytes) (k i : Nat) (h : lits.length ≤ 253)
    (hk : (encodeBlocks d lits p).length ≤ k) : decodeBlocks d k i (encodeBlocks d lits p) = .ok (lits ++ p) := by
  induction p generalizing lits k i with
  | nil =>
    rw [encodeBlocks, ← List.append_nil (closeBlock lits)] at *
    obtain ⟨k, rfl⟩ : ∃ k', k = k' + 1 := ⟨k - 1, by simp at hk; omega⟩
    rw [decodeBlocks_closeBlock _ _ _ _ _ (by omega)]
    cases k <;> simp [decodeBlocks, Except.map]
  | cons b p ih =>
    have block : ∀ l : Bytes, l.length ≤ 254 → (closeBlock l ++ encodeBlocks d [] p).length ≤ k →
        decodeBlocks d k i (closeBlock l ++ encodeBlocks d [] p) =
          .ok (l ++ (if l.length < 254 then [d] else []) ++ p) := by
      intro l hl hk
      obtain ⟨k, rfl⟩ : ∃ k', k = k' + 1 := ⟨k - 1, by simp at hk; omega⟩
      rw [decodeBlocks_closeBlock _ _ _ _ _ hl, ih [] k _ (by simp) (by simp at hk; omega)]
      simp [Except.map, encodeBlocks_ne_nil]
    unfold encodeBlocks at hk ⊢
    split at hk
    · next e => rw [if_pos e, block _ (by omega) hk, if_pos (by omega), e]; simp
    · next e =>
      rw [if_neg e]
      split at hk
      · next f => rw [if_pos f, block _ (by simp; omega) hk, if_neg (by simp; omega)]; simp
      · next f => rw [if_neg f, ih _ _ _ (by simp; omega) hk]; simp

/-- Dropping the terminator takes exactly the byte the encoder appended (41_cobs_codec.md R126). -/
@[simp] theorem dropTerminator_append (x : Bytes) (d : Byte) : dropTerminator (x ++ [d]) d = x := by
  simp [dropTerminator]

/-- An encoding is its blocks and the terminator (30_encoding.md R70). -/
theorem cobsEncode_eq (p : Bytes) (d : Byte) (h : p ≠ []) : cobsEncode p d = encodeBlocks d [] p ++ [d] := by
  cases p with
  | nil => exact absurd rfl h
  | cons b p => rfl

/-- What the decoder makes of a non-empty list of blocks is shorter than the list, by one byte exactly where no block but
the last can be full (30_encoding.md R75). -/
theorem length_decodeBlocks (d : Byte) (k i : Nat) (l out : Bytes) (hl : l ≠ []) (hk : l.length ≤ k)
    (h : decodeBlocks d k i l = .ok out) : out.length + 1 ≤ l.length ∧ (l.length ≤ 255 → out.length + 1 = l.length) := by
  induction k generalizing i l out with
  | zero => simp at hk; exact absurd hk hl
  | succ k ih =>
    cases l with
    | nil => exact absurd rfl hl
    | cons L rest =>
      unfold decodeBlocks at h
      split at h
      · cases h
      · next h0 =>
        have hL : L.toNat ≠ 0 := fun e => h0 (BitVec.eq_of_toNat_eq (by simpa using e))
        split at h
        · cases h
        · next hn =>
          simp only [List.length_cons] at hn hk ⊢
          dsimp only at h
          split at h
          · cases h
          · next o ho =>
            cases h
            by_cases ha : rest.drop (L.toNat - 1) = []
            · have hl := List.drop_eq_nil_iff.1 ha
              rw [ha] at ho
              have : o = [] := by cases k <;> simpa [decodeBlocks, eq_comm] using ho
              simp [this, ha]
              omega
            · have hd : (rest.drop (L.toNat - 1)).length = rest.length - (L.toNat - 1) := by simp
              have hr : L.toNat - 1 < rest.length := by simpa using ha
              obtain ⟨h1, h2⟩ := ih _ _ _ ha (by omega) ho
              rw [hd] at h1 h2
              have := L.isLt
              by_cases hb : L.toNat < 255 <;> simp [ha, hb] <;> omega

end Sys2Proof.Machine
end

