-- ==== Sys2Proof/Laws/Memory.lean ====
section
/-! SUPPORT. Laws/Memory.lean: a read after a write to the same index gives the byte written, a write leaves every other
index alone, and every write keeps the canonical form and the array's bound. -/

namespace Sys2Proof.Machine

@[simp] theorem Memory.read_nil (a : Nat) : Memory.read [] a = Memory.fillByte := rfl

/-- In a canonical list that starts at `lo`, an index below `lo` is not listed. -/
theorem Memory.read_of_lt {m : Memory} {lo a : Nat} (h : Memory.wfFrom lo m = true) (ha : a < lo) :
    m.read a = Memory.fillByte := by
  induction m generalizing lo with
  | nil => rfl
  | cons c m ih =>
    obtain ⟨k, v⟩ := c
    simp only [Memory.wfFrom, Bool.and_eq_true, decide_eq_true_eq] at h
    obtain ⟨⟨hk, _⟩, hm⟩ := h
    have hne : k ≠ a := by omega
    simpa [Memory.read, hne] using ih hm (by omega)

theorem Memory.wfFrom_mono {m : Memory} {lo lo' : Nat} (h : Memory.wfFrom lo m = true) (hl : lo' ≤ lo) :
    Memory.wfFrom lo' m = true := by
  cases m with
  | nil => rfl
  | cons c m =>
    simp only [Memory.wfFrom, Bool.and_eq_true, decide_eq_true_eq] at h ⊢
    exact ⟨⟨by omega, h.1.2⟩, h.2⟩

theorem Memory.wfFrom_cons {m : Memory} {lo a : Nat} (v : Byte) (ha : lo ≤ a)
    (h : Memory.wfFrom (a + 1) m = true) : Memory.wfFrom lo (Memory.cons a v m) = true := by
  unfold Memory.cons
  split
  · exact Memory.wfFrom_mono h (by omega)
  · simp [Memory.wfFrom, *]

theorem Memory.read_cons_same {m : Memory} {a : Nat} (v : Byte) (h : Memory.wfFrom (a + 1) m = true) :
    (Memory.cons a v m).read a = v := by
  unfold Memory.cons
  split
  · next hv => rw [Memory.read_of_lt h (by omega), hv]
  · simp [Memory.read]

theorem Memory.read_cons_ne {m : Memory} {a i : Nat} (v : Byte) (h : i ≠ a) :
    (Memory.cons a v m).read i = m.read i := by
  unfold Memory.cons
  split
  · rfl
  · simp [Memory.read, Ne.symm h]

theorem Memory.wfFrom_write {m : Memory} {lo a : Nat} (v : Byte) (h : Memory.wfFrom lo m = true) (ha : lo ≤ a) :
    Memory.wfFrom lo (m.write a v) = true := by
  induction m generalizing lo with
  | nil => exact Memory.wfFrom_cons v ha rfl
  | cons c m ih =>
    obtain ⟨k, w⟩ := c
    have h' := h
    simp only [Memory.wfFrom, Bool.and_eq_true, decide_eq_true_eq] at h'
    obtain ⟨⟨hk, hw⟩, hm⟩ := h'
    unfold Memory.write
    split
    · exact Memory.wfFrom_cons v ha (by simp [Memory.wfFrom, hw, hm]; omega)
    · split
      · next e => subst e; exact Memory.wfFrom_cons v ha hm
      · simp only [Memory.wfFrom, Bool.and_eq_true, decide_eq_true_eq]
        exact ⟨⟨hk, hw⟩, ih hm (by omega)⟩

/-- A write keeps the canonical form. -/
theorem Memory.wf_write {m : Memory} (a : Nat) (v : Byte) (h : m.wf = true) : (m.write a v).wf = true :=
  Memory.wfFrom_write v h (Nat.zero_le a)

/-- A read after a write to the same index gives the byte written. -/
theorem Memory.read_write_same {m : Memory} (a : Nat) (v : Byte) (h : m.wf = true) : (m.write a v).read a = v := by
  suffices ∀ lo, Memory.wfFrom lo m = true → (m.write a v).read a = v from this 0 h
  intro lo hlo
  induction m generalizing lo with
  | nil => exact Memory.read_cons_same v rfl
  | cons c m ih =>
    obtain ⟨k, w⟩ := c
    have h' := hlo
    simp only [Memory.wfFrom, Bool.and_eq_true, decide_eq_true_eq] at h'
    obtain ⟨⟨_, hw⟩, hm⟩ := h'
    unfold Memory.write
    split
    · exact Memory.read_cons_same v (by simp [Memory.wfFrom, hw, hm]; omega)
    · split
      · next e => subst e; exact Memory.read_cons_same v hm
      · next e => simpa [Memory.read, Ne.symm e] using ih (Memory.wfFrom_mono hm (Nat.zero_le _)) _ hm

/-- A write leaves every other index alone. -/
theorem Memory.read_write_ne (m : Memory) {a i : Nat} (v : Byte) (h : i ≠ a) : (m.write a v).read i = m.read i := by
  induction m with
  | nil => exact Memory.read_cons_ne v h
  | cons c m ih =>
    obtain ⟨k, w⟩ := c
    unfold Memory.write
    split
    · exact Memory.read_cons_ne v h
    · split
      · next e => subst e; rw [Memory.read_cons_ne v h]; simp [Memory.read, Ne.symm h]
      · simp only [Memory.read]; rw [ih]

theorem Memory.below_cons {m : Memory} {n a : Nat} (v : Byte) (h : m.below n = true) (ha : a < n) :
    (Memory.cons a v m).below n = true := by
  unfold Memory.cons
  split
  · exact h
  · simpa [Memory.below, ha] using h

/-- A write inside the array keeps every listed index inside it. -/
theorem Memory.below_write {m : Memory} {n a : Nat} (v : Byte) (h : m.below n = true) (ha : a < n) :
    (m.write a v).below n = true := by
  induction m with
  | nil => exact Memory.below_cons v rfl ha
  | cons c m ih =>
    obtain ⟨k, w⟩ := c
    have h' : k < n ∧ Memory.below m n = true := by simpa [Memory.below] using h
    unfold Memory.write
    split
    · exact Memory.below_cons v h ha
    · split
      · exact Memory.below_cons v h'.2 ha
      · simpa [Memory.below, h'.1] using ih h'.2

/-- Canonical arrays that read alike are equal, so equal arrays are equal data. -/
theorem Memory.ext_of_read {m m' : Memory} {lo : Nat} (h : Memory.wfFrom lo m = true) (h' : Memory.wfFrom lo m' = true)
    (e : ∀ a, m.read a = m'.read a) : m = m' := by
  induction m generalizing m' lo with
  | nil =>
    cases m' with
    | nil => rfl
    | cons c m' =>
      obtain ⟨k, v⟩ := c
      simp only [Memory.wfFrom, Bool.and_eq_true, decide_eq_true_eq] at h'
      exact absurd (by simpa [Memory.read] using (e k).symm) h'.1.2
  | cons c m ih =>
    obtain ⟨k, v⟩ := c
    have g := h
    simp only [Memory.wfFrom, Bool.and_eq_true, decide_eq_true_eq] at h
    cases m' with
    | nil => exact absurd (by simpa [Memory.read] using e k) h.1.2
    | cons c' m' =>
      obtain ⟨k', v'⟩ := c'
      have g' := h'
      simp only [Memory.wfFrom, Bool.and_eq_true, decide_eq_true_eq] at h'
      have hk : k = k' := by
        rcases Nat.lt_trichotomy k k' with lt | eq | gt
        · have := e k
          rw [Memory.read_of_lt (m := (k', v') :: m') (lo := k')
            (by simp only [Memory.wfFrom, Bool.and_eq_true, decide_eq_true_eq]; exact ⟨⟨le_refl _, h'.1.2⟩, h'.2⟩) lt] at this
          exact absurd (by simpa [Memory.read] using this) h.1.2
        · exact eq
        · have := e k'
          rw [Memory.read_of_lt (m := (k, v) :: m) (lo := k)
            (by simp only [Memory.wfFrom, Bool.and_eq_true, decide_eq_true_eq]; exact ⟨⟨le_refl _, h.1.2⟩, h.2⟩) gt] at this
          exact absurd (by simpa [Memory.read] using this.symm) h'.1.2
      subst hk
      have hv : v = v' := by simpa [Memory.read] using e k
      subst hv
      have hm : m = m' := by
        refine ih h.2 h'.2 fun a => ?_
        rcases Nat.lt_or_ge k a with lt | ge
        · have hne : k ≠ a := by omega
          simpa [Memory.read, hne] using e a
        · rw [Memory.read_of_lt h.2 (by omega), Memory.read_of_lt h'.2 (by omega)]
      rw [hm]

end Sys2Proof.Machine
end

