-- ==== Sys2Proof/Laws/Ring.lean ====
section
/-! SUPPORT. Laws/Ring.lean: what the ring operations do to the registers and to the logical contents
(10_state.md R26, R28). -/

namespace Sys2Proof.Machine

@[simp] theorem State.length_contents (s : State) : s.contents.length = s.size := by simp [State.contents]

theorem State.getElem_contents (s : State) (k : Nat) (h : k < s.contents.length) :
    s.contents[k] = s.rbmem.read ((s.head + k) % s.cfg.rbCap) := by
  simp [State.contents]

theorem State.contents_eq_nil (s : State) : s.contents = [] ↔ s.size = 0 := by
  rw [← List.length_eq_zero_iff, State.length_contents]

/-- Everything a load of RBMEM can do. -/
theorem State.ringLoad_eq_ok (s : State) (i : Nat) (v : Byte) :
    s.ringLoad i = .ok v ↔ i < s.cfg.rbCap ∧ s.rbmem.read i = v := by
  unfold State.ringLoad; split <;> simp [*]

/-- Everything an enqueue can do. -/
theorem State.enqueue_eq_ok (s t : State) (b : Byte) :
    s.enqueue b = .ok t ↔
      s.tail < s.cfg.rbCap ∧
        { s with rbmem := s.rbmem.write s.tail b, tail := (s.tail + 1) % s.cfg.rbCap, size := s.size + 1 } = t := by
  unfold State.enqueue State.nextIndex; split <;> simp [*]

/-- Everything a snapshot can do. -/
theorem State.snapshot_eq_ok (s : State) (out : Bytes) :
    s.snapshot = .ok out ↔ (s.size = 0 ∨ 0 < s.cfg.rbCap) ∧ s.contents = out := by
  unfold State.snapshot
  split <;> simp [*]

/-- Storing a byte at `tail` appends it to the contents (10_state.md R28). -/
theorem State.contents_store (s : State) (b : Byte) (hw : s.rbmem.wf = true)
    (ht : s.tail = (s.head + s.size) % s.cfg.rbCap) (hs : s.size < s.cfg.rbCap) :
    State.contents { s with rbmem := s.rbmem.write s.tail b, tail := (s.tail + 1) % s.cfg.rbCap, size := s.size + 1 }
      = s.contents ++ [b] := by
  unfold State.contents
  simp only [List.range_succ, List.map_append, List.map_cons, List.map_nil]
  congr 1
  · refine List.map_congr_left fun k hk => Memory.read_write_ne _ _ ?_
    have hk := List.mem_range.1 hk
    rw [ht]
    intro e
    have h1 := Nat.div_add_mod (s.head + k) s.cfg.rbCap
    have h2 := Nat.div_add_mod (s.head + s.size) s.cfg.rbCap
    rw [e] at h1
    rcases Nat.lt_trichotomy ((s.head + k) / s.cfg.rbCap) ((s.head + s.size) / s.cfg.rbCap) with h | h | h
    · have := Nat.mul_le_mul_left s.cfg.rbCap (Nat.succ_le_of_lt h)
      rw [Nat.mul_succ] at this
      omega
    · rw [h] at h1; omega
    · have := Nat.mul_le_mul_left s.cfg.rbCap (Nat.succ_le_of_lt h)
      rw [Nat.mul_succ] at this
      omega
  · rw [← ht, Memory.read_write_same _ _ hw]

/-- The oldest byte stands in front of the contents that dropping it leaves (10_state.md R28). -/
theorem State.contents_dropOldest (s : State) (hs : 0 < s.size) (hh : s.head < s.cfg.rbCap) :
    s.contents = s.rbmem.read s.head :: s.dropOldest.contents := by
  unfold State.contents
  obtain ⟨n, hn⟩ : ∃ n, s.size = n + 1 := ⟨s.size - 1, by omega⟩
  simp only [State.dropOldest_size, State.dropOldest_head, State.dropOldest_rbmem, State.dropOldest_cfg, hn,
    Nat.add_sub_cancel, List.range_succ_eq_map, List.map_cons, Nat.add_zero, Nat.mod_eq_of_lt hh, List.map_map]
  congr 1
  refine List.map_congr_left fun k _ => ?_
  simp only [Function.comp_apply, Nat.mod_add_mod]
  congr 2
  omega

/-- Dropping the oldest byte keeps the ring's invariant (10_state.md R26). -/
theorem State.ringInv_dropOldest (s : State) (h : s.RingInv) (hs : 0 < s.size) (hh : s.head < s.cfg.rbCap) :
    s.dropOldest.RingInv := by
  obtain ⟨h1, h2, h3⟩ := h
  refine ⟨by simp; omega, ?_, fun hc => ⟨?_, ?_⟩⟩
  · simp only [State.dropOldest_tail, State.dropOldest_head, State.dropOldest_size, State.dropOldest_cfg,
      Nat.mod_add_mod, h2]
    congr 1
    omega
  · exact Nat.mod_lt _ (by omega)
  · exact (h3 hc).2

/-- Storing a byte keeps the ring's invariant (10_state.md R26). -/
theorem State.ringInv_store (s : State) (b : Byte) (h : s.RingInv) (hs : s.size < s.cfg.rbCap) :
    State.RingInv { s with rbmem := s.rbmem.write s.tail b, tail := (s.tail + 1) % s.cfg.rbCap, size := s.size + 1 } := by
  obtain ⟨h1, h2, h3⟩ := h
  refine ⟨hs, ?_, fun hc => ⟨(h3 hc).1, ?_⟩⟩
  · simp only [h2, Nat.mod_add_mod, Nat.add_assoc]
  · exact Nat.mod_lt _ (by omega)

/-- What the invariant gives of a live ring that can take a byte. -/
theorem State.enqueue_of_inv (s : State) (b : Byte) (h : s.RingInv) (hc : s.cfgErr = false) :
    s.enqueue b = .ok { s with rbmem := s.rbmem.write s.tail b, tail := (s.tail + 1) % s.cfg.rbCap, size := s.size + 1 } :=
  (State.enqueue_eq_ok _ _ _).2 ⟨(h.2.2 hc).2, rfl⟩

/-- What the invariant gives of a load at `head`. -/
theorem State.ringLoad_of_inv (s : State) (h : s.RingInv) (hc : s.cfgErr = false) :
    s.ringLoad s.head = .ok (s.rbmem.read s.head) :=
  (State.ringLoad_eq_ok _ _ _).2 ⟨(h.2.2 hc).1, rfl⟩

end Sys2Proof.Machine
end

