-- ==== Sys2Proof/Laws/Scanner.lean ====
section
/-! SUPPORT. Laws/Scanner.lean: what one byte can do to the scanner, said once, and what follows for a pass. -/

namespace Sys2Proof.Machine

/-- The transition table of 43_frame_scanner.md R168, less Hold: everything `scanByte` can do while
`readCount ≤ PKT_SIZE`. -/
theorem State.scanByte_cases (s : State) (b : Byte) (h : s.readCount ≤ s.cfg.pktSize) :
    (b = s.cfg.delim ∧ s.readCount = s.cfg.pktSize ∧
      s.scanByte b = ({ s with fq := s.fq ++ [s.parseFrame], readCount := 0 }, [.frame s.parseFrame])) ∨
    (b = s.cfg.delim ∧ s.readCount < s.cfg.pktSize ∧
      s.scanByte b = ({ s with readCount := 0 }, [.warn (.delimiterMismatch s.readCount)])) ∨
    (b ≠ s.cfg.delim ∧ s.readCount = s.cfg.pktSize ∧
      s.scanByte b = ({ s with readCount := 0 }, [.warn (.delimiterMissing b)])) ∨
    (b ≠ s.cfg.delim ∧ s.readCount < s.cfg.pktSize ∧
      s.scanByte b = ({ s with pb := s.pb.write s.readCount b, readCount := s.readCount + 1 }, [])) := by
  by_cases hb : b = s.cfg.delim <;> rcases Nat.lt_or_eq_of_le h with hr | hr
  · refine Or.inr (Or.inl ⟨hb, hr, ?_⟩)
    simp [State.scanByte, State.scanCase, State.defensiveCheck, State.parseFull, hb, Nat.ne_of_lt hr]
  · refine Or.inl ⟨hb, hr, ?_⟩
    simp [State.scanByte, State.scanCase, State.defensiveCheck, State.parseFull, hb, hr]
  · refine Or.inr (Or.inr (Or.inr ⟨hb, hr, ?_⟩))
    simp [State.scanByte, State.scanCase, State.defensiveCheck, State.parseFull, State.parseStore, hb, Nat.ne_of_lt hr, hr,
      Nat.not_lt.2 (Nat.succ_le_of_lt hr)]
  · refine Or.inr (Or.inr (Or.inl ⟨hb, hr, ?_⟩))
    simp [State.scanByte, State.scanCase, State.defensiveCheck, State.parseFull, hb, hr]

/-- In every state, one byte writes at most PB, readCount and FQ. -/
theorem State.scanByte_frame (s : State) (b : Byte) :
    (s.scanByte b).1 =
      { s with pb := (s.scanByte b).1.pb, readCount := (s.scanByte b).1.readCount, fq := (s.scanByte b).1.fq } := by
  simp only [State.scanByte, State.scanCase, State.defensiveCheck, State.parseStore]
  split <;> split <;> (try split) <;> (try split) <;> rfl

/-- The per-field form of `State.scanByte_frame`. -/
@[simp] theorem State.scanByte_cfg (s : State) (b : Byte) : (s.scanByte b).1.cfg = s.cfg := by
  rw [State.scanByte_frame]
@[simp] theorem State.scanByte_rbmem (s : State) (b : Byte) : (s.scanByte b).1.rbmem = s.rbmem := by
  rw [State.scanByte_frame]
@[simp] theorem State.scanByte_head (s : State) (b : Byte) : (s.scanByte b).1.head = s.head := by
  rw [State.scanByte_frame]
@[simp] theorem State.scanByte_tail (s : State) (b : Byte) : (s.scanByte b).1.tail = s.tail := by
  rw [State.scanByte_frame]
@[simp] theorem State.scanByte_size (s : State) (b : Byte) : (s.scanByte b).1.size = s.size := by
  rw [State.scanByte_frame]
@[simp] theorem State.scanByte_acc (s : State) (b : Byte) : (s.scanByte b).1.acc = s.acc := by
  rw [State.scanByte_frame]
@[simp] theorem State.scanByte_fatal (s : State) (b : Byte) : (s.scanByte b).1.fatal = s.fatal := by
  rw [State.scanByte_frame]
@[simp] theorem State.scanByte_cfgErr (s : State) (b : Byte) : (s.scanByte b).1.cfgErr = s.cfgErr := by
  rw [State.scanByte_frame]
@[simp] theorem State.scanByte_dq (s : State) (b : Byte) : (s.scanByte b).1.dq = s.dq := by
  rw [State.scanByte_frame]
@[simp] theorem State.scanByte_pending (s : State) (b : Byte) : (s.scanByte b).1.pending = s.pending := by
  rw [State.scanByte_frame]

@[simp] theorem State.contents_scanByte (s : State) (b : Byte) : (s.scanByte b).1.contents = s.contents := by
  simp [State.contents]

/-- One byte stores into PB at `readCount` only, and only inside PB (43_frame_scanner.md R163). -/
theorem State.scanByte_pb_read (s : State) (b : Byte) (a : Nat) (h : a ≠ s.readCount ∨ s.cfg.pktSize ≤ a) :
    (s.scanByte b).1.pb.read a = s.pb.read a := by
  simp only [State.scanByte, State.scanCase, State.defensiveCheck, State.parseStore]
  split <;> split <;> (try split) <;> (try split) <;> first
    | rfl
    | exact Memory.read_write_ne _ _ (by omega)

/-- What the last operation returned plays no part in the next. -/
theorem State.scanByte_withReply (s : State) (b : Byte) (r : Option Reply) :
    State.scanByte { s with reply := r } b = ({ (s.scanByte b).1 with reply := r }, (s.scanByte b).2) := by
  simp only [State.scanByte, State.scanCase, State.defensiveCheck, State.parseStore, State.parseFull]
  by_cases hb : b = s.cfg.delim <;> by_cases hp : s.readCount = s.cfg.pktSize <;>
    by_cases hl : s.readCount < s.cfg.pktSize <;> by_cases ho : s.cfg.pktSize < s.readCount <;>
    by_cases h1 : s.cfg.pktSize < s.readCount + 1 <;>
    simp [*, State.parseFrame]

/-- A full parse buffer that holds no delimiter gives a frame that holds none (43_frame_scanner.md R169 b). -/
theorem State.parseFrame_spec (s : State) (h : s.ScannerInv) (hr : s.readCount = s.cfg.pktSize) :
    s.parseFrame.length = s.cfg.pktSize ∧ s.cfg.delim ∉ s.parseFrame := by
  refine ⟨by simp [State.parseFrame], ?_⟩
  simp only [State.parseFrame, List.mem_map, List.mem_range, not_exists, not_and]
  exact fun k hk => h.2 k (by omega)

/-- One byte that is not held keeps the invariant. -/
theorem State.inv_scanByte (s : State) (b : Byte) (h : s.Inv) (hh : s.scanHeld b = false) : (s.scanByte b).1.Inv := by
  obtain ⟨hc, ⟨hs1, hs2, hs3, hs4⟩, hr, ⟨hn1, hn2⟩, hq1, hq2, hq3, hq4⟩ := h
  rcases State.scanByte_cases s b hn1 with ⟨h1, h2, e⟩ | ⟨h1, h2, e⟩ | ⟨h1, h2, e⟩ | ⟨h1, h2, e⟩ <;> rw [e]
  · refine ⟨hc, ⟨hs1, hs2, hs3, hs4⟩, hr, ⟨Nat.zero_le _, fun k hk => absurd hk (Nat.not_lt_zero k)⟩, ?_, ?_, hq3, hq4⟩
    · have : s.fq.length ≠ s.cfg.fqCap := by
        simpa [State.scanHeld, State.parseFull, State.fqFull, h1, h2] using hh
      simp; omega
    · simp only [List.mem_append, List.mem_singleton]
      rintro f (hf | rfl)
      · exact hq2 f hf
      · exact State.parseFrame_spec s ⟨hn1, hn2⟩ h2
  · exact ⟨hc, ⟨hs1, hs2, hs3, hs4⟩, hr, ⟨Nat.zero_le _, fun k hk => absurd hk (Nat.not_lt_zero k)⟩, hq1, hq2, hq3, hq4⟩
  · exact ⟨hc, ⟨hs1, hs2, hs3, hs4⟩, hr, ⟨Nat.zero_le _, fun k hk => absurd hk (Nat.not_lt_zero k)⟩, hq1, hq2, hq3, hq4⟩
  · refine ⟨hc, ⟨hs1, Memory.wf_write _ _ hs2, hs3, Memory.below_write _ hs4 h2⟩, hr, ⟨h2, fun k hk => ?_⟩, hq1, hq2, hq3, hq4⟩
    rcases Nat.lt_or_eq_of_le (Nat.le_of_lt_succ hk) with lt | eq
    · show (s.pb.write s.readCount b).read k ≠ s.cfg.delim
      rw [Memory.read_write_ne _ _ (Nat.ne_of_lt lt)]
      exact hn2 k lt
    · show (s.pb.write s.readCount b).read k ≠ s.cfg.delim
      rw [eq, Memory.read_write_same _ _ hs2]
      exact h1

/-- Dropping the oldest byte keeps the invariant. -/
theorem State.inv_dropOldest (s : State) (h : s.Inv) (hs : 0 < s.size) (hh : s.head < s.cfg.rbCap) :
    s.dropOldest.Inv :=
  ⟨h.1, h.2.1, State.ringInv_dropOldest s h.2.2.1 hs hh, h.2.2.2.1, h.2.2.2.2⟩

/-- Storing a byte in the ring keeps the invariant. -/
theorem State.inv_store (s : State) (b : Byte) (h : s.Inv) (hc : s.cfgErr = false) (hs : s.size < s.cfg.rbCap) :
    State.Inv { s with rbmem := s.rbmem.write s.tail b, tail := (s.tail + 1) % s.cfg.rbCap, size := s.size + 1 } := by
  obtain ⟨h1, ⟨hs1, hs2, hs3, hs4⟩, hr, hn, hq⟩ := h
  exact ⟨h1, ⟨Memory.wf_write _ _ hs1, hs2, Memory.below_write _ hs3 (hr.2.2 hc).2, hs4⟩,
    State.ringInv_store s b hr hs, hn, hq⟩

/-- A returned status keeps the invariant. -/
theorem State.inv_answer (s : State) (st : Status) (evs : List Event) (h : s.Inv) : (s.answer st evs).Inv := h

/-- Taking the oldest byte out of the ring does not change whether a byte is held. -/
@[simp] theorem State.scanHeld_dropOldest (s : State) (b : Byte) : s.dropOldest.scanHeld b = s.scanHeld b := rfl

/-- What one round of SC.PASS does: the oldest byte leaves the ring and goes through the scanner. -/
theorem passLoop_succ (n : Nat) (s : State) (evs : List Event) (h : s.head < s.cfg.rbCap) :
    passLoop (n + 1) s evs =
      if s.scanHeld (s.rbmem.read s.head) then s.finish (.ok (.pass .held)) evs
      else passLoop n (s.dropOldest.scanByte (s.rbmem.read s.head)).1
        (evs ++ (s.dropOldest.scanByte (s.rbmem.read s.head)).2) := by
  simp [passLoop, orFault, State.ringLoad, h]

/-- The induction of a pass, packaged once: what holds before with `n` bytes to go, and is kept by every round that is not
held, holds of the state that is answered: Drained with none to go, or Held in front of a boundary. -/
theorem passLoop_induct {P : Nat → State → List Event → Prop} (n : Nat) (s t : State) (evs : List Event)
    (hP : P n s evs)
    (round : ∀ (m : Nat) (u : State) (es : List Event), P (m + 1) u es → u.head < u.cfg.rbCap →
      u.scanHeld (u.rbmem.read u.head) = false →
      P m (u.dropOldest.scanByte (u.rbmem.read u.head)).1 (es ++ (u.dropOldest.scanByte (u.rbmem.read u.head)).2))
    (h : passLoop n s evs = .next t) :
    ∃ (m : Nat) (u : State) (es : List Event) (e : PassEnd), P m u es ∧ t = u.answer (.ok (.pass e)) es ∧
      (e = .drained ∧ m = 0 ∨
        e = .held ∧ m ≠ 0 ∧ u.head < u.cfg.rbCap ∧ u.scanHeld (u.rbmem.read u.head) = true) := by
  induction n generalizing s evs with
  | zero =>
    simp only [passLoop, State.finish_eq_next] at h
    exact ⟨0, s, evs, .drained, hP, h.symm, .inl ⟨rfl, rfl⟩⟩
  | succ n ih =>
    rcases Nat.lt_or_ge s.head s.cfg.rbCap with hh | hh
    · rw [passLoop_succ n s evs hh] at h
      split at h
      · next hb =>
        simp only [State.finish_eq_next] at h
        exact ⟨n + 1, s, evs, .held, hP, h.symm, .inr ⟨rfl, n.succ_ne_zero, hh, hb⟩⟩
      · next hb => exact ih _ _ (round n s evs hP hh (by simpa using hb)) h
    · simp [passLoop, orFault, State.ringLoad, Nat.not_lt.2 hh] at h

/-- A pass keeps the invariant. -/
theorem State.inv_passLoop {s t : State} (h : s.Inv) (hp : passLoop s.size s [] = .next t) : t.Inv := by
  obtain ⟨m, u, es, e, ⟨hu, _⟩, rfl, _⟩ :=
    passLoop_induct (P := fun n u _ => u.Inv ∧ u.size = n) s.size s t [] ⟨h, rfl⟩
      (fun m u es hP hh hb => ⟨State.inv_scanByte _ _ (State.inv_dropOldest u hP.1 (by omega) hh) hb, by
        simp [hP.2]⟩) hp
  exact hu

end Sys2Proof.Machine
end

