-- ==== Sys2Proof/Laws/Exec.lean ====
section
/-! SUPPORT. Laws/Exec.lean: for every operation that touches state, everything it can do, said once; and for the pure
operations, once for all of them. The provers cite these instead of unfolding `exec`. -/

namespace Sys2Proof.Machine

/-- The state after one byte was stored at `tail` (40_ring_buffer.md R101). -/
def State.stored (s : State) (b : Byte) : State :=
  { s with rbmem := s.rbmem.write s.tail b, tail := (s.tail + 1) % s.cfg.rbCap, size := s.size + 1 }

theorem execRbEnq_eq_next (b : Byte) (s t : State) :
    exec (.rbEnq b) s = .next t ↔
      (s.cfgErr = true ∧ s.answer (.err .configInvalid) [] = t) ∨
      (s.cfgErr = false ∧ s.size = s.cfg.rbCap ∧ s.answer (.err .full) [] = t) ∨
      (s.cfgErr = false ∧ s.size ≠ s.cfg.rbCap ∧ s.tail < s.cfg.rbCap ∧ (s.stored b).answer (.ok .unit) [] = t) := by
  simp only [exec, execRbEnq, State.whenValid_eq_next, State.ringFull, beq_iff_eq]
  by_cases h : s.size = s.cfg.rbCap <;>
    simp [h, orFault_eq_next, State.enqueue_eq_ok, State.stored, and_assoc, -Nat.not_lt]

theorem execRbDeq_eq_next (s t : State) :
    exec .rbDeq s = .next t ↔
      (s.cfgErr = true ∧ s.answer (.err .configInvalid) [] = t) ∨
      (s.cfgErr = false ∧ s.size = 0 ∧ s.answer (.err .empty) [] = t) ∨
      (s.cfgErr = false ∧ s.size ≠ 0 ∧ s.head < s.cfg.rbCap ∧
        s.dropOldest.answer (.ok (.byte (s.rbmem.read s.head))) [] = t) := by
  simp only [exec, execRbDeq, State.whenValid_eq_next, State.ringEmpty, beq_iff_eq]
  by_cases h : s.size = 0 <;> simp [h, orFault_eq_next, State.ringLoad_eq_ok, and_assoc]

theorem execRbClr_eq_next (s t : State) :
    exec .rbClr s = .next t ↔
      (s.cfgErr = true ∧ s.answer (.err .configInvalid) [] = t) ∨
      (s.cfgErr = false ∧ State.answer { s with head := 0, tail := 0, size := 0 } (.ok .unit) [] = t) := by
  simp [exec, execRbClr, State.whenValid_eq_next]

/-- The queries of the ring, RB.SNAP and CRC.FIN return a value and write nothing. -/
theorem execRead_eq_next (i : Instr) (h : i ∈ [.rbFull, .rbEmpty, .rbSize, .rbCap, .rbSnap, .crcFin]) (s t : State)
    (e : exec i s = .next t) : ∃ st : Status, t = s.answer st [] ∧ st ≠ .hold ∧
      ∀ er, st = .err er → er = .configInvalid := by
  simp only [List.mem_cons, List.not_mem_nil, or_false] at h
  rcases h with rfl | rfl | rfl | rfl | rfl | rfl <;>
    simp only [exec, execRbFull, execRbEmpty, execRbSize, execRbCap, execRbSnap, execCrcFin, State.whenValid_eq_next,
      orFault_eq_next, State.ok_eq_next] at e
  case inr.inr.inr.inr.inl =>
    rcases e with ⟨_, rfl⟩ | ⟨_, a, _, rfl⟩ <;> exact ⟨_, rfl, nofun, by intro er h; cases h <;> rfl⟩
  all_goals rcases e with ⟨_, rfl⟩ | ⟨_, rfl⟩ <;> exact ⟨_, rfl, nofun, by intro er h; cases h <;> rfl⟩

theorem execCrcInit_eq_next (s t : State) :
    exec .crcInit s = .next t ↔
      (s.cfgErr = true ∧ s.answer (.err .configInvalid) [] = t) ∨
      (s.cfgErr = false ∧ State.answer { s with acc := crcInitial } (.ok .unit) [] = t) := by
  simp [exec, execCrcInit, State.whenValid_eq_next]

theorem execCrcUpd_eq_next (b : Byte) (s t : State) :
    exec (.crcUpd b) s = .next t ↔
      (s.cfgErr = true ∧ s.answer (.err .configInvalid) [] = t) ∨
      (s.cfgErr = false ∧ State.answer { s with acc := crcByte s.acc b } (.ok .unit) [] = t) := by
  simp [exec, execCrcUpd, State.whenValid_eq_next]

/-- A pure operation, in whatever state with a valid configuration, returns one and the same status and no event
(10_state.md R38), and never holds. -/
theorem exec_pure (i : Instr) (h : pureOp i = true) :
    ∃ st : Status, st ≠ .hold ∧ st ≠ .err .rxOverflow ∧ ∀ s : State, s.cfgErr = false → exec i s = .next (s.answer st []) := by
  have key : ∀ r : Except Err Result, r ≠ .error .rxOverflow →
      ∃ st : Status, st ≠ .hold ∧ st ≠ .err .rxOverflow ∧
        ∀ s : State, s.cfgErr = false → s.whenValid (s.okOrRaise r) = .next (s.answer st []) := by
    intro r hr
    cases r with
    | ok v =>
      exact ⟨.ok v, nofun, nofun, fun s hs => by simp [State.whenValid, hs, State.okOrRaise, State.ok, State.finish]⟩
    | error e =>
      refine ⟨.err e, nofun, fun h => hr ?_, fun s hs => by
        simp [State.whenValid, hs, State.okOrRaise, State.raise, State.finish]⟩
      cases h; rfl
  have dec : ∀ d k i l, decodeBlocks d k i l ≠ .error .rxOverflow := by
    intro d k
    induction k with
    | zero => intro i l; cases l <;> simp [decodeBlocks]
    | succ k ih =>
      intro i l
      cases l with
      | nil => simp [decodeBlocks]
      | cons L rest =>
        unfold decodeBlocks
        split
        · simp
        · split
          · simp
          · dsimp only
            split
            · next h => exact fun h' => ih _ _ (by cases h'; exact h)
            · simp
  have mask : ∀ n j fs m, maskFields n j fs m ≠ .error .rxOverflow := by
    intro n j fs
    induction fs generalizing j with
    | nil => simp [maskFields]
    | cons f fs ih => intro m; unfold maskFields; split <;> (try split) <;> first | exact ih _ _ | simp
  have sum : ∀ data fs, crcMaskedSum data fs ≠ .error .rxOverflow := by
    intro data fs
    unfold crcMaskedSum
    split
    · simp
    · split
      · next h => exact fun h' => mask _ _ _ _ (by cases h'; exact h)
      · simp
  have extract : ∀ frame fs j rec, extractFields frame j fs rec ≠ .error .rxOverflow := by
    intro frame fs
    induction fs with
    | nil => simp [extractFields]
    | cons f fs ih => intro j rec; unfold extractFields; split <;> (try split) <;> first | exact ih _ _ | simp
  have sealed : ∀ fields, txSeal fields ≠ .error .rxOverflow := by
    intro fields
    unfold txSeal
    split
    · simp
    · split
      · next h => exact fun h' => sum _ _ (by cases h'; exact h)
      · simp
  have lift : ∀ {α : Type} (f : α → Result) (x : Except Err α), x ≠ .error .rxOverflow → x.map f ≠ .error .rxOverflow := by
    intro α f x hx h
    cases x with
    | ok a => cases h
    | error e => exact hx (by cases h; rfl)
  cases i <;> simp only [pureOp, Bool.false_eq_true] at h
  case cobsEnc p d => exact key (.ok _) nofun
  case crcSum data => exact key (.ok _) nofun
  case cobsDec e d =>
    refine key _ (lift _ _ ?_)
    unfold cobsDecode
    split
    · simp
    · exact dec _ _ _ _
  case crcMsum data fs => exact key _ (lift _ _ (sum _ _))
  case fxGet frame a b =>
    refine key _ (lift _ _ ?_)
    unfold fieldGet
    split <;> simp
  case fxHash frame =>
    refine key _ (lift _ _ ?_)
    unfold trailerHash
    split <;> simp
  case recDec frame schema =>
    refine key _ (lift _ _ ?_)
    unfold recordDecode
    split
    · simp
    · split
      · next h => exact fun h' => extract _ _ _ _ (by cases h'; exact h)
      · split
        · next h =>
          unfold trailerHash at h
          split at h <;> cases h
          simp
        · next h => exact fun h' => sum _ _ (by cases h'; exact h)
        · simp
  case txSeal fields => exact key _ (lift _ _ (sealed _))
  case txBuild fields d =>
    refine key _ (lift _ _ ?_)
    unfold txBuild
    split
    · next h => exact fun h' => sealed _ (by cases h'; exact h)
    · simp

theorem execRxPush_eq_next (b : Byte) (s t : State) :
    exec (.rxPush b) s = .next t ↔
      (s.cfgErr = true ∧ s.answer (.err .configInvalid) [] = t) ∨
      (s.cfgErr = false ∧ s.fatal = true ∧ s.answer (.err .disconnected) [] = t) ∨
      (s.cfgErr = false ∧ s.fatal = false ∧ s.size = s.cfg.rbCap ∧
        State.answer { s with fatal := true } (.err .rxOverflow) [] = t) ∨
      (s.cfgErr = false ∧ s.fatal = false ∧ s.size ≠ s.cfg.rbCap ∧ s.tail < s.cfg.rbCap ∧
        (s.stored b).answer (.ok .unit) [] = t) := by
  simp only [exec, execRxPush, State.whenValid_eq_next, State.whenLive_eq_next, State.ringFull, beq_iff_eq]
  by_cases h : s.size = s.cfg.rbCap <;>
    simp [h, orFault_eq_next, State.enqueue_eq_ok, State.stored, and_or_left, and_assoc]

/-- The byte is a frame boundary and FQ is full. -/
theorem State.scanHeld_iff (s : State) (b : Byte) :
    s.scanHeld b = true ↔ b = s.cfg.delim ∧ s.readCount = s.cfg.pktSize ∧ s.fq.length = s.cfg.fqCap := by
  simp [State.scanHeld, State.parseFull, State.fqFull, and_assoc]

/-- An empty FQ has a place (00_scope.md R11), so the scanner does not hold there. -/
theorem State.scanHeld_of_fq_nil (s : State) (b : Byte) (h : s.fq = []) : s.scanHeld b = false := by
  have := s.cfg.fqCap_pos
  refine Bool.eq_false_iff.2 fun hb => ?_
  have := ((State.scanHeld_iff s b).1 hb).2.2
  simp [h] at this
  omega

/-- An empty DQ has a place (00_scope.md R11). -/
theorem State.dqFull_of_dq_nil (s : State) (h : s.dq = []) : s.dqFull = false := by
  have := s.cfg.dqCap_pos
  simp [State.dqFull, h]
  omega

theorem execScStep_eq_next (b : Byte) (s t : State) :
    exec (.scStep b) s = .next t ↔
      (s.cfgErr = true ∧ s.answer (.err .configInvalid) [] = t) ∨
      (s.cfgErr = false ∧ s.fatal = true ∧ s.answer (.err .disconnected) [] = t) ∨
      (s.cfgErr = false ∧ s.fatal = false ∧ s.scanHeld b = true ∧ s.answer .hold [] = t) ∨
      (s.cfgErr = false ∧ s.fatal = false ∧ s.scanHeld b = false ∧
        (s.scanByte b).1.answer (.ok .unit) (s.scanByte b).2 = t) := by
  simp only [exec, execScStep, State.whenValid_eq_next, State.whenLive_eq_next]
  cases h : s.scanHeld b <;> simp [and_or_left]

theorem execScPass_eq_next (s t : State) :
    exec .scPass s = .next t ↔
      (s.cfgErr = true ∧ s.answer (.err .configInvalid) [] = t) ∨
      (s.cfgErr = false ∧ s.fatal = true ∧ s.answer (.err .disconnected) [] = t) ∨
      (s.cfgErr = false ∧ s.fatal = false ∧ s.readCount + s.size < s.cfg.pktSize ∧
        s.answer (.ok (.pass .gated)) [] = t) ∨
      (s.cfgErr = false ∧ s.fatal = false ∧ s.cfg.pktSize ≤ s.readCount + s.size ∧
        passLoop s.size s [] = .next t) := by
  simp only [exec, execScPass, State.whenValid_eq_next, State.whenLive_eq_next]
  by_cases h : s.readCount + s.size < s.cfg.pktSize
  · simp [h, Nat.not_le.2 h, and_or_left]
  · simp [h, Nat.not_lt.1 h, and_or_left]

theorem execFrChk_eq_next (s t : State) :
    exec .frChk s = .next t ↔
      (s.cfgErr = true ∧ s.answer (.err .configInvalid) [] = t) ∨
      (s.cfgErr = false ∧ (s.fq = [] ∨ s.dq.length = s.cfg.dqCap) ∧ s.answer .hold [] = t) ∨
      (s.cfgErr = false ∧ s.dq.length ≠ s.cfg.dqCap ∧ ∃ e rest, s.fq = e :: rest ∧
        (State.deframe { s with fq := rest } e).1.answer (.ok .unit) [(State.deframe { s with fq := rest } e).2] = t) := by
  simp only [exec, execFrChk, State.whenValid_eq_next, State.dqFull]
  cases h : s.fq with
  | nil => simp
  | cons e rest => by_cases hd : s.dq.length = s.cfg.dqCap <;> simp [hd]

/-- Everything a deframing can do (43_frame_scanner.md R176). -/
theorem State.deframe_cases (s : State) (e : Bytes) :
    (∃ err, cobsDecode e s.cfg.delim = .error err ∧ s.deframe e = (s, .error err)) ∨
    (∃ out, cobsDecode e s.cfg.delim = .ok out ∧ out.length = s.cfg.msgSize ∧
      s.deframe e = ({ s with dq := s.dq ++ [out] }, .data out)) ∨
    (∃ out, cobsDecode e s.cfg.delim = .ok out ∧ out.length ≠ s.cfg.msgSize ∧
      s.deframe e = (s, .warn (.lengthMismatch out.length))) := by
  unfold State.deframe
  cases h : cobsDecode e s.cfg.delim with
  | error err => exact .inl ⟨err, rfl, rfl⟩
  | ok out =>
    by_cases hl : out.length = s.cfg.msgSize
    · exact .inr (.inl ⟨out, rfl, hl, by simp [hl]⟩)
    · exact .inr (.inr ⟨out, rfl, hl, by simp [hl]⟩)

/-- Deframing the oldest frame, with room in DQ, keeps the invariant. -/
theorem State.inv_deframe (s : State) (e : Bytes) (rest : List Bytes) (h : s.Inv) (hf : s.fq = e :: rest)
    (hd : s.dq.length ≠ s.cfg.dqCap) : (State.deframe { s with fq := rest } e).1.Inv := by
  obtain ⟨h1, h2, h3, h4, hq1, hq2, hq3, hq4⟩ := h
  have q1 : rest.length ≤ s.cfg.fqCap := by rw [hf] at hq1; simp at hq1; omega
  have q2 : ∀ f ∈ rest, f.length = s.cfg.pktSize ∧ s.cfg.delim ∉ f := fun f hm =>
    hq2 f (by rw [hf]; exact List.mem_cons_of_mem _ hm)
  rcases State.deframe_cases { s with fq := rest } e with ⟨err, _, e⟩ | ⟨out, _, hl, e⟩ | ⟨out, _, _, e⟩ <;> rw [e]
  · exact ⟨h1, h2, h3, h4, q1, q2, hq3, hq4⟩
  · refine ⟨h1, h2, h3, h4, q1, q2, ?_, ?_⟩
    · simp; omega
    · intro r hr
      rcases List.mem_append.1 hr with hr | hr
      · exact hq4 r hr
      · rw [List.mem_singleton.1 hr]; exact hl
  · exact ⟨h1, h2, h3, h4, q1, q2, hq3, hq4⟩

/-- With CFGERR set every operation answers ConfigInvalid and changes nothing (10_state.md R35). -/
theorem exec_cfgErr (i : Instr) (s : State) (h : s.cfgErr = true) :
    exec i s = .next (s.answer (.err .configInvalid) []) := by
  cases i <;>
    simp [exec, execRbEnq, execRbDeq, execRbFull, execRbEmpty, execRbSize, execRbCap, execRbClr, execRbSnap, execCobsEnc,
      execCobsDec, execCrcInit, execCrcUpd, execCrcFin, execCrcSum, execCrcMsum, execRxPush, execScStep, execScPass,
      execFrChk, execFxGet, execFxHash, execRecDec, execTxSeal, execTxBuild, State.whenValid, h, State.raise, State.finish]

/-- Everything an operation that answers can do to the state. -/
theorem exec_cases {i : Instr} {s t : State} (h : exec i s = .next t) :
    (∃ st, t = s.answer st []) ∨
    (∃ w, writesAcc i = true ∧ s.cfgErr = false ∧ t = State.answer { s with acc := w } (.ok .unit) []) ∨
    (∃ b, (i = .rbEnq b ∨ i = .rxPush b ∧ s.fatal = false) ∧ s.cfgErr = false ∧ s.size ≠ s.cfg.rbCap ∧
      s.tail < s.cfg.rbCap ∧ t = (s.stored b).answer (.ok .unit) []) ∨
    (i = .rbDeq ∧ s.cfgErr = false ∧ s.size ≠ 0 ∧ s.head < s.cfg.rbCap ∧
      t = s.dropOldest.answer (.ok (.byte (s.rbmem.read s.head))) []) ∨
    (i = .rbClr ∧ s.cfgErr = false ∧ t = State.answer { s with head := 0, tail := 0, size := 0 } (.ok .unit) []) ∨
    (∃ b, i = .rxPush b ∧ s.cfgErr = false ∧ s.fatal = false ∧ s.size = s.cfg.rbCap ∧
      t = State.answer { s with fatal := true } (.err .rxOverflow) []) ∨
    (∃ b, i = .scStep b ∧ s.cfgErr = false ∧ s.fatal = false ∧ s.scanHeld b = false ∧
      t = (s.scanByte b).1.answer (.ok .unit) (s.scanByte b).2) ∨
    (i = .scPass ∧ s.cfgErr = false ∧ s.fatal = false ∧ s.cfg.pktSize ≤ s.readCount + s.size ∧
      passLoop s.size s [] = .next t) ∨
    (∃ e rest, i = .frChk ∧ s.cfgErr = false ∧ s.dq.length ≠ s.cfg.dqCap ∧ s.fq = e :: rest ∧
      t = (State.deframe { s with fq := rest } e).1.answer (.ok .unit) [(State.deframe { s with fq := rest } e).2]) := by
  cases hp : pureOp i
  case true =>
    obtain ⟨st, _, _, hst⟩ := exec_pure i hp
    cases hc : s.cfgErr
    · rw [hst s hc] at h
      exact .inl ⟨st, by cases h; rfl⟩
    · rw [exec_cfgErr i s hc] at h
      exact .inl ⟨_, by cases h; rfl⟩
  case false =>
    cases i <;> simp only [pureOp, Bool.true_eq_false] at hp
    case rbEnq b =>
      rcases (execRbEnq_eq_next b s t).1 h with ⟨_, rfl⟩ | ⟨_, _, rfl⟩ | ⟨h1, h2, h3, rfl⟩
      · exact .inl ⟨_, rfl⟩
      · exact .inl ⟨_, rfl⟩
      · exact .inr (.inr (.inl ⟨b, .inl rfl, h1, h2, h3, rfl⟩))
    case rbDeq =>
      rcases (execRbDeq_eq_next s t).1 h with ⟨_, rfl⟩ | ⟨_, _, rfl⟩ | ⟨h1, h2, h3, rfl⟩
      · exact .inl ⟨_, rfl⟩
      · exact .inl ⟨_, rfl⟩
      · exact .inr (.inr (.inr (.inl ⟨rfl, h1, h2, h3, rfl⟩)))
    case rbClr =>
      rcases (execRbClr_eq_next s t).1 h with ⟨_, rfl⟩ | ⟨h1, rfl⟩
      · exact .inl ⟨_, rfl⟩
      · exact .inr (.inr (.inr (.inr (.inl ⟨rfl, h1, rfl⟩))))
    case crcInit =>
      rcases (execCrcInit_eq_next s t).1 h with ⟨_, rfl⟩ | ⟨h1, rfl⟩
      · exact .inl ⟨_, rfl⟩
      · exact .inr (.inl ⟨_, rfl, h1, rfl⟩)
    case crcUpd b =>
      rcases (execCrcUpd_eq_next b s t).1 h with ⟨_, rfl⟩ | ⟨h1, rfl⟩
      · exact .inl ⟨_, rfl⟩
      · exact .inr (.inl ⟨_, rfl, h1, rfl⟩)
    case rxPush b =>
      rcases (execRxPush_eq_next b s t).1 h with ⟨_, rfl⟩ | ⟨_, _, rfl⟩ | ⟨h1, h2, h3, rfl⟩ | ⟨h1, h2, h3, h4, rfl⟩
      · exact .inl ⟨_, rfl⟩
      · exact .inl ⟨_, rfl⟩
      · exact .inr (.inr (.inr (.inr (.inr (.inl ⟨b, rfl, h1, h2, h3, rfl⟩)))))
      · exact .inr (.inr (.inl ⟨b, .inr ⟨rfl, h2⟩, h1, h3, h4, rfl⟩))
    case scStep b =>
      rcases (execScStep_eq_next b s t).1 h with ⟨_, rfl⟩ | ⟨_, _, rfl⟩ | ⟨_, _, _, rfl⟩ | ⟨h1, h2, h3, rfl⟩
      · exact .inl ⟨_, rfl⟩
      · exact .inl ⟨_, rfl⟩
      · exact .inl ⟨_, rfl⟩
      · exact .inr (.inr (.inr (.inr (.inr (.inr (.inl ⟨b, rfl, h1, h2, h3, rfl⟩))))))
    case scPass =>
      rcases (execScPass_eq_next s t).1 h with ⟨_, rfl⟩ | ⟨_, _, rfl⟩ | ⟨_, _, _, rfl⟩ | ⟨h1, h2, h3, h4⟩
      · exact .inl ⟨_, rfl⟩
      · exact .inl ⟨_, rfl⟩
      · exact .inl ⟨_, rfl⟩
      · exact .inr (.inr (.inr (.inr (.inr (.inr (.inr (.inl ⟨rfl, h1, h2, h3, h4⟩)))))))
    case frChk =>
      rcases (execFrChk_eq_next s t).1 h with ⟨_, rfl⟩ | ⟨_, _, rfl⟩ | ⟨h1, h2, e, rest, h3, rfl⟩
      · exact .inl ⟨_, rfl⟩
      · exact .inl ⟨_, rfl⟩
      · exact .inr (.inr (.inr (.inr (.inr (.inr (.inr (.inr ⟨e, rest, rfl, h1, h2, h3, rfl⟩)))))))
    all_goals
      obtain ⟨st, hst, _⟩ := execRead_eq_next _ (by simp) s t h
      exact .inl ⟨st, hst⟩

end Sys2Proof.Machine
end

