-- ==== Sys2Proof/Laws/Record.lean ====
section
/-! SUPPORT. Laws/Record.lean: a record is a mapping: a name set reads back, other names are left alone, and records in
the canonical order that read alike are equal (44_field_extractor.md R199: "compare records as mappings"). -/

namespace Sys2Proof.Machine

/-- The order of names is total on different names. -/
theorem nameLt_total {x y : Name} (h : x ≠ y) : nameLt x y = true ∨ nameLt y x = true := by
  induction x generalizing y with
  | nil => cases y with
    | nil => exact absurd rfl h
    | cons b y => exact .inl rfl
  | cons a x ih => cases y with
    | nil => exact .inr rfl
    | cons b y =>
      by_cases e : a = b
      · subst e
        simpa [nameLt] using ih (fun e => h (by rw [e]))
      · have : a.toNat ≠ b.toNat := fun e' => e (Char.toNat_inj.1 e')
        simp only [nameLt, e, Ne.symm e, if_false, decide_eq_true_eq]
        omega

theorem nameLt_irrefl (x : Name) : nameLt x x = false := by
  induction x with
  | nil => rfl
  | cons a x ih => simpa [nameLt] using ih

theorem nameLt_trans {x y z : Name} (h : nameLt x y = true) (h' : nameLt y z = true) : nameLt x z = true := by
  induction x generalizing y z with
  | nil => cases z with
    | nil => cases y <;> simp [nameLt] at h'
    | cons c z => rfl
  | cons a x ih => cases y with
    | nil => simp [nameLt] at h
    | cons b y => cases z with
      | nil => simp [nameLt] at h'
      | cons c z =>
        by_cases e : a = b
        · subst e
          by_cases e' : a = c
          · subst e'
            simp only [nameLt, if_true] at h h' ⊢
            exact ih h h'
          · simpa [nameLt, e'] using h'
        · by_cases e' : b = c
          · subst e'
            simpa [nameLt, e] using h
          · simp only [nameLt, e, e', if_false, decide_eq_true_eq] at h h'
            have ec : a ≠ c := fun ec => by rw [ec] at h; omega
            simp only [nameLt, ec, if_false, decide_eq_true_eq]
            omega

/-- A name set reads back. -/
theorem Record.get_set_same (r : Record) (n : Name) (v : Value) : (r.set n v).get n = some v := by
  induction r with
  | nil => simp [Record.set, Record.get]
  | cons c r ih =>
    obtain ⟨m, w⟩ := c
    unfold Record.set
    split
    · simp [Record.get]
    · split
      · simp [Record.get]
      · next h _ => simpa [Record.get, Ne.symm h] using ih

/-- Every other name is left alone. -/
theorem Record.get_set_ne (r : Record) {n k : Name} (v : Value) (h : k ≠ n) : (r.set n v).get k = r.get k := by
  induction r with
  | nil => simp [Record.set, Record.get, Ne.symm h]
  | cons c r ih =>
    obtain ⟨m, w⟩ := c
    unfold Record.set
    split
    · next e => subst e; simp [Record.get, Ne.symm h]
    · split
      · simp [Record.get, Ne.symm h]
      · simp only [Record.get, ih]

/-- The canonical form: the names rise strictly. -/
def Record.Sorted (r : Record) : Prop := r.Pairwise fun a b => nameLt a.1 b.1 = true

theorem Record.mem_set {r : Record} {n : Name} {v : Value} {c : Name × Value} (h : c ∈ r.set n v) :
    c = (n, v) ∨ c ∈ r := by
  induction r with
  | nil => simpa [Record.set] using h
  | cons d r ih =>
    obtain ⟨m, w⟩ := d
    unfold Record.set at h
    split at h
    · rcases List.mem_cons.1 h with h | h
      · exact .inl h
      · exact .inr (List.mem_cons_of_mem _ h)
    · split at h
      · rcases List.mem_cons.1 h with h | h
        · exact .inl h
        · exact .inr h
      · rcases List.mem_cons.1 h with h | h
        · exact .inr (h ▸ List.mem_cons_self)
        · exact (ih h).imp id (List.mem_cons_of_mem _)

/-- Setting a name keeps the canonical form. -/
theorem Record.sorted_set {r : Record} (n : Name) (v : Value) (h : r.Sorted) : (r.set n v).Sorted := by
  induction r with
  | nil => simp [Record.Sorted, Record.set]
  | cons c r ih =>
    obtain ⟨m, w⟩ := c
    obtain ⟨h1, h2⟩ := List.pairwise_cons.1 h
    unfold Record.set
    split
    · next e => subst e; exact List.pairwise_cons.2 ⟨h1, h2⟩
    · split
      · next lt =>
        refine List.pairwise_cons.2 ⟨fun d hd => ?_, h⟩
        rcases List.mem_cons.1 hd with rfl | hd
        · exact lt
        · exact nameLt_trans lt (h1 d hd)
      · next ne lt =>
        refine List.pairwise_cons.2 ⟨fun d hd => ?_, ih h2⟩
        rcases Record.mem_set hd with rfl | hd
        · exact (nameLt_total ne).resolve_left lt
        · exact h1 d hd

/-- In a canonical record whose names all lie above `n`, `n` is not set. -/
theorem Record.get_of_lt {r : Record} {n : Name} (h : ∀ d ∈ r, nameLt n d.1 = true) : r.get n = none := by
  induction r with
  | nil => rfl
  | cons c r ih =>
    obtain ⟨m, w⟩ := c
    have hm : m ≠ n := fun e => by
      have := h (m, w) List.mem_cons_self
      rw [e, nameLt_irrefl] at this
      exact Bool.noConfusion this
    simpa [Record.get, hm] using ih fun d hd => h d (List.mem_cons_of_mem _ hd)

/-- Canonical records that read alike are equal. -/
theorem Record.ext_of_get {r r' : Record} (h : r.Sorted) (h' : r'.Sorted) (e : ∀ n, r.get n = r'.get n) : r = r' := by
  induction r generalizing r' with
  | nil =>
    cases r' with
    | nil => rfl
    | cons c r' => exact absurd (e c.1) (by simp [Record.get])
  | cons c r ih =>
    obtain ⟨m, w⟩ := c
    obtain ⟨h1, h2⟩ := List.pairwise_cons.1 h
    cases r' with
    | nil => exact absurd (e m) (by simp [Record.get])
    | cons c' r' =>
      obtain ⟨m', w'⟩ := c'
      obtain ⟨h1', h2'⟩ := List.pairwise_cons.1 h'
      have hm : m = m' := by
        by_contra ne
        rcases nameLt_total ne with lt | lt
        · have := e m
          rw [Record.get_of_lt (r := (m', w') :: r') fun d hd => ?_] at this
          · simp [Record.get] at this
          · rcases List.mem_cons.1 hd with rfl | hd
            · exact lt
            · exact nameLt_trans lt (h1' d hd)
        · have := e m'
          rw [Record.get_of_lt (r := (m, w) :: r) fun d hd => ?_] at this
          · simp [Record.get] at this
          · rcases List.mem_cons.1 hd with rfl | hd
            · exact lt
            · exact nameLt_trans lt (h1 d hd)
      subst hm
      have hw : w = w' := by simpa [Record.get] using e m
      subst hw
      have hr : r = r' := by
        refine ih h2 h2' fun n => ?_
        by_cases hn : m = n
        · subst hn
          rw [Record.get_of_lt h1, Record.get_of_lt h1']
        · simpa [Record.get, hn] using e n
      rw [hr]

end Sys2Proof.Machine
end

