-- ==== Sys2Proof/Laws/Extractor.lean ====
section
/-! SUPPORT. Laws/Extractor.lean: little-endian assembly as a number, and everything the extraction loop of REC.DEC can do
(44_field_extractor.md). -/

namespace Sys2Proof.Machine

/-- A valid range, as the rule states it (30_encoding.md R81). -/
theorem rangeValid_iff (i j n : Nat) : rangeValid i j n = true ↔ i ≤ j ∧ j < n := by simp [rangeValid]

theorem rangeValid_eq_false_iff (i j n : Nat) : rangeValid i j n = false ↔ ¬(i ≤ j ∧ j < n) := by
  rw [← rangeValid_iff]; simp

/-- The bytes of a closed slice (00_scope.md R13). -/
theorem sliceClosed_eq_map (s : Bytes) (i j : Nat) (hi : i ≤ j) (hj : j < s.length) :
    sliceClosed s i j = (List.range (j - i + 1)).map fun k => s.getD (i + k) 0 := by
  refine List.ext_getElem? fun k => ?_
  simp only [sliceClosed, sliceHalfOpen, List.getElem?_take, List.getElem?_drop, List.getElem?_map, List.getD_eq_getElem?_getD]
  by_cases hk : k < j - i + 1
  · rw [if_pos (by omega), List.getElem?_range hk, List.getElem?_eq_getElem (by omega)]
    simp [List.getElem?_eq_getElem (show i + k < s.length by omega)]
  · rw [if_neg (by omega), List.getElem?_eq_none (l := List.range _) (by simpa using hk)]
    rfl

/-- From byte number `k` on, at most four bytes in all make a number without overlap (44_field_extractor.md R191). -/
theorem toNat_littleEndianFrom (s : Bytes) (k : Nat) (h : k + s.length ≤ 4) :
    (littleEndianFrom k s).toNat = ((List.range s.length).map fun j => (s.getD j 0).toNat * 256 ^ (k + j)).sum ∧
      256 ^ k ∣ (littleEndianFrom k s).toNat := by
  induction s generalizing k with
  | nil => simp [littleEndianFrom]
  | cons b s ih =>
    simp only [List.length_cons] at h
    obtain ⟨h1, h2⟩ := ih (k + 1) (by omega)
    have hb := b.isLt
    have hk : k < 4 := by omega
    have e : (b.setWidth 32 <<< (8 * k)).toNat = b.toNat * 256 ^ k := by
      have : b.toNat <<< (8 * k) = b.toNat * 256 ^ k := by rw [Nat.shiftLeft_eq, show (256 : Nat) = 2 ^ 8 from rfl, ← Nat.pow_mul]
      rw [BitVec.toNat_shiftLeft, BitVec.toNat_setWidth, Nat.mod_eq_of_lt (a := b.toNat) (by omega), this]
      refine Nat.mod_eq_of_lt ?_
      interval_cases k <;> simp <;> omega
    have o : (littleEndianFrom k (b :: s)).toNat = b.toNat * 256 ^ k + (littleEndianFrom (k + 1) s).toNat := by
      rw [littleEndianFrom, BitVec.toNat_or, e, Nat.or_comm]
      obtain ⟨q, hq⟩ := h2
      have lt : b.toNat * 256 ^ k < 2 ^ (8 * (k + 1)) := by
        rw [Nat.pow_mul, show (2 : Nat) ^ 8 = 256 from rfl, Nat.pow_succ, Nat.mul_comm]
        exact Nat.mul_lt_mul_of_pos_left (by omega) (Nat.pow_pos (by omega))
      rw [hq, show (256 : Nat) ^ (k + 1) = 2 ^ (8 * (k + 1)) by rw [Nat.pow_mul], ← Nat.two_pow_add_eq_or_of_lt lt]
      omega
    refine ⟨?_, ?_⟩
    · rw [o, h1, List.length_cons, List.range_succ_eq_map, List.map_cons, List.sum_cons, List.map_map]
      congr 1
      refine congrArg List.sum (List.map_congr_left fun j _ => ?_)
      simp [Nat.add_assoc, Nat.add_comm 1]
    · rw [o]
      exact Nat.dvd_add (Nat.dvd_mul_left _ _) (Nat.dvd_trans (Nat.pow_dvd_pow _ (by omega)) h2)

/-- Extraction completes where every named range is valid, and each name then holds the value of the LAST descriptor of
that name, or what it held before (44_field_extractor.md R197, R199). -/
theorem extractFields_of_valid (frame : Bytes) (j : Nat) (fs : Schema) (rec : Record)
    (h : ∀ f ∈ fs, f.name ≠ [] → f.startIdx ≤ f.endIdx ∧ f.endIdx < frame.length) :
    ∃ rec', extractFields frame j fs rec = .ok rec' ∧ rec'.get [] = rec.get [] ∧ ∀ n, n ≠ [] → rec'.get n =
      match (fs.filter fun f => f.name = n).getLast? with
      | none => rec.get n
      | some f => some (fieldValue frame f.startIdx f.endIdx) := by
  induction fs generalizing j rec with
  | nil => exact ⟨rec, rfl, rfl, fun n _ => rfl⟩
  | cons f fs ih =>
    have hfs : ∀ g ∈ fs, g.name ≠ [] → g.startIdx ≤ g.endIdx ∧ g.endIdx < frame.length := fun g hg =>
      h g (List.mem_cons_of_mem _ hg)
    by_cases hn : f.name = []
    · obtain ⟨r, h1, h2, h3⟩ := ih (j + 1) rec hfs
      refine ⟨r, by rw [extractFields, if_pos hn, h1], h2, fun n hne => ?_⟩
      rw [h3 n hne, List.filter_cons_of_neg (by simp [hn, Ne.symm hne])]
    · obtain ⟨r, h1, h2, h3⟩ := ih (j + 1) (rec.set f.name (fieldValue frame f.startIdx f.endIdx)) hfs
      refine ⟨r, ?_, by rw [h2, Record.get_set_ne _ _ (Ne.symm hn)], fun n hne => ?_⟩
      · rw [extractFields, if_neg hn, if_pos ((rangeValid_iff _ _ _).2 (h f List.mem_cons_self hn)), h1]
      · rw [h3 n hne]
        by_cases he : f.name = n
        · rw [List.filter_cons_of_pos (by simpa using he)]
          cases hl : (fs.filter fun f => f.name = n) with
          | nil => simp [← he, Record.get_set_same]
          | cons g gs => rw [List.getLast?_cons_cons]; cases hg : (g :: gs).getLast? with
            | none => simp at hg
            | some x => rfl
        · rw [List.filter_cons_of_neg (by simpa using he), Record.get_set_ne _ _ (Ne.symm he)]

/-- The first named descriptor with an invalid range is the one reported (44_field_extractor.md R198). -/
theorem extractFields_eq_error (frame : Bytes) (j : Nat) (pre post : Schema) (f : FieldDescriptor) (rec : Record)
    (hp : ∀ g ∈ pre, g.name ≠ [] → g.startIdx ≤ g.endIdx ∧ g.endIdx < frame.length) (hn : f.name ≠ [])
    (hf : ¬(f.startIdx ≤ f.endIdx ∧ f.endIdx < frame.length)) :
    extractFields frame j (pre ++ f :: post) rec = .error (.invalidFieldRange (some (j + pre.length, f.name))) := by
  induction pre generalizing j rec with
  | nil => simp [extractFields, hn, (rangeValid_eq_false_iff _ _ _).2 hf]
  | cons g pre ih =>
    have ih' := fun rec => ih (j + 1) rec fun g' hg' => hp g' (List.mem_cons_of_mem _ hg')
    simp only [List.cons_append, extractFields, ih', List.length_cons, Nat.add_assoc, Nat.add_comm 1]
    by_cases hg : g.name = []
    · simp [hg]
    · simp [(rangeValid_iff _ _ _).2 (hp g List.mem_cons_self hg)]

end Sys2Proof.Machine
end

