-- ==== Sys2Proof/Laws/PerInstr.lean ====
section
/-! SUPPORT. Laws/PerInstr.lean: the family Encoded, one lemma per operation: its request is well formed, its code the one
30_encoding.md R90 gives its row and its operands those of the row. -/

namespace Sys2Proof.Laws.Encoded

/-- The request of an operation is well formed. -/
def Statement (i : Instr) : Prop := (encode i).wellFormed = true

theorem rbEnq (b : Byte) : Statement (.rbEnq b) := rfl
theorem rbDeq : Statement (.rbDeq) := rfl
theorem rbFull : Statement (.rbFull) := rfl
theorem rbEmpty : Statement (.rbEmpty) := rfl
theorem rbSize : Statement (.rbSize) := rfl
theorem rbCap : Statement (.rbCap) := rfl
theorem rbClr : Statement (.rbClr) := rfl
theorem rbSnap : Statement (.rbSnap) := rfl
theorem cobsEnc (p : Bytes) (d : Byte) : Statement (.cobsEnc p d) := rfl
theorem cobsDec (e : Bytes) (d : Byte) : Statement (.cobsDec e d) := rfl
theorem crcInit : Statement (.crcInit) := rfl
theorem crcUpd (b : Byte) : Statement (.crcUpd b) := rfl
theorem crcFin : Statement (.crcFin) := rfl
theorem crcSum (data : Bytes) : Statement (.crcSum data) := rfl
theorem crcMsum (data : Bytes) (fields : Schema) : Statement (.crcMsum data fields) := rfl
theorem rxPush (b : Byte) : Statement (.rxPush b) := rfl
theorem scStep (b : Byte) : Statement (.scStep b) := rfl
theorem scPass : Statement (.scPass) := rfl
theorem frChk : Statement (.frChk) := rfl
theorem fxGet (frame : Bytes) (startIdx : Nat) (endIdx : Nat) : Statement (.fxGet frame startIdx endIdx) := rfl
theorem fxHash (frame : Bytes) : Statement (.fxHash frame) := rfl
theorem recDec (frame : Bytes) (schema : Schema) : Statement (.recDec frame schema) := rfl
theorem txSeal (fields : Bytes) : Statement (.txSeal fields) := rfl
theorem txBuild (fields : Bytes) (d : Byte) : Statement (.txBuild fields d) := rfl

end Sys2Proof.Laws.Encoded
end

