-- ==== Sys2Proof/Laws/Trace.lean ====
section
/-! SUPPORT. Laws/Trace.lean: operations one after the other. -/

namespace Sys2Proof.Machine

@[simp] theorem trace_nil (s : State) : trace [] s = some (s, []) := rfl

/-- A first operation that answers. -/
theorem trace_cons {i : Instr} {is : List Instr} {s t u : State} {evs : List Event} (h : exec i s = .next t)
    (h' : trace is t = some (u, evs)) : trace (i :: is) s = some (u, t.events ++ evs) := by
  simp [trace, h, h']

/-- Two runs of operations, one after the other. -/
theorem trace_append {is js : List Instr} {s t u : State} {evs evs' : List Event} (h : trace is s = some (t, evs))
    (h' : trace js t = some (u, evs')) : trace (is ++ js) s = some (u, evs ++ evs') := by
  induction is generalizing s evs with
  | nil => cases h; exact h'
  | cons i is ih =>
    unfold trace at h
    split at h
    · next v hv =>
      split at h
      · next w ws hw =>
        cases h
        rw [List.cons_append, trace_cons hv (ih hw), List.append_assoc]
      · cases h
    · cases h
    · cases h

end Sys2Proof.Machine
end

