-- ==== Sys2Proof/Tests/Slice0.lean ====
section
/-! SUPPORT. Tests/Slice0.lean: small tests, one step each, their expected results from spec/95_test_vectors.md (V.., P..)
or written out from a rule of spec/; and for every statement with hypotheses a witness that meets them. -/

namespace Sys2Proof.Machine.Tests

/-! ## Helpers -/

/-- The next state, if there is one. -/
def after : Host.Outcome State Fault Refusal → Option State
  | .next t => some t
  | .fault _ => none
  | .refused _ => none

/-- The refusal, if there is one. -/
def refusal : Host.Outcome State Fault Refusal → Option Refusal
  | .next _ => none
  | .fault _ => none
  | .refused r => some r

/-- The fault, if there is one. -/
def fault : Host.Outcome State Fault Refusal → Option Fault
  | .next _ => none
  | .fault r => some r
  | .refused _ => none

/-- Status and events of an operation that answers. -/
def reply (i : Instr) (s : State) : Option Reply := (after (exec i s)).bind State.reply

/-- A result without events. -/
def good (v : Result) : Option Reply := some ⟨.ok v, []⟩

/-- An error without events. -/
def bad (e : Err) : Option Reply := some ⟨.err e, []⟩

/-- RB_CAP = 4, MSG_SIZE = 2, PKT_SIZE = 3, DELIM = 0x00, as in spec/95_test_vectors.md 2.1 and 2.5. -/
def small : State := State.resetWith
  { msgSize := 2, delim := 0x00, rbCap := 4, rdBuf := 2, fqCap := 1, dqCap := 1, accOwner := .app }

/-- `small` with the ring registers and RBMEM as given. -/
def ring (head tail size : Nat) (mem : Memory := []) : State := { small with head, tail, size, rbmem := mem }

/-- `small` with some bytes collected in PB. -/
def parsing (readCount : Nat) (pb : Memory) : State := { small with readCount, pb }

/-- Three bytes collected: a full parse buffer. -/
def full3 : State := parsing 3 [(0, 0x05), (1, 0x06), (2, 0x07)]

/-- `small` with a frame queued. -/
def framed (e : Bytes) : State := { small with fq := [e] }

/-- `small` with one action to come. -/
def doing (act : Action) : State := { small with pending := [act] }

/-- An instance with RB_CAP below RD_BUF. -/
def invalidConfig : Config := { small.cfg with rdBuf := 5 }

/-- The bytes `a`, `a + 1`, ..., `n` of them. -/
def upFrom (a n : Nat) : Bytes := (List.range n).map fun k => BitVec.ofNat 8 (a + k)

/-- The sealed frame F9 of spec/95_test_vectors.md 2.6. -/
def f9 : Bytes := [0x34, 0x12, 0x00, 0x03, 0x04, 0xD2, 0xD7, 0x14, 0xF7]

/-- The data of spec/95_test_vectors.md V80. -/
def d9 : Bytes := [0xAA, 0x01, 0x02, 0x03, 0x04, 0xDE, 0xAD, 0xBE, 0xEF]

/-! ## Requests: well-formedness and decoding (30_encoding.md R90-R92) -/

/-- R92: a reserved code. -/
theorem test_wf_reserved_code : Request.codeDefined ⟨0x18, []⟩ = false ∧ Request.wellFormed ⟨0x18, []⟩ = false := by decide

/-- U11: a missing operand, an operand too many, the wrong kind, the wrong order. -/
theorem test_wf_operands :
    Request.operandsFit ⟨0x10, []⟩ .rbEnq = false ∧
    Request.operandsFit ⟨0x11, [.byte 0]⟩ .rbDeq = false ∧
    Request.operandsFit ⟨0x10, [.nat 1]⟩ .rbEnq = false ∧
    Request.operandsFit ⟨0x20, [.byte 0, .seq []]⟩ .cobsEnc = false ∧
    Request.wellFormed ⟨0x50, [.seq [], .nat 0]⟩ = false ∧
    Request.wellFormed ⟨0x50, [.seq [], .nat 0, .nat 0]⟩ = true := by decide

theorem test_decode_rejects : decode ⟨0x00, []⟩ = .error (.reservedCode 0x00) ∧
    decode ⟨0xFF, [.byte 1]⟩ = .error (.reservedCode 0xFF) ∧
    decode ⟨0x10, [.seq [0x01]]⟩ = .error (.operandMismatch 0x10) := ⟨rfl, rfl, rfl⟩

/-- R90: 24 rows, every code once, and the codes of the rows are the defined ones. -/
theorem test_codes : opTable.length = 24 ∧ (opTable.map Op.code).Nodup ∧ opTable.map Op.code = definedCodes := by decide

theorem test_decode_ring : decode ⟨0b00010000, [.byte 0xAB]⟩ = .ok (.rbEnq 0xAB) ∧ decode ⟨0b00010001, []⟩ = .ok .rbDeq ∧
    decode ⟨0b00010010, []⟩ = .ok .rbFull ∧ decode ⟨0b00010011, []⟩ = .ok .rbEmpty ∧
    decode ⟨0b00010100, []⟩ = .ok .rbSize ∧ decode ⟨0b00010101, []⟩ = .ok .rbCap ∧
    decode ⟨0b00010110, []⟩ = .ok .rbClr ∧ decode ⟨0b00010111, []⟩ = .ok .rbSnap :=
  ⟨rfl, rfl, rfl, rfl, rfl, rfl, rfl, rfl⟩

theorem test_decode_codec : decode ⟨0b00100000, [.seq [0x11, 0x22], .byte 0xCF]⟩ = .ok (.cobsEnc [0x11, 0x22] 0xCF) ∧
    decode ⟨0b00100001, [.seq [0x01], .byte 0x00]⟩ = .ok (.cobsDec [0x01] 0x00) := ⟨rfl, rfl⟩

theorem test_decode_checksum : decode ⟨0b00110000, []⟩ = .ok .crcInit ∧ decode ⟨0b00110001, [.byte 0x61]⟩ = .ok (.crcUpd 0x61) ∧
    decode ⟨0b00110010, []⟩ = .ok .crcFin ∧ decode ⟨0b00110011, [.seq [0x61]]⟩ = .ok (.crcSum [0x61]) ∧
    decode ⟨0b00110100, [.seq d9, .schema []]⟩ = .ok (.crcMsum d9 []) := ⟨rfl, rfl, rfl, rfl, rfl⟩

theorem test_decode_scanner : decode ⟨0b01000000, [.byte 0x05]⟩ = .ok (.rxPush 0x05) ∧
    decode ⟨0b01000001, [.byte 0x06]⟩ = .ok (.scStep 0x06) ∧ decode ⟨0b01000010, []⟩ = .ok .scPass ∧
    decode ⟨0b01000011, []⟩ = .ok .frChk := ⟨rfl, rfl, rfl, rfl⟩

theorem test_decode_extractor : decode ⟨0b01010000, [.seq f9, .nat 2, .nat 4]⟩ = .ok (.fxGet f9 2 4) ∧
    decode ⟨0b01010001, [.seq f9]⟩ = .ok (.fxHash f9) ∧
    decode ⟨0b01010010, [.seq f9, .schema []]⟩ = .ok (.recDec f9 []) := ⟨rfl, rfl, rfl⟩

theorem test_decode_outbound : decode ⟨0b01100000, [.seq [0x7E]]⟩ = .ok (.txSeal [0x7E]) ∧
    decode ⟨0b01100001, [.seq [0x7E], .byte 0x00]⟩ = .ok (.txBuild [0x7E] 0x00) := ⟨rfl, rfl⟩

/-- The interface's words: each row's code is read as that row, and step runs it as the first operation after reset. -/
theorem test_table_words :
    decodeTableWord 8 0x41 = some (.scStep 0x00) ∧ decodeTableWord 8 0x18 = none ∧
    (opTable.all fun o => (decodeTableWord 8 o.code.toNat).map Instr.op == some o) = true ∧
    (opTable.all fun o => (after (step (State.reset.withFetchWord 8 o.code.toNat))).isSome) = true := by decide +kernel

/-- 60_exceptions.md R220: the numbers of the codes. -/
theorem test_numbers :
    [Status.number (.ok .unit), Status.number .hold, Err.number .full, Err.number .empty, Err.number .emptyInput,
      Err.number (.zeroLength 0), Err.number (.truncatedFrame 0), Err.number (.invalidFieldRange none),
      Err.number (.frameTooShort 4), Warning.number (.delimiterMismatch 0), Warning.number (.delimiterMissing 1),
      Warning.number (.bufferOverrun 9), Warning.number (.lengthMismatch 1), Err.number .rxOverflow,
      Err.number .disconnected, Err.number .configInvalid, Err.number (.illegalOp 0)] =
    [0x00, 0x01, 0x10, 0x11, 0x20, 0x21, 0x22, 0x30, 0x31, 0x40, 0x41, 0x42, 0x43, 0x50, 0x51, 0x60, 0x61] := by decide

/-! ## Ring buffer (95_test_vectors.md 2.1) -/

/-- V2: the tail wraps. -/
theorem test_rbEnq_wraps : (after (exec (.rbEnq 0xAA) (ring 3 3 0))).map (fun t => (t.rbmem, t.head, t.tail, t.size)) =
    some ([(3, 0xAA)], 3, 0, 1) := by decide

/-- V4. -/
theorem test_rbEnq_full : reply (.rbEnq 0x07) (ring 2 2 4) = bad .full := by decide

/-- V3: the head wraps. -/
theorem test_rbDeq_wraps : reply .rbDeq (ring 3 0 1 [(3, 0xAA)]) = good (.byte 0xAA) ∧
    (after (exec .rbDeq (ring 3 0 1 [(3, 0xAA)]))).map (fun t => (t.head, t.tail, t.size)) = some (0, 0, 0) := by decide

/-- V5. -/
theorem test_rbDeq_empty : reply .rbDeq (ring 1 1 0) = bad .empty := by decide

/-- V7: full and empty are told apart though head = tail in both. -/
theorem test_queries : reply .rbFull (ring 2 2 4) = good (.bool true) ∧ reply .rbEmpty (ring 2 2 4) = good (.bool false) ∧
    reply .rbSize (ring 2 2 4) = good (.nat 4) ∧ reply .rbCap (ring 2 2 4) = good (.nat 4) := by decide

/-- R103, R104 on an empty ring. -/
theorem test_queries_empty : reply .rbFull (ring 2 2 0) = good (.bool false) ∧
    reply .rbEmpty (ring 2 2 0) = good (.bool true) := by decide

/-- V8. -/
theorem test_rbClr : (after (exec .rbClr (ring 2 1 3 [(2, 0x09)]))).map (fun t => (t.head, t.tail, t.size, t.rbmem)) =
    some (0, 0, 0, [(2, 0x09)]) := by decide

/-- V6: the copy has two parts; V9. -/
theorem test_rbSnap : reply .rbSnap (ring 2 2 4 [(0, 0x05), (1, 0x06), (2, 0x03), (3, 0x04)]) =
      good (.seq [0x03, 0x04, 0x05, 0x06]) ∧
    reply .rbSnap (ring 1 1 0 [(1, 0x06)]) = good (.seq []) := by decide

/-! ## Codec (95_test_vectors.md 2.2, 2.3) -/

/-- V20, V22, V24, V28. -/
theorem test_cobsEnc : reply (.cobsEnc [0x11, 0x22, 0x00, 0x33] 0x00) small = good (.seq [0x03, 0x11, 0x22, 0x02, 0x33, 0x00]) ∧
    reply (.cobsEnc [0xCF] 0xCF) small = good (.seq [0x01, 0x01, 0xCF]) ∧
    reply (.cobsEnc [0x00] 0xCF) small = good (.seq [0x02, 0x00, 0xCF]) ∧
    reply (.cobsEnc [0x11, 0x01] 0x01) small = good (.seq [0x02, 0x11, 0x01, 0x01]) := by decide

/-- V29, V30: 253 literals fit one block, 254 close it and an empty last block follows. -/
theorem test_cobsEnc_run : reply (.cobsEnc (upFrom 1 253) 0x00) small = good (.seq ([0xFE] ++ upFrom 1 253 ++ [0x00])) ∧
    reply (.cobsEnc (upFrom 1 254) 0x00) small = good (.seq ([0xFF] ++ upFrom 1 254 ++ [0x01, 0x00])) := by
  decide +kernel

/-- V51, V56, V60, V65. -/
theorem test_cobsDec : reply (.cobsDec [0x03, 0x11, 0x22, 0x02, 0x33] 0x00) small = good (.seq [0x11, 0x22, 0x00, 0x33]) ∧
    reply (.cobsDec [0x01, 0x01, 0x01, 0x00] 0x00) small = good (.seq [0x00, 0x00]) ∧
    reply (.cobsDec [0x02, 0xCF, 0x01] 0xCF) small = good (.seq [0xCF, 0xCF]) ∧
    reply (.cobsDec [0x02, 0x11, 0x01] 0x01) small = good (.seq [0x11]) := by decide

/-- V52, V54, V57, V59. -/
theorem test_cobsDec_errors : reply (.cobsDec [] 0x00) small = bad .emptyInput ∧
    reply (.cobsDec [0x00, 0x00] 0x00) small = bad (.zeroLength 0) ∧
    reply (.cobsDec [0x03, 0x11] 0x00) small = bad (.truncatedFrame 0) ∧
    reply (.cobsDec [0x02, 0x11, 0x00, 0x11] 0x00) small = bad (.zeroLength 2) := by decide

/-! ## Checksum (95_test_vectors.md 2.4) -/

/-- V77. -/
theorem test_crcUpd : (after (exec (.crcUpd 0x01) small)).map State.acc = some 0x5AFA20E4 := by decide +kernel

/-- R141, from another value of ACC. -/
theorem test_crcInit : (after (exec .crcInit { small with acc := 0x12345678 })).map State.acc = some 0xFFFFFFFF := by decide

/-- V77: ACC is kept. -/
theorem test_crcFin : reply .crcFin { small with acc := 0x5AFA20E4 } = good (.word 0xA505DF1B) ∧
    (after (exec .crcFin { small with acc := 0x5AFA20E4 })).map State.acc = some 0x5AFA20E4 := by decide

/-- V70, V75 ("123456789"). -/
theorem test_crcSum : reply (.crcSum []) small = good (.word 0x00000000) ∧
    reply (.crcSum [0x31, 0x32, 0x33, 0x34, 0x35, 0x36, 0x37, 0x38, 0x39]) small = good (.word 0xCBF43926) := by
  decide +kernel

/-- V80, V81, V85: no mask, a mask inside the window, a mask reaching into the trailer. -/
theorem test_crcMsum : reply (.crcMsum d9 []) small = good (.word 0xB63CFBCD) ∧
    reply (.crcMsum d9 [{ startIdx := 2, endIdx := 3, zerofill := true }]) small = good (.word 0x9E957C60) ∧
    reply (.crcMsum d9 [{ startIdx := 4, endIdx := 6, zerofill := true }]) small = good (.word 0xB1513FD4) := by
  decide +kernel

/-- V79, V83. -/
theorem test_crcMsum_errors : reply (.crcMsum [0x09, 0x09, 0x09, 0x09] []) small = bad (.frameTooShort 4) ∧
    reply (.crcMsum d9 [{ startIdx := 5, endIdx := 9, zerofill := true }]) small =
      bad (.invalidFieldRange (some (0, []))) := by decide +kernel

/-! ## Ingest, scanner, pass, deframer (95_test_vectors.md 2.5) -/

/-- 2.5, overflow: the byte is lost and FATAL is set; then Disconnected, and RB.DEQ still works (R233). -/
theorem test_rxPush_overflow : reply (.rxPush 0x05) (ring 0 0 4) = bad .rxOverflow ∧
    (after (exec (.rxPush 0x05) (ring 0 0 4))).map (fun t => (t.fatal, t.size)) = some (true, 4) ∧
    reply (.rxPush 0x06) { ring 0 0 4 with fatal := true } = bad .disconnected ∧
    reply .rbDeq { ring 0 0 4 [(0, 0x01)] with fatal := true } = good (.byte 0x01) := by decide

/-- R160. -/
theorem test_rxPush : (after (exec (.rxPush 0x04) (ring 0 3 3))).map (fun t => (t.rbmem, t.tail, t.size)) =
    some ([(3, 0x04)], 0, 4) := by decide

/-- V40, its fourth byte; V43, its fourth byte. -/
theorem test_scStep_full : reply (.scStep 0x00) full3 = some ⟨.ok .unit, [.frame [0x05, 0x06, 0x07]]⟩ ∧
    reply (.scStep 0x04) full3 = some ⟨.ok .unit, [.warn (.delimiterMissing 0x04)]⟩ ∧
    (after (exec (.scStep 0x04) full3)).map State.readCount = some 0 := by decide

/-- V42, V41's second byte, V40's third byte. -/
theorem test_scStep_notFull : reply (.scStep 0x00) small = some ⟨.ok .unit, [.warn (.delimiterMismatch 0)]⟩ ∧
    reply (.scStep 0x00) (parsing 1 [(0, 0x05)]) = some ⟨.ok .unit, [.warn (.delimiterMismatch 1)]⟩ ∧
    (after (exec (.scStep 0x07) (parsing 2 [(0, 0x05), (1, 0x06)]))).map (fun t => (t.readCount, t.pb)) =
      some (3, [(0, 0x05), (1, 0x06), (2, 0x07)]) := by decide

/-- 2.5, gate: two bytes are gated, three are drained without an event. -/
theorem test_scPass_gate : reply .scPass (ring 0 2 2 [(0, 0x05), (1, 0x06)]) = good (.pass .gated) ∧
    reply .scPass (ring 0 3 3 [(0, 0x05), (1, 0x06), (2, 0x07)]) = good (.pass .drained) ∧
    (after (exec .scPass (ring 0 3 3 [(0, 0x05), (1, 0x06), (2, 0x07)]))).map (fun t => (t.readCount, t.size, t.head)) =
      some (3, 0, 3) := by decide

/-- 2.5, gate: a delimiter then emits the frame; R172: held, nothing consumed, with FQ full. -/
theorem test_scPass_frame : reply .scPass { full3 with tail := 1, size := 1 } =
      some ⟨.ok (.pass .drained), [.frame [0x05, 0x06, 0x07]]⟩ ∧
    reply .scPass { full3 with tail := 1, size := 1, fq := [[0x01, 0x02, 0x03]] } = good (.pass .held) ∧
    (after (exec .scPass { full3 with tail := 1, size := 1, fq := [[0x01, 0x02, 0x03]] })).map State.size = some 1 := by decide

/-- V45, V46, V48. -/
theorem test_frChk : reply .frChk (framed [0x05, 0x06, 0x07]) = some ⟨.ok .unit, [.error (.truncatedFrame 0)]⟩ ∧
    reply .frChk (framed [0x03, 0x06, 0x07]) = some ⟨.ok .unit, [.data [0x06, 0x07]]⟩ ∧
    reply .frChk (framed [0x01, 0x02, 0x0D]) = some ⟨.ok .unit, [.data [0x00, 0x0D]]⟩ ∧
    (after (exec .frChk (framed [0x03, 0x06, 0x07]))).map (fun t => (t.fq, t.dq)) = some ([], [[0x06, 0x07]]) := by decide

/-- R176: nothing to do; no room. -/
theorem test_frChk_hold : reply .frChk small = some ⟨.hold, []⟩ ∧
    reply .frChk { framed [0x03, 0x06, 0x07] with dq := [[0x01, 0x02]] } = some ⟨.hold, []⟩ := by decide

/-! ## Extractor and record decoder (95_test_vectors.md 2.6) -/

/-- V91, V92, V93, V94. -/
theorem test_fxGet : reply (.fxGet f9 0 1) small = good (.value (.integer 0x00001234)) ∧
    reply (.fxGet f9 2 4) small = good (.value (.integer 0x00040300)) ∧
    reply (.fxGet f9 5 8) small = good (.value (.integer 0xF714D7D2)) ∧
    reply (.fxGet f9 4 8) small = good (.value (.bytes [0x04, 0xD2, 0xD7, 0x14, 0xF7])) := by decide +kernel

/-- V95, V96, V97: the end index is inclusive. -/
theorem test_fxGet_bounds : reply (.fxGet f9 8 8) small = good (.value (.integer 0x000000F7)) ∧
    reply (.fxGet f9 8 9) small = bad (.invalidFieldRange none) ∧
    reply (.fxGet f9 3 2) small = bad (.invalidFieldRange none) := by decide +kernel

/-- V101, V102. -/
theorem test_fxHash : reply (.fxHash f9) small = good (.word 0xF714D7D2) ∧
    reply (.fxHash [0x01, 0x02, 0x03]) small = bad (.frameTooShort 3) := by decide +kernel

/-- V104: the hashes differ and the record is still returned. -/
theorem test_recDec : reply (.recDec f9 [{ name := ['X'], startIdx := 0, endIdx := 1 },
      { name := ['Y'], startIdx := 2, endIdx := 4, zerofill := true }]) small =
    good (.record [(calculatedHashName, .integer 0xDB544008), (desiredHashName, .integer 0xF714D7D2),
      (['X'], .integer 0x1234), (['Y'], .integer 0x040300)]) := by decide +kernel

/-- V106, V108, V109. -/
theorem test_recDec_errors : reply (.recDec f9 [{ name := ['A'], startIdx := 0, endIdx := 0 },
      { name := ['B'], startIdx := 7, endIdx := 9 }]) small = bad (.invalidFieldRange (some (1, ['B']))) ∧
    reply (.recDec f9 [{ startIdx := 7, endIdx := 9, zerofill := true }]) small =
      bad (.invalidFieldRange (some (0, []))) ∧
    reply (.recDec [0x01, 0x02, 0x03, 0x04] []) small = bad (.frameTooShort 4) := by decide +kernel

/-! ## Outbound (95_test_vectors.md 2.7) -/

/-- V120, V123. -/
theorem test_txSeal : reply (.txSeal [0x34, 0x12, 0x02, 0x03, 0x04]) small =
      good (.seq [0x34, 0x12, 0x02, 0x03, 0x04, 0xBC, 0x03, 0x90, 0xF4]) ∧
    reply (.txSeal []) small = bad (.frameTooShort 4) := by decide +kernel

/-- V124, V125. -/
theorem test_txBuild : reply (.txBuild [0x7E] 0x00) small = good (.seq [0x02, 0x7E, 0x01, 0x01, 0x01, 0x01, 0x00]) ∧
    reply (.txBuild [0x34, 0x12, 0x00, 0x03, 0x04] 0x00) small =
      good (.seq [0x03, 0x34, 0x12, 0x07, 0x03, 0x04, 0xD2, 0xD7, 0x14, 0xF7, 0x00]) := by decide +kernel

/-! ## Witnesses: for each statement with hypotheses, states and operands that meet them all, clause by clause -/

/-- Every operation of a list answers in a state. -/
def allAnswer (is : List Instr) (s : State) : Bool := is.all fun i => (after (exec i s)).isSome

/-- One request of each operation. -/
def oneEach : List Instr :=
  [.rbEnq 0x01, .rbDeq, .rbFull, .rbEmpty, .rbSize, .rbCap, .rbClr, .rbSnap, .cobsEnc [0x01] 0x00, .cobsDec [0x01] 0x00,
   .crcInit, .crcUpd 0x01, .crcFin, .crcSum [0x01], .crcMsum d9 [], .rxPush 0x01, .scStep 0x01, .scPass, .frChk,
   .fxGet f9 0 1, .fxHash f9, .recDec f9 [], .txSeal [0x7E], .txBuild [0x7E] 0x00]

/-- A state far from reset: the ring wrapped and full, one byte collected, a frame and a RawFrame queued. -/
def busy : State :=
  { ring 2 2 4 [(0, 0x05), (1, 0x06), (2, 0x03), (3, 0x04)] with
    readCount := 1, pb := [(0, 0x09)], fq := [[0x05, 0x06, 0x07]], dq := [[0x0A, 0x00]] }

/-- The state of a full parse buffer with FQ full. -/
def blocked : State := { full3 with fq := [[0x01, 0x02, 0x03]] }

/-- A delimiter waits in the ring in front of a full FQ. -/
def waiting : State := { blocked with tail := 1, size := 1 }

/-- An instance whose configuration is invalid. -/
def invalid : State := State.resetWith invalidConfig

theorem test_busy_inv : busy.Inv ∧ blocked.Inv := by decide

theorem test_reset_inv : invalid.Inv ∧ small.Inv ∧ State.reset.Inv :=
  ⟨by decide, by decide, by decide⟩

/-- R9: the four tests, each at its boundary. -/
theorem test_config_boundaries : small.cfg.valid = true ∧ { small.cfg with msgSize := 1, rdBuf := 1, rbCap := 1 : Config }.valid = true ∧
    { small.cfg with msgSize := 0 : Config }.valid = false ∧ { small.cfg with rdBuf := 0 : Config }.valid = false ∧
    { small.cfg with rdBuf := 0, rbCap := 0 : Config }.valid = false ∧ { small.cfg with rdBuf := 4 : Config }.valid = true ∧
    invalidConfig.valid = false := by decide

theorem witness_ReservedCodesAnswerIllegalOp :
    (doing (.issue .app ⟨0x0F, []⟩)).pending = [.issue .app ⟨0x0F, []⟩] ∧ (0x0F : Byte) ∉ definedCodes ∧
      (0x18 : Byte) ∉ definedCodes ∧ (0x62 : Byte) ∉ definedCodes ∧ (0x10 : Byte) ∈ definedCodes ∧
      (0x61 : Byte) ∈ definedCodes := by decide

theorem witness_StepRunsDecodedOperation :
    (doing (.issue .reader ⟨0x10, [.byte 5]⟩)).pending = [.issue .reader ⟨0x10, [.byte 5]⟩] ∧
      decode ⟨0x10, [.byte 5]⟩ = .ok (.rbEnq 5) ∧ mayIssue small.cfg .reader (.rbEnq 5) = true := ⟨rfl, rfl, rfl⟩

/-- One owner of each kind, and another agent than APP with a pure operation: each step answers. -/
theorem witness_StepRunsDecodedOperation_owners :
    (after (step (doing (.issue .reader (encode .scPass))))).map State.status = some (some (.ok (.pass .gated))) ∧
    (after (step (doing (.issue .deframer (encode .frChk))))).map State.status = some (some .hold) ∧
    (after (step (doing (.issue small.cfg.accOwner (encode .crcInit))))).map State.status = some (some (.ok .unit)) ∧
    (after (step (doing (.issue .reader (encode (.cobsEnc [] 0x00)))))).map State.status =
      some (some (.ok (.seq [0x00]))) := by decide

/-- Each of the seven clauses. -/
theorem witness_StepOnOtherActions :
    (small.cfgErr = false ∧ Agent.app ≠ .reader ∧
      refusal (step (doing (.issue .app (encode .rbDeq)))) = some (.notOwner .app)) ∧
    (refusal (step (doing (.issue .reader (encode .frChk)))) = some (.notOwner .reader)) ∧
    (Agent.reader ≠ small.cfg.accOwner ∧ writesAcc (.crcUpd 1) = true ∧
      refusal (step (doing (.issue .reader (encode (.crcUpd 1))))) = some (.notOwner .reader)) ∧
    ((0x10 : Byte) ∈ definedCodes ∧ refusal (step (doing (.issue .reader ⟨0x10, []⟩))) = some (.badOperands 0x10)) ∧
    ((after (step { busy with pending := [.takeData] })).map (fun t => (t.dq, t.status)) =
      some ([], some (.ok (.seq [0x0A, 0x00])))) ∧
    ((after (step (doing .takeData))).map State.status = some (some .hold)) ∧
    (small.pending = [] ∧ (after (step { small with reply := bad .full })) = some small) := by decide

/-- A request that is no encoding of any operation. -/
theorem witness_StepOnOtherActions_badOperands (i : Instr) : (⟨0x10, []⟩ : Request) ≠ encode i := by
  intro h; cases i <;> simp [encode, Instr.op, Op.code, Instr.operands] at h

theorem witness_HostReset :
    { busy with pending := [.reset small.cfg, .takeData] }.pending = .reset small.cfg :: [.takeData] ∧
      (after (step { busy with fatal := true, pending := [.reset small.cfg, .takeData] })).map
        (fun t => (t.contents, t.fatal, t.cfgErr, t.pending)) = some ([], false, false, [.takeData]) ∧
      (after (step { busy with pending := [.reset invalidConfig] })).map State.cfgErr = some true := by decide

theorem witness_StepKeepsInvariant : { busy with pending := [.issue .reader (encode .rbDeq)] }.Inv ∧
    (after (step { busy with pending := [.issue .reader (encode .rbDeq)] })).isSome := by decide

theorem witness_EveryOperationAnswers : busy.Inv ∧ allAnswer oneEach busy = true ∧ oneEach.map Instr.op = opTable := by
  decide +kernel

theorem witness_InvalidConfigurationRefusesAll : invalid.cfgErr = true ∧
    (oneEach.all fun i => reply i invalid == bad .configInvalid) = true ∧
    { invalid with pending := [.issue .app (encode .rbDeq)] }.pending = .issue .app (encode .rbDeq) :: [] := by decide

theorem witness_FatalLatch :
    ({ small with fatal := true }.cfgErr = false ∧ onTransportPath .scPass = true ∧ onTransportPath (.rxPush 1) = true ∧
      onTransportPath (.scStep 1) = true ∧ reply .scPass { small with fatal := true } = bad .disconnected) ∧
    (onTransportPath .rbDeq = false) ∧
    (allAnswer oneEach { busy with fatal := true } = true) ∧
    (busy.fatal = false ∧ (after (exec (.rxPush 1) busy)).map State.fatal = some true) ∧
    ((after (step { busy with fatal := true, pending := [.reset small.cfg] })).map State.fatal = some false ∧
      (after (step { busy with fatal := true })).map State.fatal = some true) := by decide +kernel

theorem witness_NonOkStatusesArePrecise : reply .rbDeq small = bad .empty ∧ reply (.rxPush 1) busy = bad .rxOverflow ∧
    reply .frChk small = some ⟨.hold, []⟩ ∧ reply (.scStep 0x04) full3 = some ⟨.ok .unit, [.warn (.delimiterMissing 0x04)]⟩ := by
  decide

theorem witness_HoldExactlyWhenBlocked : reply (.scStep 0x00) blocked = some ⟨.hold, []⟩ ∧
    reply .frChk small = some ⟨.hold, []⟩ ∧ reply .frChk busy = some ⟨.hold, []⟩ ∧
    reply (.scStep 0x01) blocked ≠ some ⟨.hold, []⟩ ∧
    (full3.fq = [] ∧ full3.cfg.fqCap = 1 ∧ (after (exec (.scStep 0x00) full3)).isSome) ∧
    (blocked.fq ≠ [] ∧ blocked.dq = [] ∧ blocked.cfg.dqCap = 1 ∧ (after (exec .frChk blocked)).isSome) := by decide

theorem witness_OperationsWriteOnlyTheirColumns : allAnswer oneEach small = true ∧ writesRbmem .rbDeq = false ∧
    writesHead (.rbEnq 1) = false ∧ writesTail .rbDeq = false ∧ writesSize (.scStep 1) = false ∧
    writesParse (.rxPush 1) = false ∧ writesAcc (.crcSum []) = false ∧ writesFatal .scPass = false ∧
    writesFq .rbClr = false ∧ writesDq .scPass = false := by decide +kernel

theorem witness_StorageBytesFrame :
    (after (exec (.rbEnq 1) small)).isSome ∧ writesRbmem (.rbEnq 1) = true ∧ 1 ≠ small.tail ∧
    (after (exec (.scStep 1) small)).isSome ∧ 1 ≠ small.readCount ∧
    (after (exec .scPass busy)).isSome ∧ busy.cfg.pktSize ≤ 3 := by decide

theorem witness_PureOperationsDependOnOperandsOnly : pureOp (.fxHash f9) = true ∧ small.cfgErr = false ∧
    busy.cfgErr = false ∧ reply (.fxHash f9) small = reply (.fxHash f9) busy := by decide

theorem witness_ReadsAreRepeatable : allAnswer [.rbSnap, .rbSize, .crcFin, .txSeal [0x7E]] busy = true ∧
    pureOp (.txSeal [0x7E]) = true := by decide +kernel

/-- Each clause: full, and one place left at the last index. -/
theorem witness_RbEnqStoresAtTail : (busy.cfgErr = false ∧ busy.size = busy.cfg.rbCap) ∧
    ((ring 0 3 3).size ≠ small.cfg.rbCap ∧ (ring 0 3 3).tail < small.cfg.rbCap ∧ (ring 0 3 3).rbmem.wf = true) := by decide

theorem witness_RbDeqTakesAtHead : (small.cfgErr = false ∧ small.size = 0) ∧
    ((ring 3 0 1).size ≠ 0 ∧ (ring 3 0 1).head < small.cfg.rbCap) := by decide

/-- Both copies of RB.SNAP: one part up to the last index, two parts. -/
theorem witness_RbSnapCopiesInLogicalOrder : (ring 2 0 2).RingInv ∧ (ring 2 0 2).head + (ring 2 0 2).size ≤ 4 ∧
    busy.RingInv ∧ ¬ busy.head + busy.size ≤ busy.cfg.rbCap ∧ busy.cfgErr = false := by decide

theorem witness_RingRefinesBoundedFifo : busy.Inv ∧ busy.cfgErr = false ∧
    fifoStep busy.cfg.rbCap busy.contents (.rbEnq 1) = some (.err .full, [0x03, 0x04, 0x05, 0x06]) ∧
    fifoStep small.cfg.rbCap small.contents .rbDeq = some (.err .empty, []) ∧
    fifoStep busy.cfg.rbCap busy.contents .rbDeq = some (.ok (.byte 0x03), [0x04, 0x05, 0x06]) := by decide

theorem witness_EnqueuedBytesLeaveInOrder : (ring 3 3 0).Inv ∧ (ring 3 3 0).cfgErr = false ∧ (ring 3 3 0).size = 0 ∧
    [0x01, 0x02, 0x03, 0x04].length ≤ small.cfg.rbCap := by decide

/-- Each of the five faults at the first index outside, and a state of the invariant with CFGERR 0. -/
theorem witness_RingIndexOutsideArrayFaults :
    fault (exec (.rbEnq 1) (ring 0 4 0)) = some .ringIndex ∧ fault (exec (.rxPush 1) (ring 0 4 0)) = some .ringIndex ∧
    fault (exec .rbDeq (ring 4 0 1)) = some .ringIndex ∧
    fault (exec .rbSnap { ring 0 0 1 with cfg := { small.cfg with rbCap := 0 } }) = some .ringIndex ∧
    fault (exec .scPass (ring 4 0 3)) = some .ringIndex ∧ busy.Inv ∧ busy.cfgErr = false := by decide

theorem witness_EncodedLength : cobsEncode [] 0x00 = [0x00] ∧ ([0x01] : Bytes) ≠ [] ∧
    1 ≤ (upFrom 1 253).length ∧ (upFrom 1 253).length ≤ 253 := by decide +kernel

theorem witness_FullRunsChain : (upFrom 1 254).length = 254 ∧ (0x00 : Byte) ∉ upFrom 1 254 ∧ (0x01 : Byte) ≠ 0x00 := by
  decide +kernel

/-- The only hypothesis of RbQueriesReturnRegisters, RbClrKeepsStorage, CobsEncMatchesPseudocode,
CobsDecMatchesPseudocode, CodecRoundTrip, CrcInitAndFin, CrcUpdTableForm, CrcSumIsInitUpdFin. -/
theorem witness_validConfiguration : small.cfgErr = false := by decide

theorem witness_TerminatorlessRoundTrip : ([0x00] : Bytes) ≠ [] ∧ (0x00 : Byte) ≠ 0x01 ∧ (0xFF : Byte) ≠ 0x01 := by decide

theorem witness_DecodedLength : (0x00 : Byte) ∉ ([0x02, 0x11, 0x01] : Bytes) ∧
    cobsDecode [0x02, 0x11, 0x01] 0x00 = .ok [0x11, 0x00] ∧ cobsDecode [0x01] 0x00 = .ok [] ∧
    cobsDecode [0x00] 0x00 = .ok [] := ⟨by decide, rfl, rfl, rfl⟩

theorem witness_SafeDelimiterOnlyTerminates : (upFrom 0 253).length ≤ 253 ∧
    (upFrom 0 253).length + 1 < (0xFF : Byte).toNat ∧ ([] : Bytes).length + 1 < (0x02 : Byte).toNat := by decide +kernel

/-- At the shortest data, and with a mask up to the last byte. -/
theorem witness_Msum : 5 ≤ [0x09, 0x09, 0x09, 0x09, 0x09].length ∧ small.cfgErr = false ∧
    (∀ f ∈ ([{ startIdx := 8, endIdx := 8, zerofill := true }] : Schema),
      f.zerofill = true → f.startIdx ≤ f.endIdx ∧ f.endIdx < d9.length) := by decide

/-- Four bytes, five bytes, and a first invalid range behind a valid one, by one byte too far and by an inverted range. -/
theorem witness_MsumErrors : [0x09, 0x09, 0x09, 0x09].length < 5 ∧ [0x09, 0x09, 0x09, 0x09, 0x09].length = 5 ∧
    5 ≤ d9.length ∧
    (∀ g ∈ ([{ startIdx := 0, endIdx := 8, zerofill := true }] : Schema),
      g.zerofill = true → g.startIdx ≤ g.endIdx ∧ g.endIdx < d9.length) ∧
    ¬(5 ≤ 9 ∧ 9 < d9.length) ∧ ¬(3 ≤ 2 ∧ 2 < d9.length) := by decide

/-- Byte 0 and the trailer differ. -/
theorem witness_MsumIgnoresMaskedBytes : ([0xFF, 0x01, 0x02, 0x03, 0x04, 0, 0, 0, 0] : Bytes).length = d9.length ∧
    ∀ k < 9, 1 ≤ k → k + 4 < d9.length → ([0xFF, 0x01, 0x02, 0x03, 0x04, 0, 0, 0, 0] : Bytes)[k]? = d9[k]? := by decide

/-- The first and the last byte of the window. -/
theorem witness_MsumDetectsSingleByteChange : 1 + 4 < d9.length ∧ d9[1]? ≠ some 0x00 ∧ 4 + 4 < d9.length ∧
    d9[4]? ≠ some 0x00 ∧
    (∀ f ∈ ([{ startIdx := 2, endIdx := 3, zerofill := true }] : Schema), f.zerofill = true →
      f.startIdx ≤ f.endIdx ∧ f.endIdx < d9.length ∧ ¬(f.startIdx ≤ 4 ∧ 4 ≤ f.endIdx)) := by decide

theorem witness_RxPushStoresOrLatches : ({ busy with fatal := true }.fatal = true) ∧ (busy.cfgErr = false ∧ busy.fatal = false ∧ busy.size = busy.cfg.rbCap) ∧
    ((ring 0 3 3).size ≠ small.cfg.rbCap ∧ (ring 0 3 3).tail < small.cfg.rbCap ∧ (ring 0 3 3).rbmem.wf = true) := by decide

/-- Each row of the table, at readCount 0, PKT_SIZE - 1 and PKT_SIZE. -/
theorem witness_ScStepTransitionTable : small.cfgErr = false ∧ small.fatal = false ∧
    ((parsing 2 []).readCount < small.cfg.pktSize ∧ (0x01 : Byte) ≠ small.cfg.delim ∧ (parsing 2 []).pb.wf = true) ∧
    (small.readCount < small.cfg.pktSize) ∧
    (full3.readCount = full3.cfg.pktSize ∧ full3.fq.length ≠ full3.cfg.fqCap) ∧
    (blocked.readCount = blocked.cfg.pktSize ∧ blocked.fq.length = blocked.cfg.fqCap) := by decide

theorem witness_EmittedFramesAreWellFormed : full3.Inv ∧ (after (exec (.scStep 0x00) full3)).map State.events =
      some [.frame [0x05, 0x06, 0x07]] ∧
    (framed [0x03, 0x06, 0x07]).Inv ∧ (after (exec .frChk (framed [0x03, 0x06, 0x07]))).map State.events =
      some [.data [0x06, 0x07]] := by decide

/-- At PKT_SIZE + 1, a state no run reaches; and a state of the invariant. -/
theorem witness_BufferOverrunOnlyOutsideInvariant : small.cfg.pktSize < (parsing 4 []).readCount ∧
    (0x01 : Byte) ≠ small.cfg.delim ∧
    reply (.scStep 0x01) (parsing 4 []) = some ⟨.ok .unit, [.warn (.bufferOverrun 5)]⟩ ∧
    full3.ScannerInv ∧ (after (exec (.scStep 0x01) full3)).isSome := by decide

theorem witness_PacketOfBytesEmitsOneFrame : small.readCount = 0 ∧ small.pb.wf = true ∧
    small.cfg.delim ∉ ([0x05, 0x06, 0x07] : Bytes) ∧ ([0x05, 0x06, 0x07] : Bytes).length = small.cfg.pktSize ∧
    small.fq.length ≠ small.cfg.fqCap ∧ ([0x05, 0x06] : Bytes).length < small.cfg.pktSize ∧
    ([] : Bytes).length < small.cfg.pktSize := by decide

/-- A delimiter behind two bytes that fill the parse buffer, in front of a full FQ. -/
def waitingThird : State :=
  { parsing 1 [(0, 0x05)] with fq := [[0x01, 0x02, 0x03]], tail := 3, size := 3, rbmem := [(0, 0x06), (1, 0x07)] }

/-- Fatal, below the gate by one, at the gate, held at the first byte and at the third. -/
theorem witness_PassIsDequeueThenStep : ((ring 0 2 2).Inv ∧ (ring 0 2 2).readCount + (ring 0 2 2).size < small.cfg.pktSize) ∧
    ((ring 0 3 3).Inv ∧ small.cfg.pktSize ≤ (ring 0 3 3).readCount + (ring 0 3 3).size) ∧
    (waiting.Inv ∧ reply .scPass waiting = good (.pass .held)) ∧
    (waitingThird.Inv ∧ small.cfg.pktSize ≤ waitingThird.readCount + waitingThird.size ∧
      reply .scPass waitingThird = good (.pass .held) ∧
      (after (exec .scPass waitingThird)).map State.contents = some [0x00]) ∧
    (State.Inv { waiting with fatal := true } ∧ waiting.cfgErr = false) :=
  ⟨by decide, by decide, by decide, by decide, by decide⟩

/-- RD_BUF = 2 and MSG_SIZE = 2 leave room for a read of two bytes in a ring of four. -/
theorem witness_ReaderLoopNeverOverflows : (ring 0 2 2).Inv ∧ reply .scPass (ring 0 2 2) = good (.pass .gated) ∧
    small.cfg.rdBuf + small.cfg.msgSize ≤ small.cfg.rbCap ∧ ([0x01, 0x02] : Bytes).length ≤ small.cfg.rdBuf := by decide

/-- A ring of one byte, full, in front of packets of three. -/
theorem witness_SmallRingNeverScans :
    let s : State := { ring 0 0 1 with cfg := { small.cfg with msgSize := 2, rdBuf := 1, rbCap := 1 } }
    s.RingInv ∧ s.cfgErr = false ∧ s.fatal = false ∧ s.readCount = 0 ∧ s.cfg.rbCap < s.cfg.pktSize ∧
      s.size = s.cfg.rbCap := by decide

/-- Each clause: nothing queued, no room, an error, a RawFrame, a wrong length (a frame of two bytes). -/
theorem witness_FrChkDeliversOrReports : small.fq = [] ∧ busy.dq.length = busy.cfg.dqCap ∧
    (framed [0x05, 0x06, 0x07]).dq.length ≠ small.cfg.dqCap ∧
    reply (.cobsDec [0x05, 0x06, 0x07] 0x00) small = bad (.truncatedFrame 0) ∧
    reply (.cobsDec [0x03, 0x06, 0x07] 0x00) small = good (.seq [0x06, 0x07]) ∧
    ([0x06, 0x07] : Bytes).length = small.cfg.msgSize ∧
    reply (.cobsDec [0x02, 0x07] 0x00) small = good (.seq [0x07]) ∧
    ([0x07] : Bytes).length ≠ small.cfg.msgSize := by decide

theorem witness_NoLengthMismatchUpTo254 : (framed [0x03, 0x06, 0x07]).Inv ∧ small.cfg.pktSize ≤ 255 ∧
    (after (exec .frChk (framed [0x03, 0x06, 0x07]))).isSome := by decide

theorem witness_InboundEndToEnd : (ring 3 3 0).Inv ∧ (ring 3 3 0).cfgErr = false ∧ (ring 3 3 0).fatal = false ∧
    (ring 3 3 0).size = 0 ∧ (ring 3 3 0).readCount = 0 ∧ (ring 3 3 0).fq = [] ∧
    (ring 3 3 0).dq.length < small.cfg.dqCap ∧ ([0x0C, 0x00] : Bytes).length = small.cfg.msgSize ∧
    small.cfg.msgSize ≤ 253 ∧ small.cfg.msgSize + 2 ≤ small.cfg.rbCap ∧
    small.cfg.delim ∉ (cobsEncode [0x0C, 0x00] small.cfg.delim).dropLast := by decide

/-- Two states with different stale bytes in RBMEM and in PB. -/
theorem witness_StaleStorageNeverObserved : { full3 with readCount := 1 }.Inv ∧ (parsing 1 [(0, 0x05)]).Inv ∧
    State.SameVisible { full3 with readCount := 1, rbmem := [(0, 0x44)] } (parsing 1 [(0, 0x05)]) ∧
    (after (exec (.scStep 0x06) { full3 with readCount := 1 })).isSome := by decide

/-- The three clauses of FX.GET where they meet: widths 4 and 5, the last index and the one behind it. -/
theorem witness_FxGetReadsLittleEndian : (5 ≤ 8 ∧ 8 < f9.length ∧ 8 - 5 + 1 ≤ 4) ∧ (4 ≤ 8 ∧ 4 < 8 - 4 + 1) ∧
    ¬(8 ≤ 9 ∧ 9 < f9.length) ∧ ¬(3 ≤ 2 ∧ 2 < f9.length) := by decide

theorem witness_FxHashReadsTrailer : ([0x01, 0x02, 0x03] : Bytes).length < 4 ∧
    4 ≤ ([0x01, 0x02, 0x03, 0x04] : Bytes).length ∧ small.cfgErr = false := by decide

theorem witness_RecDecBuildsRecord : 5 ≤ f9.length ∧
    (∀ f ∈ ([{ name := ['X'], startIdx := 0, endIdx := 8 }, { startIdx := 7, endIdx := 9 },
        { startIdx := 8, endIdx := 8, zerofill := true }] : Schema),
      f.name ≠ [] ∨ f.zerofill = true → f.startIdx ≤ f.endIdx ∧ f.endIdx < f9.length) := by decide

/-- The two kinds of reported descriptor: a named one, and an unnamed zerofill one behind a valid named one. -/
theorem witness_RecDecErrors : ([0x01, 0x02, 0x03, 0x04] : Bytes).length < 5 ∧ 5 ≤ f9.length ∧
    ¬(7 ≤ 9 ∧ 9 < f9.length) ∧
    (∀ g ∈ ([{ name := ['A'], startIdx := 0, endIdx := 0, zerofill := true }] : Schema),
      g.name ≠ [] → g.startIdx ≤ g.endIdx ∧ g.endIdx < f9.length) ∧
    reply (.recDec f9 [{ name := ['A'], startIdx := 0, endIdx := 0, zerofill := true },
      { startIdx := 7, endIdx := 9, zerofill := true }]) small = bad (.invalidFieldRange (some (1, []))) := by decide

theorem witness_Outbound : small.cfgErr = false ∧ 1 ≤ ([0x7E] : Bytes).length ∧
    (upFrom 0 249).length + 4 ≤ 253 := by decide +kernel

/-- An unused unnamed range, a zerofill range over the marker byte and a zero byte, and one over that byte and the trailer. -/
theorem witness_SealedFrameHashesAgree :
    let fields : Bytes := [0x7E, 0x00, 0x05, 0x00]
    let schema : Schema := [{ name := ['X'], startIdx := 0, endIdx := 7 }, { startIdx := 9, endIdx := 3 },
      { startIdx := 0, endIdx := 1, zerofill := true }, { name := ['Y'], startIdx := 3, endIdx := 7, zerofill := true }]
    1 ≤ fields.length ∧
      (∀ f ∈ schema, f.name ≠ [] ∨ f.zerofill = true → f.startIdx ≤ f.endIdx ∧ f.endIdx < fields.length + 4) ∧
      (∀ f ∈ schema, f.zerofill = true → ∀ k < fields.length, f.startIdx ≤ k → k ≤ f.endIdx → 1 ≤ k →
        fields[k]? = some 0x00) := by decide

end Sys2Proof.Machine.Tests
end

section
/-! PROOF. The block's state (10_state.md): what a step can do, what an operation leaves unchanged, the invariant, the
two latches, the bounded queue, stale storage. -/

namespace Sys2Proof.Machine

/-! ## What a step can do -/

/-- Decoding undoes encoding (30_encoding.md R91). -/
theorem decode_encode (i : Instr) : decode (encode i) = .ok i := by
  cases i <;> rfl

theorem step_of_pending_nil {s : State} (h : s.pending = []) : step s = .next { s with reply := none } := by
  simp [step, h, idle]

theorem step_of_pending_cons {s : State} {act : Action} {rest : List Action} (h : s.pending = act :: rest) :
    step s = perform act { s with pending := rest } := by
  simp [step, h]

/-- Everything an agent's request can do where it is answered. -/
theorem issue_eq_next (a : Agent) (r : Request) (s t : State) :
    issue a r s = .next t ↔
      (∃ c, decode r = .error (.reservedCode c) ∧ s.answer (.err (.illegalOp c)) [] = t) ∨
      (∃ i, decode r = .ok i ∧ (s.cfgErr = true ∨ mayIssue s.cfg a i = true) ∧ exec i s = .next t) := by
  unfold issue
  cases hd : decode r with
  | error e => cases e <;> simp
  | ok i => by_cases ho : s.cfgErr = true ∨ mayIssue s.cfg a i = true <;> simp [ho]

/-- Everything APP's taking of a RawFrame can do (10_state.md R36). -/
theorem takeData_eq_next (s t : State) :
    takeData s = .next t ↔
      (s.dq = [] ∧ s.answer .hold [] = t) ∨
      (∃ r q, s.dq = r :: q ∧ State.answer { s with dq := q } (.ok (.seq r)) [] = t) := by
  unfold takeData
  cases hq : s.dq <;> simp

/-- Everything a step that answers can do to the state. -/
theorem step_cases {s t : State} (h : step s = .next t) :
    (s.pending = [] ∧ t = { s with reply := none }) ∨
    (∃ a r rest c, s.pending = .issue a r :: rest ∧ decode r = .error (.reservedCode c) ∧
      t = State.answer { s with pending := rest } (.err (.illegalOp c)) []) ∨
    (∃ a r rest i, s.pending = .issue a r :: rest ∧ decode r = .ok i ∧
      (s.cfgErr = true ∨ mayIssue s.cfg a i = true) ∧ exec i { s with pending := rest } = .next t) ∨
    (∃ rest, s.pending = .takeData :: rest ∧ s.dq = [] ∧ t = State.answer { s with pending := rest } .hold []) ∨
    (∃ rest r q, s.pending = .takeData :: rest ∧ s.dq = r :: q ∧
      t = State.answer { s with pending := rest, dq := q } (.ok (.seq r)) []) ∨
    (∃ rest c, s.pending = .reset c :: rest ∧ t = { State.resetWith c with pending := rest }) := by
  by_cases hp : s.pending = []
  · rw [step_of_pending_nil hp] at h
    cases h
    exact .inl ⟨hp, rfl⟩
  · obtain ⟨act, rest, hp⟩ := List.exists_cons_of_ne_nil hp
    rw [step_of_pending_cons hp] at h
    cases act with
    | issue a r =>
      rcases (issue_eq_next a r _ t).1 h with ⟨c, hd, rfl⟩ | ⟨i, hd, ho, he⟩
      · exact .inr (.inl ⟨a, r, rest, c, hp, hd, rfl⟩)
      · exact .inr (.inr (.inl ⟨a, r, rest, i, hp, hd, ho, he⟩))
    | takeData =>
      rcases (takeData_eq_next _ t).1 h with ⟨hq, rfl⟩ | ⟨r, q, hq, rfl⟩
      · exact .inr (.inr (.inr (.inl ⟨rest, hp, hq, rfl⟩)))
      · exact .inr (.inr (.inr (.inr (.inl ⟨rest, r, q, hp, hq, rfl⟩))))
    | reset c =>
      cases h
      exact .inr (.inr (.inr (.inr (.inr ⟨rest, c, hp, rfl⟩))))

/-! ## The invariant -/

theorem State.Inv.ringInv {s : State} (h : s.Inv) : s.RingInv := h.2.2.1

theorem State.Inv.size_le {s : State} (h : s.Inv) : s.size ≤ s.cfg.rbCap := h.ringInv.1

theorem State.Inv.tail_eq {s : State} (h : s.Inv) : s.tail = (s.head + s.size) % s.cfg.rbCap := h.ringInv.2.1

theorem State.Inv.head_lt {s : State} (h : s.Inv) (hc : s.cfgErr = false) : s.head < s.cfg.rbCap :=
  (h.ringInv.2.2 hc).1

theorem State.Inv.tail_lt {s : State} (h : s.Inv) (hc : s.cfgErr = false) : s.tail < s.cfg.rbCap :=
  (h.ringInv.2.2 hc).2

theorem State.Inv.rbmem_wf {s : State} (h : s.Inv) : s.rbmem.wf = true := h.2.1.1

theorem State.Inv.pb_wf {s : State} (h : s.Inv) : s.pb.wf = true := h.2.1.2.1

theorem State.Inv.readCount_le {s : State} (h : s.Inv) : s.readCount ≤ s.cfg.pktSize := h.2.2.2.1.1

/-- A valid configuration gives the ring at least one cell (00_scope.md R9). -/
theorem rbCap_pos_of_valid {c : Config} (h : c.valid = true) : 0 < c.rbCap := by
  simp only [Config.valid, Bool.and_eq_true, decide_eq_true_eq] at h
  omega

/-- The state after reset meets the invariant (10_state.md R40). -/
theorem State.inv_resetWith (c : Config) : (State.resetWith c).Inv := by
  have ring : (State.resetWith c).RingInv := by
    refine ⟨Nat.zero_le _, (Nat.zero_mod _).symm, fun hc => ?_⟩
    have hv : c.valid = true := by simpa [State.resetWith] using hc
    exact ⟨rbCap_pos_of_valid hv, rbCap_pos_of_valid hv⟩
  exact ⟨rfl, ⟨rfl, rfl, rfl, rfl⟩, ring, ⟨Nat.zero_le _, nofun⟩, Nat.zero_le _, nofun, Nat.zero_le _, nofun⟩

/-- RB.CLR's write keeps the invariant (40_ring_buffer.md R107). -/
theorem State.inv_clear {s : State} (h : s.Inv) : State.Inv { s with head := 0, tail := 0, size := 0 } := by
  have ring : State.RingInv { s with head := 0, tail := 0, size := 0 } := by
    refine ⟨Nat.zero_le _, (Nat.zero_mod _).symm, fun hc => ?_⟩
    have : 0 < s.cfg.rbCap := Nat.zero_lt_of_lt (h.head_lt hc)
    exact ⟨this, this⟩
  obtain ⟨hcfg, hstore, _, hscan, hqueue⟩ := h
  exact ⟨hcfg, hstore, ring, hscan, hqueue⟩

/-- APP's taking the oldest RawFrame keeps the invariant (10_state.md R36). -/
theorem State.inv_takeData {s : State} {r : Bytes} {q : List Bytes} (h : s.Inv) (hq : s.dq = r :: q) :
    State.Inv { s with dq := q } := by
  obtain ⟨hcfg, hstore, hring, hscan, hfq, hframes, hdq, hraw⟩ := h
  rw [hq] at hdq hraw
  exact ⟨hcfg, hstore, hring, hscan, hfq, hframes, Nat.le_of_succ_le hdq,
    fun f hf => hraw f (List.mem_cons_of_mem _ hf)⟩

/-- Every operation that answers keeps the invariant. -/
theorem State.inv_exec {i : Instr} {s t : State} (hs : s.Inv) (h : exec i s = .next t) : t.Inv := by
  rcases exec_cases h with ⟨st, rfl⟩ | ⟨w, _, _, rfl⟩ | ⟨b, _, hc, hn, _, rfl⟩ | ⟨_, _, hn, hh, rfl⟩ | ⟨_, _, rfl⟩ |
    ⟨b, _, _, _, _, rfl⟩ | ⟨b, _, _, _, hb, rfl⟩ | ⟨_, _, _, _, hp⟩ | ⟨e, rest, _, _, hd, hf, rfl⟩
  · exact hs
  · exact hs
  · exact State.inv_store s b hs hc (lt_of_le_of_ne hs.size_le hn)
  · exact State.inv_dropOldest s hs (Nat.pos_of_ne_zero hn) hh
  · have hi := State.inv_clear hs
    exact hi
  · exact hs
  · exact State.inv_scanByte s b hs hb
  · exact State.inv_passLoop hs hp
  · exact State.inv_deframe s e rest hs hf hd

/-- Settles O9: by `step_cases`, an operation's case by `State.inv_exec`. The actions still to come and the reply are in
no clause of the invariant. -/
theorem stepKeepsInvariant : Obligations.StepKeepsInvariant := by
  unfold Obligations.StepKeepsInvariant
  intro s t hs h
  rcases step_cases h with ⟨_, rfl⟩ | ⟨_, _, rest, _, _, _, rfl⟩ | ⟨_, _, rest, i, _, _, _, he⟩ | ⟨rest, _, _, rfl⟩ |
    ⟨rest, r, q, _, hq, rfl⟩ | ⟨rest, c, _, rfl⟩
  case inr.inr.inl =>
    have hp : State.Inv { s with pending := rest } := hs
    exact State.inv_exec hp he
  case inr.inr.inr.inr.inl =>
    have hi := State.inv_takeData hs hq
    exact hi
  case inr.inr.inr.inr.inr => exact State.inv_resetWith c
  all_goals exact hs

/-- Settles O8: every field of the reset state is at the bottom of its range. -/
theorem resetSatisfiesInvariant : Obligations.ResetSatisfiesInvariant := by
  unfold Obligations.ResetSatisfiesInvariant
  exact ⟨State.inv_resetWith, State.inv_resetWith exampleConfig⟩

/-- Settles O6: the step is the reset action, which answers in every state. -/
theorem hostResetLeavesTable : Obligations.HostResetLeavesTable := by
  unfold Obligations.HostResetLeavesTable
  intro s c rest hp
  refine ⟨{ State.resetWith c with pending := rest }, step_of_pending_cons hp, ?_⟩
  exact ⟨rfl, rfl, rfl, rfl, rfl, rfl, rfl, rfl, rfl, rfl, rfl, rfl⟩

/-! ## What an operation leaves unchanged -/

/-- A pass writes head, size, PB, readCount and FQ only (43_frame_scanner.md R172). -/
theorem passLoop_frame {n : Nat} {s t : State} {evs : List Event} (h : passLoop n s evs = .next t) :
    t.rbmem = s.rbmem ∧ t.tail = s.tail ∧ t.acc = s.acc ∧ t.fatal = s.fatal ∧ t.dq = s.dq ∧ t.cfg = s.cfg ∧
      t.cfgErr = s.cfgErr ∧ t.pending = s.pending := by
  obtain ⟨m, u, es, e, hu, rfl, _⟩ := passLoop_induct (P := fun _ u _ =>
    u.rbmem = s.rbmem ∧ u.tail = s.tail ∧ u.acc = s.acc ∧ u.fatal = s.fatal ∧ u.dq = s.dq ∧ u.cfg = s.cfg ∧
      u.cfgErr = s.cfgErr ∧ u.pending = s.pending) n s t evs
    ⟨rfl, rfl, rfl, rfl, rfl, rfl, rfl, rfl⟩ (fun m u es hu _ _ => by simpa using hu) h
  exact hu

/-- A pass stores inside PB only (43_frame_scanner.md R163). -/
theorem passLoop_pb_read {n : Nat} {s t : State} {evs : List Event} {a : Nat} (h : passLoop n s evs = .next t)
    (ha : s.cfg.pktSize ≤ a) : t.pb.read a = s.pb.read a := by
  obtain ⟨m, u, es, e, ⟨_, hu⟩, rfl, _⟩ := passLoop_induct (P := fun _ u _ =>
    u.cfg = s.cfg ∧ u.pb.read a = s.pb.read a) n s t evs ⟨rfl, rfl⟩ (fun m u es ⟨hcfg, hread⟩ _ _ => by
      have above : u.dropOldest.cfg.pktSize ≤ a := by simpa [hcfg] using ha
      exact ⟨by simpa using hcfg, (State.scanByte_pb_read _ _ _ (.inr above)).trans hread⟩) h
  exact hu

/-- Deframing a frame appends to DQ what the configuration and the frame determine, and writes nothing else. -/
theorem State.deframe_eq_append (c : Config) (e : Bytes) :
    ∃ (q : List Bytes) (ev : Event), ∀ s : State, s.cfg = c → s.deframe e = ({ s with dq := s.dq ++ q }, ev) := by
  cases h : cobsDecode e c.delim with
  | error err => exact ⟨[], .error err, by rintro s rfl; simp [State.deframe, h]⟩
  | ok out =>
    by_cases hl : out.length = c.msgSize
    · exact ⟨[out], .data out, by rintro s rfl; simp [State.deframe, h, hl]⟩
    · exact ⟨[], .warn (.lengthMismatch out.length), by rintro s rfl; simp [State.deframe, h, hl]⟩

/-- Deframing writes DQ only. -/
theorem State.deframe_frame (s : State) (e : Bytes) : (s.deframe e).1 = { s with dq := (s.deframe e).1.dq } := by
  obtain ⟨q, ev, h⟩ := State.deframe_eq_append s.cfg e
  rw [h s rfl]

/-- Settles O15: each branch of `exec_cases` names the operation and the state it leaves. -/
theorem operationsWriteOnlyTheirColumns : Obligations.OperationsWriteOnlyTheirColumns := by
  unfold Obligations.OperationsWriteOnlyTheirColumns
  intro i s t h
  rcases exec_cases h with ⟨st, rfl⟩ | ⟨w, hw, _, rfl⟩ | ⟨b, hi, _, _, _, rfl⟩ | ⟨rfl, _, _, _, rfl⟩ | ⟨rfl, _, rfl⟩ |
    ⟨b, rfl, _, _, _, rfl⟩ | ⟨b, rfl, _, _, _, rfl⟩ | ⟨rfl, _, _, _, hp⟩ | ⟨e, rest, rfl, _, _, _, rfl⟩
  · simp
  · simp [hw]
  · rcases hi with rfl | ⟨rfl, _⟩ <;> simp [State.stored, writesRbmem, writesTail, writesSize]
  · simp [writesHead, writesSize]
  · simp [writesHead, writesTail, writesSize]
  · simp [writesFatal]
  · simp [writesParse, writesFq]
  · simp [passLoop_frame hp, writesHead, writesSize, writesParse, writesFq]
  · rw [State.deframe_frame]
    simp [writesFq, writesDq]

/-- CFGERR is no operation's to write (10_state.md R35). -/
theorem exec_cfgErr_eq {i : Instr} {s t : State} (h : exec i s = .next t) : t.cfgErr = s.cfgErr := by
  obtain ⟨_, _, _, _, _, _, _, _, _, _, hce, _⟩ := operationsWriteOnlyTheirColumns i s t h
  exact hce

/-- Only RX.PUSH writes FATAL (10_state.md R41). -/
theorem exec_fatal_eq {i : Instr} {s t : State} (hw : writesFatal i = false) (h : exec i s = .next t) :
    t.fatal = s.fatal := by
  obtain ⟨_, _, _, _, _, _, hf, _⟩ := operationsWriteOnlyTheirColumns i s t h
  exact hf hw

/-- An operation that stores in RBMEM stores at `tail` only (40_ring_buffer.md R101). -/
theorem exec_rbmem_read {i : Instr} {s t : State} {a : Nat} (h : exec i s = .next t)
    (ha : writesRbmem i = true → a ≠ s.tail) : t.rbmem.read a = s.rbmem.read a := by
  rcases exec_cases h with ⟨st, rfl⟩ | ⟨w, _, _, rfl⟩ | ⟨b, hi, _, _, _, rfl⟩ | ⟨_, _, _, _, rfl⟩ | ⟨_, _, rfl⟩ |
    ⟨b, _, _, _, _, rfl⟩ | ⟨b, _, _, _, _, rfl⟩ | ⟨_, _, _, _, hp⟩ | ⟨e, rest, _, _, _, _, rfl⟩
  case inr.inr.inl =>
    have hw : writesRbmem i = true := by rcases hi with rfl | ⟨rfl, _⟩ <;> rfl
    exact Memory.read_write_ne _ _ (ha hw)
  case inr.inr.inr.inr.inr.inr.inr.inl => rw [(passLoop_frame hp).1]
  case inr.inr.inr.inr.inr.inr.inr.inr => rw [State.deframe_frame]; rfl
  all_goals simp

/-- Settles O16. RBMEM: the one storing branch of `exec_cases` writes at `tail`. PB: only SC.STEP and SC.PASS have the
column, and a scanned byte is stored at `readCount`. -/
theorem storageBytesFrame : Obligations.StorageBytesFrame := by
  unfold Obligations.StorageBytesFrame
  refine ⟨fun i s t a h ha => exec_rbmem_read h ha, fun i s t a h hstep hpass => ?_⟩
  cases hw : writesParse i with
  | false =>
    obtain ⟨_, _, _, _, hpb, _⟩ := operationsWriteOnlyTheirColumns i s t h
    rw [(hpb hw).1]
  | true =>
    cases i <;> simp only [writesParse, Bool.false_eq_true] at hw
    case scStep b =>
      rcases (execScStep_eq_next b s t).1 h with ⟨_, rfl⟩ | ⟨_, _, rfl⟩ | ⟨_, _, _, rfl⟩ | ⟨_, _, _, rfl⟩
      case inr.inr.inr => exact State.scanByte_pb_read s b a (.inl (hstep b rfl))
      all_goals rfl
    case scPass =>
      rcases (execScPass_eq_next s t).1 h with ⟨_, rfl⟩ | ⟨_, _, rfl⟩ | ⟨_, _, _, rfl⟩ | ⟨_, _, _, hp⟩
      case inr.inr.inr => exact passLoop_pb_read hp (hpass rfl)
      all_goals rfl

/-! ## The two latches -/

/-- Settles O11: CFGERR has no column, `step_cases` leaves the reset as its only writer, and `exec_cfgErr` answers
before any operation, so ownership is not asked. -/
theorem invalidConfigurationRefusesAll : Obligations.InvalidConfigurationRefusesAll := by
  unfold Obligations.InvalidConfigurationRefusesAll
  refine ⟨fun _ => rfl, fun i s t h => exec_cfgErr_eq h, fun s t h => ?_, exec_cfgErr, fun s a i rest hc hp => ?_⟩
  · rcases step_cases h with ⟨_, rfl⟩ | ⟨_, _, _, _, _, _, rfl⟩ | ⟨_, _, _, _, _, _, _, he⟩ | ⟨_, _, _, rfl⟩ |
      ⟨_, _, _, _, _, rfl⟩ | ⟨_, c, hp, _⟩
    case inr.inr.inl =>
      have hce := exec_cfgErr_eq he
      exact .inl hce
    case inr.inr.inr.inr.inr => exact .inr ⟨c, by simp [hp]⟩
    all_goals exact .inl rfl
  · rw [step_of_pending_cons hp]
    exact (issue_eq_next a (encode i) _ _).2 (.inr ⟨i, decode_encode i, .inl hc, exec_cfgErr i _ hc⟩)

/-- `s` with FATAL as given. -/
def State.withFatal (s : State) (f : Bool) : State := { s with fatal := f }

theorem State.enqueue_withFatal (s : State) (b : Byte) (f : Bool) :
    (s.withFatal f).enqueue b = (s.enqueue b).map (State.withFatal · f) := by
  by_cases h : s.tail < s.cfg.rbCap <;> simp [State.enqueue, State.withFatal, State.nextIndex, h, Except.map]

/-- The oldest frame's deframing does not ask for FATAL. -/
theorem State.deframe_withFatal (s : State) (e : Bytes) (f : Bool) :
    (s.withFatal f).deframe e = ((s.deframe e).1.withFatal f, (s.deframe e).2) := by
  obtain ⟨q, ev, h⟩ := State.deframe_eq_append s.cfg e
  rw [h s rfl, h (s.withFatal f) rfl]
  rfl

/-- The CFGERR test does not ask for FATAL. -/
theorem State.whenValid_withFatal {s : State} {f : Bool} {body body' : Host.Outcome State Fault Refusal}
    (h : body' = mapNext (State.withFatal · f) body) :
    (s.withFatal f).whenValid body' = mapNext (State.withFatal · f) (s.whenValid body) := by
  have hce : (s.withFatal f).cfgErr = s.cfgErr := rfl
  unfold State.whenValid
  rw [hce, h]
  cases s.cfgErr <;> rfl

/-- Off the transport path FATAL plays no part (60_exceptions.md R233). -/
theorem exec_withFatal (i : Instr) (s : State) (f : Bool) (h : onTransportPath i = false) :
    exec i (s.withFatal f) = mapNext (State.withFatal · f) (exec i s) := by
  cases hp : pureOp i with
  | true =>
    obtain ⟨st, _, _, hst⟩ := exec_pure i hp
    cases hc : s.cfgErr with
    | true => rw [exec_cfgErr i s hc, exec_cfgErr i (s.withFatal f) hc]; rfl
    | false => rw [hst s hc, hst (s.withFatal f) hc]; rfl
  | false =>
    cases i <;> simp only [pureOp, onTransportPath, Bool.true_eq_false] at hp h
    case rbEnq b =>
      refine State.whenValid_withFatal ?_
      rw [State.enqueue_withFatal]
      change (if s.ringFull then _ else _) = _
      cases s.ringFull <;> cases s.enqueue b <;> rfl
    case rbDeq =>
      refine State.whenValid_withFatal ?_
      change (if s.ringEmpty then _ else orFault (s.ringLoad s.head) _) = _
      cases s.ringEmpty <;> cases s.ringLoad s.head <;> rfl
    case rbSnap =>
      refine State.whenValid_withFatal ?_
      change orFault s.snapshot _ = _
      cases s.snapshot <;> rfl
    case frChk =>
      refine State.whenValid_withFatal ?_
      have hfq : (s.withFatal f).fq = s.fq := rfl
      have hdq : (s.withFatal f).dqFull = s.dqFull := rfl
      rw [hfq, hdq]
      cases s.fq with
      | nil => rfl
      | cons e rest =>
        cases s.dqFull with
        | true => rfl
        | false =>
          change (State.deframe (State.withFatal { s with fq := rest } f) e).1.finish _
            [(State.deframe (State.withFatal { s with fq := rest } f) e).2] = _
          rw [State.deframe_withFatal]
          rfl
    all_goals exact State.whenValid_withFatal rfl

/-- With FATAL set the transport path answers Disconnected (60_exceptions.md R233). -/
theorem exec_fatal {i : Instr} {s : State} (hc : s.cfgErr = false) (hf : s.fatal = true)
    (h : onTransportPath i = true) : exec i s = .next (s.answer (.err .disconnected) []) := by
  cases i <;> simp only [onTransportPath, Bool.false_eq_true] at h
  case rxPush b => exact (execRxPush_eq_next b _ _).2 (.inr (.inl ⟨hc, hf, rfl⟩))
  case scStep b => exact (execScStep_eq_next b _ _).2 (.inr (.inl ⟨hc, hf, rfl⟩))
  case scPass => exact (execScPass_eq_next _ _).2 (.inr (.inl ⟨hc, hf, rfl⟩))

/-- Everything an operation can do to FATAL: keep it, or set it on an overflow (60_exceptions.md R232). -/
theorem exec_fatal_cases {i : Instr} {s t : State} (h : exec i s = .next t) :
    t.fatal = s.fatal ∨
      (∃ b, i = .rxPush b) ∧ s.size = s.cfg.rbCap ∧ t.fatal = true ∧ t.status = some (.err .rxOverflow) := by
  cases hw : writesFatal i with
  | false => exact .inl (exec_fatal_eq hw h)
  | true =>
    cases i <;> simp only [writesFatal, Bool.false_eq_true] at hw
    case rxPush b =>
      rcases (execRxPush_eq_next b s t).1 h with ⟨_, rfl⟩ | ⟨_, _, rfl⟩ | ⟨_, _, hn, rfl⟩ | ⟨_, _, _, _, rfl⟩
      case inr.inr.inl => exact .inr ⟨⟨b, rfl⟩, hn, rfl, rfl⟩
      all_goals exact .inl rfl

/-- No operation clears FATAL (10_state.md R34). -/
theorem exec_keeps_fatal {i : Instr} {s t : State} (h : exec i s = .next t) (hf : s.fatal = true) : t.fatal = true := by
  rcases exec_fatal_cases h with he | ⟨_, _, ht, _⟩
  · exact he.trans hf
  · exact ht

/-- Settles O12: `exec_fatal` is what the latch refuses, `exec_withFatal` what it does not, `exec_fatal_cases` its only
setter, and `step_cases` leaves the reset as the only step that clears it. -/
theorem fatalLatch : Obligations.FatalLatch := by
  unfold Obligations.FatalLatch
  refine ⟨fun i s => exec_fatal, fun i s f h => exec_withFatal i s f h, fun i s t => exec_keeps_fatal, ?_, ?_, ?_,
    fun _ => rfl⟩
  · intro s b hc hf hn
    exact (execRxPush_eq_next b _ _).2 (.inr (.inr (.inl ⟨hc, hf, hn, rfl⟩)))
  · intro i s t h hf ht
    rcases exec_fatal_cases h with he | ⟨hi, hn, _, hst⟩
    · rw [hf, ht] at he; cases he
    · exact ⟨hi, hn, hst⟩
  · intro s t h hf
    rcases step_cases h with ⟨_, rfl⟩ | ⟨_, _, _, _, _, _, rfl⟩ | ⟨_, _, _, _, _, _, _, he⟩ | ⟨_, _, _, rfl⟩ |
      ⟨_, _, _, _, _, rfl⟩ | ⟨_, c, hp, _⟩
    case inr.inr.inl => exact .inl (exec_keeps_fatal he hf)
    case inr.inr.inr.inr.inr => exact .inr ⟨c, by simp [hp]⟩
    all_goals exact .inl hf

/-! ## The pure operations -/

/-- Settles O17: `exec_pure` gives the one status before any state is chosen. -/
theorem pureOperationsDependOnOperandsOnly : Obligations.PureOperationsDependOnOperandsOnly := by
  unfold Obligations.PureOperationsDependOnOperandsOnly
  intro i s s' hp hc hc'
  obtain ⟨st, _, _, hst⟩ := exec_pure i hp
  exact ⟨st, hst s hc, hst s' hc'⟩

/-! ## Indices outside RBMEM -/

/-- With a valid configuration an operation is its body. -/
theorem State.whenValid_of_valid {s : State} (hc : s.cfgErr = false) (body : Host.Outcome State Fault Refusal) :
    s.whenValid body = body := by
  simp [State.whenValid, hc]

/-- With FATAL clear an operation of the transport path is its body. -/
theorem State.whenLive_of_live {s : State} (hf : s.fatal = false) (body : Host.Outcome State Fault Refusal) :
    s.whenLive body = body := by
  simp [State.whenLive, hf]

theorem State.enqueue_outside {s : State} (b : Byte) (h : s.cfg.rbCap ≤ s.tail) :
    s.enqueue b = .error .ringIndex :=
  if_neg (Nat.not_lt.2 h)

theorem State.ringLoad_outside {s : State} {a : Nat} (h : s.cfg.rbCap ≤ a) : s.ringLoad a = .error .ringIndex :=
  if_neg (Nat.not_lt.2 h)

theorem State.snapshot_outside {s : State} (hn : s.size ≠ 0) (h : s.cfg.rbCap = 0) :
    s.snapshot = .error .ringIndex :=
  if_neg (by simp [hn, h])

theorem passLoop_outside {n : Nat} {s : State} (evs : List Event) (hn : n ≠ 0) (h : s.cfg.rbCap ≤ s.head) :
    passLoop n s evs = .fault .ringIndex := by
  obtain ⟨m, rfl⟩ := Nat.exists_eq_succ_of_ne_zero hn
  simp [passLoop, State.ringLoad_outside h, orFault]

/-- Settles O26: past its tests each operation forms the index first, and the invariant bounds both indices. -/
theorem ringIndexOutsideArrayFaults : Obligations.RingIndexOutsideArrayFaults := by
  unfold Obligations.RingIndexOutsideArrayFaults
  intro s b hc
  refine ⟨?enq, ?push, ?deq, ?snap, ?pass, ?inside⟩
  case enq =>
    intro hn ht
    simp [exec, execRbEnq, State.whenValid_of_valid hc, State.ringFull, hn, State.enqueue_outside b ht, orFault]
  case push =>
    intro hf hn ht
    simp [exec, execRxPush, State.whenValid_of_valid hc, State.whenLive_of_live hf, State.ringFull, hn,
      State.enqueue_outside b ht, orFault]
  case deq =>
    intro hn hh
    simp [exec, execRbDeq, State.whenValid_of_valid hc, State.ringEmpty, hn, State.ringLoad_outside hh, orFault]
  case snap =>
    intro hn hz
    simp [exec, execRbSnap, State.whenValid_of_valid hc, State.snapshot_outside hn hz, orFault]
  case pass =>
    intro hf hn hg hh
    simp [exec, execScPass, State.whenValid_of_valid hc, State.whenLive_of_live hf, Nat.not_lt.2 hg,
      passLoop_outside [] hn hh]
  case inside =>
    intro hs
    exact ⟨hs.head_lt hc, hs.tail_lt hc, Nat.one_le_of_lt (hs.head_lt hc)⟩

/-! ## The ring buffer as a bounded queue -/

/-- Storing a byte appends it to the contents (10_state.md R28). -/
theorem State.contents_stored {s : State} (b : Byte) (hs : s.Inv) (hn : s.size ≠ s.cfg.rbCap) :
    (s.stored b).contents = s.contents ++ [b] :=
  State.contents_store s b hs.rbmem_wf hs.tail_eq (lt_of_le_of_ne hs.size_le hn)

/-- Every RB.* operation is the queue's operation on the contents (40_ring_buffer.md R109). -/
theorem exec_fifoStep {i : Instr} {s : State} {st : Status} {q : Bytes} (hs : s.Inv) (hc : s.cfgErr = false)
    (h : fifoStep s.cfg.rbCap s.contents i = some (st, q)) :
    ∃ t, exec i s = .next t ∧ t.status = some st ∧ t.events = [] ∧ t.contents = q := by
  cases i <;> simp only [fifoStep, Option.some.injEq, Prod.mk.injEq, State.length_contents, reduceCtorEq] at h
  case rbEnq b =>
    by_cases hn : s.size = s.cfg.rbCap
    · simp only [hn, if_true, Prod.mk.injEq] at h
      obtain ⟨rfl, rfl⟩ := h
      exact ⟨_, (execRbEnq_eq_next b s _).2 (.inr (.inl ⟨hc, hn, rfl⟩)), rfl, rfl, rfl⟩
    · simp only [hn, if_false, Prod.mk.injEq] at h
      obtain ⟨rfl, rfl⟩ := h
      exact ⟨_, (execRbEnq_eq_next b s _).2 (.inr (.inr ⟨hc, hn, hs.tail_lt hc, rfl⟩)), rfl, rfl,
        State.contents_stored b hs hn⟩
  case rbDeq =>
    by_cases hn : s.size = 0
    · rw [(State.contents_eq_nil s).2 hn] at h
      obtain ⟨rfl, rfl⟩ := h
      exact ⟨_, (execRbDeq_eq_next s _).2 (.inr (.inl ⟨hc, hn, rfl⟩)), rfl, rfl, (State.contents_eq_nil s).2 hn⟩
    · rw [State.contents_dropOldest s (Nat.pos_of_ne_zero hn) (hs.head_lt hc)] at h
      obtain ⟨rfl, rfl⟩ := h
      exact ⟨_, (execRbDeq_eq_next s _).2 (.inr (.inr ⟨hc, hn, hs.head_lt hc, rfl⟩)), rfl, rfl, rfl⟩
  case rbClr =>
    obtain ⟨rfl, rfl⟩ := h
    exact ⟨_, (execRbClr_eq_next s _).2 (.inr ⟨hc, rfl⟩), rfl, rfl, rfl⟩
  case rbSnap =>
    obtain ⟨rfl, rfl⟩ := h
    have hsnap := (State.snapshot_eq_ok s _).2 ⟨.inr (Nat.zero_lt_of_lt (hs.head_lt hc)), rfl⟩
    exact ⟨s.answer (.ok (.seq s.contents)) [], by
      simp [exec, execRbSnap, State.whenValid_of_valid hc, hsnap, orFault], rfl, rfl, rfl⟩
  all_goals
    obtain ⟨rfl, rfl⟩ := h
    exact ⟨_, State.whenValid_of_valid hc _, rfl, rfl, rfl⟩

/-- Settles O24: `exec_fifoStep`, and every operation keeps the invariant. -/
theorem ringRefinesBoundedFifo : Obligations.RingRefinesBoundedFifo := by
  unfold Obligations.RingRefinesBoundedFifo
  intro i s st q hs hc h
  obtain ⟨t, he, hst, hev, hq⟩ := exec_fifoStep hs hc h
  exact ⟨t, he, hst, hev, hq, State.inv_exec hs he⟩

/-! ## Stale storage -/

/-- A state that looks like `s` is `s` with other arrays. -/
theorem State.SameVisible.exists_arrays {s s' : State} (hv : s.SameVisible s') :
    ∃ m p : Memory, s' = { s with rbmem := m, pb := p } :=
  ⟨s'.rbmem, s'.pb, hv.1⟩

theorem State.SameVisible.contents_eq {s s' : State} (hv : s.SameVisible s') : s'.contents = s.contents := hv.2.1

theorem State.SameVisible.pb_read {s s' : State} (hv : s.SameVisible s') {k : Nat} (hk : k < s.readCount) :
    s'.pb.read k = s.pb.read k := hv.2.2 k hk

theorem State.SameVisible.reply_eq {s s' : State} (hv : s.SameVisible s') : s'.reply = s.reply := by
  rw [hv.1]

theorem State.SameVisible.answer {s s' : State} (hv : s.SameVisible s') (st : Status) (evs : List Event) :
    (s.answer st evs).SameVisible (s'.answer st evs) := by
  obtain ⟨m, p, rfl⟩ := hv.exists_arrays
  exact ⟨rfl, hv.contents_eq, fun k hk => hv.pb_read hk⟩

/-- Both rings give the same oldest byte and stay alike without it. -/
theorem State.SameVisible.dropOldest {s s' : State} (hv : s.SameVisible s') (hn : 0 < s.size)
    (hh : s.head < s.cfg.rbCap) :
    s'.rbmem.read s.head = s.rbmem.read s.head ∧ s.dropOldest.SameVisible s'.dropOldest := by
  obtain ⟨m, p, rfl⟩ := hv.exists_arrays
  have hq := hv.contents_eq
  rw [State.contents_dropOldest s hn hh,
    State.contents_dropOldest { s with rbmem := m, pb := p } hn hh] at hq
  obtain ⟨hb, hrest⟩ := List.cons.inj hq
  exact ⟨hb, rfl, hrest, fun k hk => hv.pb_read hk⟩

/-- Storing the same byte keeps both rings alike. -/
theorem State.SameVisible.stored {s s' : State} (hv : s.SameVisible s') (hs : s.Inv) (hs' : s'.Inv)
    (hn : s.size ≠ s.cfg.rbCap) (b : Byte) : (s.stored b).SameVisible (s'.stored b) := by
  obtain ⟨m, p, rfl⟩ := hv.exists_arrays
  refine ⟨rfl, ?_, fun k hk => hv.pb_read hk⟩
  rw [State.contents_stored b hs hn, State.contents_stored b hs' hn, hv.contents_eq]

/-- The transition table of 43_frame_scanner.md R168, less Hold, as one equation. -/
theorem State.scanByte_eq {s : State} (b : Byte) (h : s.readCount ≤ s.cfg.pktSize) :
    s.scanByte b =
      if b = s.cfg.delim then
        if s.readCount = s.cfg.pktSize then
          ({ s with fq := s.fq ++ [s.parseFrame], readCount := 0 }, [.frame s.parseFrame])
        else ({ s with readCount := 0 }, [.warn (.delimiterMismatch s.readCount)])
      else if s.readCount = s.cfg.pktSize then ({ s with readCount := 0 }, [.warn (.delimiterMissing b)])
      else ({ s with pb := s.pb.write s.readCount b, readCount := s.readCount + 1 }, []) := by
  rcases State.scanByte_cases s b h with ⟨hb, hr, e⟩ | ⟨hb, hr, e⟩ | ⟨hb, hr, e⟩ | ⟨hb, hr, e⟩
  · rw [e, if_pos hb, if_pos hr]
  · rw [e, if_pos hb, if_neg (Nat.ne_of_lt hr)]
  · rw [e, if_neg hb, if_pos hr]
  · rw [e, if_neg hb, if_neg (Nat.ne_of_lt hr)]

/-- A full parse buffer has no stale byte (10_state.md R31). -/
theorem State.SameVisible.parseFrame_eq {s s' : State} (hv : s.SameVisible s') (hr : s.readCount = s.cfg.pktSize) :
    s'.parseFrame = s.parseFrame := by
  obtain ⟨m, p, rfl⟩ := hv.exists_arrays
  refine List.map_congr_left fun k hk => hv.pb_read ?_
  rw [hr]
  exact List.mem_range.1 hk

/-- A scanned byte gives the same events and keeps both states alike. -/
theorem State.SameVisible.scanByte {s s' : State} (hv : s.SameVisible s') (hs : s.Inv) (hs' : s'.Inv) (b : Byte) :
    (s'.scanByte b).2 = (s.scanByte b).2 ∧ (s.scanByte b).1.SameVisible (s'.scanByte b).1 := by
  have frame := hv.parseFrame_eq
  obtain ⟨m, p, rfl⟩ := hv.exists_arrays
  have idle : ∀ q : List Bytes, State.SameVisible { s with fq := q, readCount := 0 }
      { s with rbmem := m, pb := p, fq := q, readCount := 0 } := fun q => ⟨rfl, hv.contents_eq, nofun⟩
  rw [State.scanByte_eq b hs.readCount_le, State.scanByte_eq b hs'.readCount_le]
  by_cases hb : b = s.cfg.delim <;> by_cases hr : s.readCount = s.cfg.pktSize
  · simp only [if_pos hb, if_pos hr, frame hr, true_and]
    exact idle _
  · simp only [if_pos hb, if_neg hr, true_and]
    exact idle _
  · simp only [if_neg hb, if_pos hr, true_and]
    exact idle _
  · simp only [if_neg hb, if_neg hr, true_and]
    refine ⟨rfl, hv.contents_eq, fun k hk => ?_⟩
    change (p.write s.readCount b).read k = (s.pb.write s.readCount b).read k
    rcases Nat.lt_or_eq_of_le (Nat.le_of_lt_succ hk) with lt | rfl
    · rw [Memory.read_write_ne _ _ (Nat.ne_of_lt lt), Memory.read_write_ne _ _ (Nat.ne_of_lt lt)]
      exact hv.pb_read lt
    · rw [Memory.read_write_same _ _ hs'.pb_wf, Memory.read_write_same _ _ hs.pb_wf]

/-- Deframing gives the same event and keeps both states alike. -/
theorem State.SameVisible.deframe {s s' : State} (hv : s.SameVisible s') (e : Bytes) :
    (s'.deframe e).2 = (s.deframe e).2 ∧ (s.deframe e).1.SameVisible (s'.deframe e).1 := by
  obtain ⟨m, p, rfl⟩ := hv.exists_arrays
  obtain ⟨q, ev, h⟩ := State.deframe_eq_append s.cfg e
  rw [h s rfl, h { s with rbmem := m, pb := p } rfl]
  exact ⟨rfl, rfl, hv.contents_eq, fun k hk => hv.pb_read hk⟩

/-- Where the first outcome answers, so does the second, with a state that looks the same. -/
def AnswersAlike (x x' : Host.Outcome State Fault Refusal) : Prop :=
  ∀ t, x = .next t → ∃ t', x' = .next t' ∧ t.SameVisible t'

theorem State.SameVisible.finish {s s' : State} (hv : s.SameVisible s') (st : Status) (evs : List Event) :
    AnswersAlike (s.finish st evs) (s'.finish st evs) := by
  intro t h
  cases h
  exact ⟨_, rfl, hv.answer st evs⟩

theorem State.SameVisible.okOrRaise {s s' : State} (hv : s.SameVisible s') (r : Except Err Result) :
    AnswersAlike (s.okOrRaise r) (s'.okOrRaise r) := by
  cases r with
  | ok v => exact hv.finish _ _
  | error e => exact hv.finish _ _

/-- Both states fail the same test or go on alike. -/
theorem AnswersAlike.ite {c : Prop} [Decidable c] {x x' y y' : Host.Outcome State Fault Refusal}
    (hx : c → AnswersAlike x x') (hy : ¬c → AnswersAlike y y') :
    AnswersAlike (if c then x else y) (if c then x' else y') := by
  by_cases h : c
  · simpa [h] using hx h
  · simpa [h] using hy h

theorem State.SameVisible.whenValid {s s' : State} {body body' : Host.Outcome State Fault Refusal}
    (hv : s.SameVisible s') (h : s.cfgErr = false → AnswersAlike body body') :
    AnswersAlike (s.whenValid body) (s'.whenValid body') := by
  obtain ⟨m, p, rfl⟩ := hv.exists_arrays
  exact AnswersAlike.ite (fun _ => hv.finish _ _) (fun hc => h (Bool.eq_false_of_not_eq_true hc))

theorem State.SameVisible.whenLive {s s' : State} {body body' : Host.Outcome State Fault Refusal}
    (hv : s.SameVisible s') (h : AnswersAlike body body') : AnswersAlike (s.whenLive body) (s'.whenLive body') := by
  obtain ⟨m, p, rfl⟩ := hv.exists_arrays
  exact AnswersAlike.ite (fun _ => hv.finish _ _) (fun _ => h)

theorem State.SameVisible.enqueue {s s' : State} (hv : s.SameVisible s') (hs : s.Inv) (hs' : s'.Inv)
    (hc : s.cfgErr = false) (hn : s.size ≠ s.cfg.rbCap) (b : Byte) :
    AnswersAlike (orFault (s.enqueue b) fun t => t.ok .unit) (orFault (s'.enqueue b) fun t => t.ok .unit) := by
  have stored := hv.stored hs hs' hn b
  obtain ⟨m, p, rfl⟩ := hv.exists_arrays
  rw [State.enqueue_of_inv s b hs.ringInv hc, State.enqueue_of_inv _ b hs'.ringInv hc]
  exact stored.finish _ _

/-- A pass sees the contents of the ring and the collected bytes of PB only. -/
theorem State.SameVisible.passLoop {s s' : State} (hv : s.SameVisible s') (hs : s.Inv) (hs' : s'.Inv)
    (hc : s.cfgErr = false) {n : Nat} (hn : s.size = n) (evs : List Event) :
    AnswersAlike (passLoop n s evs) (passLoop n s' evs) := by
  induction n generalizing s s' evs with
  | zero => exact hv.finish _ _
  | succ n ih =>
    have pos : 0 < s.size := by omega
    have hh := hs.head_lt hc
    obtain ⟨hb, drop⟩ := hv.dropOldest pos hh
    obtain ⟨m, p, rfl⟩ := hv.exists_arrays
    rw [passLoop_succ n s evs hh, passLoop_succ n { s with rbmem := m, pb := p } evs hh, hb]
    refine AnswersAlike.ite (fun _ => hv.finish _ _) (fun held => ?_)
    have held := Bool.eq_false_of_not_eq_true held
    have hd := State.inv_dropOldest s hs pos hh
    have hd' := State.inv_dropOldest _ hs' pos hh
    obtain ⟨hev, scan⟩ := drop.scanByte hd hd' (s.rbmem.read s.head)
    rw [hev]
    exact ih scan (State.inv_scanByte _ _ hd held) (State.inv_scanByte _ _ hd' held) (by simpa using hc)
      (by simp [hn]) _

theorem State.SameVisible.frChk {s s' : State} (hv : s.SameVisible s') :
    AnswersAlike (exec .frChk s) (exec .frChk s') := by
  intro t h
  obtain ⟨m, p, rfl⟩ := hv.exists_arrays
  rcases (execFrChk_eq_next s t).1 h with ⟨hc, rfl⟩ | ⟨hc, hb, rfl⟩ | ⟨hc, hd, e, rest, hq, rfl⟩
  · exact ⟨_, (execFrChk_eq_next _ _).2 (.inl ⟨hc, rfl⟩), hv.answer _ _⟩
  · exact ⟨_, (execFrChk_eq_next _ _).2 (.inr (.inl ⟨hc, hb, rfl⟩)), hv.answer _ _⟩
  · have taken : State.SameVisible { s with fq := rest } { s with rbmem := m, pb := p, fq := rest } :=
      ⟨rfl, hv.contents_eq, fun k hk => hv.pb_read hk⟩
    obtain ⟨hev, alike⟩ := taken.deframe e
    refine ⟨_, (execFrChk_eq_next _ _).2 (.inr (.inr ⟨hc, hd, e, rest, hq, rfl⟩)), ?_⟩
    rw [hev]
    exact alike.answer _ _

/-- Every operation answers states that look the same alike. -/
theorem State.SameVisible.exec {s s' : State} (hv : s.SameVisible s') (hs : s.Inv) (hs' : s'.Inv) (i : Instr) :
    AnswersAlike (exec i s) (exec i s') := by
  have chk := hv.frChk
  have snap := hv.contents_eq
  have drop := hv.dropOldest
  have enq := hv.enqueue hs hs'
  have pass := hv.passLoop hs hs'
  have scan := hv.scanByte hs hs'
  obtain ⟨m, p, rfl⟩ := hv.exists_arrays
  cases i
  case rbFull | rbEmpty | rbSize | rbCap | cobsEnc | crcFin | crcSum =>
    exact hv.whenValid fun _ => hv.finish _ _
  case cobsDec | crcMsum | fxGet | fxHash | recDec | txSeal | txBuild =>
    exact hv.whenValid fun _ => hv.okOrRaise _
  case frChk => exact chk
  case rbEnq b =>
    refine hv.whenValid fun hc => AnswersAlike.ite (fun _ => hv.finish _ _) fun hn => ?_
    exact enq hc (by simpa [State.ringFull] using hn) b
  case rbDeq =>
    refine hv.whenValid fun hc => AnswersAlike.ite (fun _ => hv.finish _ _) fun hn => ?_
    obtain ⟨hb, alike⟩ := drop (Nat.pos_of_ne_zero (by simpa [State.ringEmpty] using hn)) (hs.head_lt hc)
    rw [State.ringLoad_of_inv s hs.ringInv hc, State.ringLoad_of_inv _ hs'.ringInv hc, hb]
    exact alike.finish _ _
  case rbClr =>
    have cleared : State.SameVisible { s with head := 0, tail := 0, size := 0 }
        { s with rbmem := m, pb := p, head := 0, tail := 0, size := 0 } := ⟨rfl, rfl, fun k hk => hv.pb_read hk⟩
    exact hv.whenValid fun _ => cleared.finish _ _
  case rbSnap =>
    refine hv.whenValid fun hc => ?_
    have cell : s.size = 0 ∨ 0 < s.cfg.rbCap := .inr (Nat.zero_lt_of_lt (hs.head_lt hc))
    rw [(State.snapshot_eq_ok s _).2 ⟨cell, rfl⟩, (State.snapshot_eq_ok { s with rbmem := m, pb := p } _).2 ⟨cell, snap⟩]
    exact hv.finish _ _
  case crcInit =>
    have written : State.SameVisible { s with acc := crcInitial } { s with rbmem := m, pb := p, acc := crcInitial } :=
      ⟨rfl, hv.contents_eq, fun k hk => hv.pb_read hk⟩
    exact hv.whenValid fun _ => written.finish _ _
  case crcUpd b =>
    have written : State.SameVisible { s with acc := crcByte s.acc b }
        { s with rbmem := m, pb := p, acc := crcByte s.acc b } :=
      ⟨rfl, hv.contents_eq, fun k hk => hv.pb_read hk⟩
    exact hv.whenValid fun _ => written.finish _ _
  case rxPush b =>
    have latched : State.SameVisible { s with fatal := true } { s with rbmem := m, pb := p, fatal := true } :=
      ⟨rfl, hv.contents_eq, fun k hk => hv.pb_read hk⟩
    refine hv.whenValid fun hc => hv.whenLive (AnswersAlike.ite (fun _ => latched.finish _ _) fun hn => ?_)
    exact enq hc (by simpa [State.ringFull] using hn) b
  case scStep b =>
    obtain ⟨hev, alike⟩ := scan b
    refine hv.whenValid fun _ => hv.whenLive (AnswersAlike.ite (fun _ => hv.finish _ _) fun _ => ?_)
    rw [hev]
    exact alike.finish _ _
  case scPass =>
    exact hv.whenValid fun hc => hv.whenLive (AnswersAlike.ite (fun _ => hv.finish _ _) fun _ => pass hc rfl _)

/-- Settles O53: the states answered look the same, their replies included. -/
theorem staleStorageNeverObserved : Obligations.StaleStorageNeverObserved := by
  unfold Obligations.StaleStorageNeverObserved
  intro i s s' t hs hs' hv h
  obtain ⟨t', he, alike⟩ := hv.exec hs hs' i t h
  exact ⟨t', he, alike.reply_eq, alike⟩

end Sys2Proof.Machine
end

section
/-! PROOF. Requests, ownership and access (20_memory.md): who may issue what, that every operation answers, the reads
that may be repeated. -/

namespace Sys2Proof.Machine

/-! ## Who may issue what -/

theorem mayIssue_iff (c : Config) (a : Agent) (i : Instr) :
    mayIssue c a i = true ↔ pureOp i = true ∨ a = issuerOf c i := by
  simp [mayIssue]

/-- A request of an agent that may issue it runs its operation (20_memory.md R64). -/
theorem step_of_mayIssue {s : State} {a : Agent} {r : Request} {rest : List Action} {i : Instr}
    (hp : s.pending = .issue a r :: rest) (hd : decode r = .ok i) (ho : mayIssue s.cfg a i = true) :
    step s = exec i { s with pending := rest } := by
  rw [step_of_pending_cons hp]
  simp [perform, issue, hd, ho]

/-- READER's operations (20_memory.md R60). -/
theorem issuerOf_eq_reader (c : Config) {i : Instr}
    (h : (∃ b, i = .rbEnq b ∨ i = .rxPush b ∨ i = .scStep b) ∨
      i ∈ [.rbDeq, .rbFull, .rbEmpty, .rbSize, .rbCap, .rbClr, .rbSnap, .scPass]) : issuerOf c i = .reader := by
  rcases h with ⟨b, rfl | rfl | rfl⟩ | h
  case inr =>
    simp only [List.mem_cons, List.not_mem_nil, or_false] at h
    rcases h with rfl | rfl | rfl | rfl | rfl | rfl | rfl | rfl <;> rfl
  all_goals rfl

/-- The operations of the owner of ACC (20_memory.md R62). -/
theorem issuerOf_eq_accOwner (c : Config) {i : Instr} (h : i = .crcInit ∨ (∃ b, i = .crcUpd b) ∨ i = .crcFin) :
    issuerOf c i = c.accOwner := by
  rcases h with rfl | ⟨b, rfl⟩ | rfl <;> rfl

/-- The nine operations that read and write no state (10_state.md R38). -/
theorem pureOp_of_mem {i : Instr} {x : Bytes} {d : Byte} {fs : Schema} {m n : Nat}
    (h : i ∈ [.cobsEnc x d, .cobsDec x d, .crcSum x, .crcMsum x fs, .fxGet x m n, .fxHash x, .recDec x fs, .txSeal x,
      .txBuild x d]) : pureOp i = true := by
  simp only [List.mem_cons, List.not_mem_nil, or_false] at h
  rcases h with rfl | rfl | rfl | rfl | rfl | rfl | rfl | rfl | rfl <;> rfl

/-- Settles O4: `step_of_mayIssue`, and each list of operations is its owner's. -/
theorem stepRunsDecodedOperation : Obligations.StepRunsDecodedOperation := by
  unfold Obligations.StepRunsDecodedOperation
  refine ⟨fun s a r rest i hp hd ho => step_of_mayIssue hp hd ho, fun s a i rest hp h => ?_⟩
  refine step_of_mayIssue hp (decode_encode i) ((mayIssue_iff s.cfg a i).2 ?_)
  rcases h with ⟨rfl, hi⟩ | ⟨rfl, rfl⟩ | ⟨rfl, hi⟩ | ⟨x, d, fs, m, n, hi⟩
  · exact .inr (issuerOf_eq_reader s.cfg hi).symm
  · exact .inr rfl
  · exact .inr (issuerOf_eq_accOwner s.cfg hi).symm
  · exact .inl (pureOp_of_mem hi)

/-! ## Every operation answers -/

/-- A pass answers: the invariant, which every round keeps, has `head` inside RBMEM (20_memory.md R56). -/
theorem passLoop_answers {n : Nat} {s : State} (hs : s.Inv) (hc : s.cfgErr = false) (hn : s.size = n)
    (evs : List Event) : ∃ t, passLoop n s evs = .next t := by
  induction n generalizing s evs with
  | zero => exact ⟨_, rfl⟩
  | succ n ih =>
    have hh := hs.head_lt hc
    rw [passLoop_succ n s evs hh]
    cases hb : s.scanHeld (s.rbmem.read s.head) with
    | true => exact ⟨_, rfl⟩
    | false =>
      have dropped := State.inv_dropOldest s hs (by omega) hh
      have scanned := State.inv_scanByte _ _ dropped hb
      exact ih scanned (by simpa using hc) (by simp [hn]) _

/-- With a valid configuration and FATAL clear, the transport path answers (43_frame_scanner.md R160, R161, R172). -/
theorem exec_transport_answers {i : Instr} {s : State} (hs : s.Inv) (hc : s.cfgErr = false) (hf : s.fatal = false)
    (h : onTransportPath i = true) : ∃ t, exec i s = .next t := by
  cases i <;> simp only [onTransportPath, Bool.false_eq_true] at h
  case rxPush b =>
    by_cases hn : s.size = s.cfg.rbCap
    · exact ⟨_, (execRxPush_eq_next b s _).2 (.inr (.inr (.inl ⟨hc, hf, hn, rfl⟩)))⟩
    · exact ⟨_, (execRxPush_eq_next b s _).2 (.inr (.inr (.inr ⟨hc, hf, hn, hs.tail_lt hc, rfl⟩)))⟩
  case scStep b =>
    cases hb : s.scanHeld b with
    | true => exact ⟨_, (execScStep_eq_next b s _).2 (.inr (.inr (.inl ⟨hc, hf, hb, rfl⟩)))⟩
    | false => exact ⟨_, (execScStep_eq_next b s _).2 (.inr (.inr (.inr ⟨hc, hf, hb, rfl⟩)))⟩
  case scPass =>
    by_cases hg : s.readCount + s.size < s.cfg.pktSize
    · exact ⟨_, (execScPass_eq_next s _).2 (.inr (.inr (.inl ⟨hc, hf, hg, rfl⟩)))⟩
    · obtain ⟨t, ht⟩ := passLoop_answers hs hc rfl []
      exact ⟨t, (execScPass_eq_next s t).2 (.inr (.inr (.inr ⟨hc, hf, Nat.not_lt.1 hg, ht⟩)))⟩

/-- With a valid configuration FR.CHK answers in every state (43_frame_scanner.md R176). -/
theorem execFrChk_answers {s : State} (hc : s.cfgErr = false) : ∃ t, exec .frChk s = .next t := by
  by_cases hb : s.fq = [] ∨ s.dq.length = s.cfg.dqCap
  · exact ⟨_, (execFrChk_eq_next s _).2 (.inr (.inl ⟨hc, hb, rfl⟩))⟩
  · obtain ⟨hq, hd⟩ := not_or.1 hb
    obtain ⟨e, rest, hq⟩ := List.exists_cons_of_ne_nil hq
    exact ⟨_, (execFrChk_eq_next s _).2 (.inr (.inr ⟨hc, hd, e, rest, hq, rfl⟩))⟩

/-- In a state of the invariant no operation faults and none is refused (20_memory.md R56). -/
theorem exec_answers (i : Instr) {s : State} (hs : s.Inv) : ∃ t, exec i s = .next t := by
  cases hc : s.cfgErr with
  | true => exact ⟨_, exec_cfgErr i s hc⟩
  | false =>
    have operands : pureOp i = true → ∃ t, exec i s = .next t := fun hp => by
      obtain ⟨st, _, _, hst⟩ := exec_pure i hp
      exact ⟨_, hst s hc⟩
    have queue : ∀ st q, fifoStep s.cfg.rbCap s.contents i = some (st, q) → ∃ t, exec i s = .next t := fun st q h => by
      obtain ⟨t, ht, _⟩ := exec_fifoStep hs hc h
      exact ⟨t, ht⟩
    have transport : onTransportPath i = true → ∃ t, exec i s = .next t := fun h => by
      cases hf : s.fatal with
      | true => exact ⟨_, exec_fatal hc hf h⟩
      | false => exact exec_transport_answers hs hc hf h
    cases i
    case rbEnq | rbDeq | rbFull | rbEmpty | rbSize | rbCap | rbClr | rbSnap => exact queue _ _ rfl
    case rxPush | scStep | scPass => exact transport rfl
    case frChk => exact execFrChk_answers hc
    case crcInit => exact ⟨_, (execCrcInit_eq_next s _).2 (.inr ⟨hc, rfl⟩)⟩
    case crcUpd b => exact ⟨_, (execCrcUpd_eq_next b s _).2 (.inr ⟨hc, rfl⟩)⟩
    case crcFin => exact ⟨_, State.whenValid_of_valid hc _⟩
    all_goals exact operands rfl

/-- Settles O10: `exec_answers`, and an operation that answers keeps the invariant. -/
theorem everyOperationAnswers : Obligations.EveryOperationAnswers := by
  unfold Obligations.EveryOperationAnswers
  intro i s hs
  obtain ⟨t, ht⟩ := exec_answers i hs
  exact ⟨t, ht, State.inv_exec hs ht⟩

/-! ## Reads without side effect -/

/-- A pure operation that answers writes the reply only (10_state.md R38). -/
theorem exec_pure_eq_answer {i : Instr} {s t : State} (hp : pureOp i = true) (h : exec i s = .next t) :
    ∃ st, t = s.answer st [] := by
  obtain ⟨st, _, _, hst⟩ := exec_pure i hp
  cases hc : s.cfgErr with
  | true => rw [exec_cfgErr i s hc] at h; cases h; exact ⟨_, rfl⟩
  | false => rw [hst s hc] at h; cases h; exact ⟨_, rfl⟩

/-- A pure operation does not ask what the last operation returned. -/
theorem exec_pure_answer {i : Instr} (hp : pureOp i = true) (s : State) (st : Status) (evs : List Event) :
    exec i (s.answer st evs) = exec i s := by
  obtain ⟨_, _, _, hst⟩ := exec_pure i hp
  cases hc : s.cfgErr with
  | true => rw [exec_cfgErr i s hc, exec_cfgErr i (s.answer st evs) hc, State.answer_answer]
  | false => rw [hst s hc, hst (s.answer st evs) hc, State.answer_answer]

/-- A query of the ring, RB.SNAP and CRC.FIN do not ask what the last operation returned. -/
theorem exec_read_answer {i : Instr} (h : i ∈ [.rbFull, .rbEmpty, .rbSize, .rbCap, .rbSnap, .crcFin]) (s : State)
    (st : Status) (evs : List Event) : exec i (s.answer st evs) = exec i s := by
  simp only [List.mem_cons, List.not_mem_nil, or_false] at h
  rcases h with rfl | rfl | rfl | rfl | rfl | rfl <;> rfl

/-- Settles O18: such a read leaves the state with a reply, which it does not ask for the second time. -/
theorem readsAreRepeatable : Obligations.ReadsAreRepeatable := by
  unfold Obligations.ReadsAreRepeatable
  rintro i s t (hp | hr) h
  · obtain ⟨st, rfl⟩ := exec_pure_eq_answer hp h
    exact ⟨rfl, (exec_pure_answer hp s st []).trans h⟩
  · obtain ⟨st, rfl, _⟩ := execRead_eq_next i hr s t h
    exact ⟨rfl, (exec_read_answer hr s st []).trans h⟩

end Sys2Proof.Machine
end

section
/-! PROOF. Encodings (30_encoding.md): requests and their decoder, the length of a byte-stuffed payload and of what a
decoding returns. -/

namespace Sys2Proof.Machine

/-! ## Requests -/

theorem mem_opTable (o : Op) : o ∈ opTable := by
  cases o <;> decide

/-- The select codes are those of the table's rows (30_encoding.md R90). -/
theorem mem_definedCodes (c : Byte) : c ∈ definedCodes ↔ ∃ o : Op, o.code = c := by
  have codes : definedCodes = opTable.map Op.code := rfl
  simp [codes, mem_opTable]

/-- A code outside the table selects no row (30_encoding.md R92). -/
theorem opOfCode_eq_none (c : Byte) : opOfCode c = none ↔ c ∉ definedCodes := by
  simp [opOfCode, mem_definedCodes, mem_opTable]

/-- The row a code selects has that code (30_encoding.md R90). -/
theorem code_of_opOfCode {c : Byte} {o : Op} (h : opOfCode c = some o) : o.code = c := by
  simpa using List.find?_some h

/-- Operands that fit a row are those of the operation they make, and the operation is of that row
(30_encoding.md R91). -/
theorem op_operands_of_instrOf {o : Op} {xs : List Operand} {i : Instr} (h : instrOf o xs = some i) :
    i.op = o ∧ i.operands = xs := by
  unfold instrOf at h
  split at h <;> cases h <;> exact ⟨rfl, rfl⟩

/-- What decodes to an operation: the code selects its row, and the operands fit the row and make it. -/
theorem decode_eq_ok (r : Request) (i : Instr) :
    decode r = .ok i ↔ ∃ o, opOfCode r.code = some o ∧ instrOf o r.operands = some i := by
  unfold decode
  cases opOfCode r.code with
  | none => simp
  | some o => cases hi : instrOf o r.operands <;> simp [hi]

/-- A request with a reserved code is rejected by that code, whatever its operands (30_encoding.md R92). -/
theorem decode_reserved {r : Request} (h : r.code ∉ definedCodes) : decode r = .error (.reservedCode r.code) := by
  simp [decode, (opOfCode_eq_none r.code).2 h]

/-- Settles O3: `decode_encode` one way; the other way the selected row gives back the code, and the operation made of
the operands gives back the row and the operands. -/
theorem decodedRequestIsItsEncoding : Obligations.DecodedRequestIsItsEncoding := by
  unfold Obligations.DecodedRequestIsItsEncoding
  refine fun r i => ⟨fun h => ?_, fun h => h ▸ decode_encode i⟩
  obtain ⟨o, hcode, hinstr⟩ := (decode_eq_ok r i).1 h
  obtain ⟨rfl, hops⟩ := op_operands_of_instrOf hinstr
  calc r = ⟨r.code, r.operands⟩ := rfl
    _ = encode i := by rw [← code_of_opOfCode hcode, ← hops, encode]

/-- Settles O1: each request of the table is the encoding of its operation. -/
theorem decodeReadsSelectCodes : Obligations.DecodeReadsSelectCodes := by
  unfold Obligations.DecodeReadsSelectCodes
  exact ⟨fun b => decode_encode (.rbEnq b), decode_encode .rbDeq, decode_encode .rbFull, decode_encode .rbEmpty,
    decode_encode .rbSize, decode_encode .rbCap, decode_encode .rbClr, decode_encode .rbSnap,
    fun p d => decode_encode (.cobsEnc p d), fun e d => decode_encode (.cobsDec e d), decode_encode .crcInit,
    fun b => decode_encode (.crcUpd b), decode_encode .crcFin, fun data => decode_encode (.crcSum data),
    fun data fields => decode_encode (.crcMsum data fields), fun b => decode_encode (.rxPush b),
    fun b => decode_encode (.scStep b), decode_encode .scPass, decode_encode .frChk,
    fun frame i j => decode_encode (.fxGet frame i j), fun frame => decode_encode (.fxHash frame),
    fun frame schema => decode_encode (.recDec frame schema), fun fields => decode_encode (.txSeal fields),
    fun fields d => decode_encode (.txBuild fields d)⟩

/-- Settles O2: the codes are counted; a request with any other code is rejected by the decoder (`decode_reserved`), and
its step is the answer IllegalOp. -/
theorem reservedCodesAnswerIllegalOp : Obligations.ReservedCodesAnswerIllegalOp := by
  unfold Obligations.ReservedCodesAnswerIllegalOp
  refine ⟨by decide +kernel, by decide, by decide, fun s a r rest hp hr => ?_⟩
  rw [step_of_pending_cons hp]
  exact (issue_eq_next a r _ _).2 (.inl ⟨r.code, decode_reserved hr, rfl⟩)

/-! ## The length of an encoding -/

/-- F of 30_encoding.md R74: the full runs of 254 bytes in the delimiter-free segments of a payload. -/
def fullRuns (d : Byte) (p : Bytes) : Nat := ((p.splitOn d).map fun seg => seg.length / 254).sum

theorem fullRuns_of_notMem {d : Byte} {p : Bytes} (h : d ∉ p) : fullRuns d p = p.length / 254 := by
  simp [fullRuns, List.splitOn_eq_singleton h]

/-- A delimiter ends its segment. -/
theorem fullRuns_append_cons {d : Byte} {x : Bytes} (h : d ∉ x) (q : Bytes) :
    fullRuns d (x ++ d :: q) = x.length / 254 + fullRuns d q := by
  simp [fullRuns, List.splitOn_append_cons_self_of_not_mem h]

/-- 254 delimiter-free bytes in front are one full run more (41_cobs_codec.md R124). -/
theorem fullRuns_append_full {d : Byte} {x : Bytes} (hx : d ∉ x) (hl : x.length = 254) (p : Bytes) :
    fullRuns d (x ++ p) = fullRuns d p + 1 := by
  have free : ∀ y, d ∉ y → d ∉ x ++ y := fun y hy => by simp [hx, hy]
  by_cases hp : d ∈ p
  · obtain ⟨y, q, rfl, hy⟩ := List.eq_append_cons_of_mem hp
    rw [← List.append_assoc, fullRuns_append_cons (free y hy), fullRuns_append_cons hy, List.length_append]
    omega
  · rw [fullRuns_of_notMem (free p hp), fullRuns_of_notMem hp, List.length_append]
    omega

/-- Segment by segment, the runs take 254 bytes of the payload each. -/
theorem fullRuns_le (d : Byte) (p : Bytes) : fullRuns d p ≤ p.length / 254 := by
  by_cases hp : d ∈ p
  · obtain ⟨x, q, rfl, hx⟩ := List.eq_append_cons_of_mem hp
    have rest := fullRuns_le d q
    rw [fullRuns_append_cons hx, List.length_append, List.length_cons]
    omega
  · exact (fullRuns_of_notMem hp).le
termination_by p.length

/-- The encoder's loop with literals in the open block writes their number, the payload's, and one code byte more than
there are full runs in both together: each delimiter's place is taken by a code byte (30_encoding.md R74). -/
theorem length_encodeBlocks (d : Byte) (lits p : Bytes) (hd : d ∉ lits) (hl : lits.length ≤ 253) :
    (encodeBlocks d lits p).length = lits.length + p.length + 1 + fullRuns d (lits ++ p) := by
  induction p generalizing lits with
  | nil =>
    have : lits.length / 254 = 0 := Nat.div_eq_of_lt (by omega)
    simp [encodeBlocks, fullRuns_of_notMem hd, this]
  | cons b p ih =>
    have restart := ih [] (by simp) (by simp)
    rw [List.length_nil, List.nil_append] at restart
    unfold encodeBlocks
    split
    · next hb =>
      rw [hb, List.length_append, length_closeBlock, restart, fullRuns_append_cons hd, List.length_cons]
      omega
    · next hb =>
      have free : d ∉ lits ++ [b] := by simp [hd, Ne.symm hb]
      rw [List.append_cons lits b p]
      split
      · next hf =>
        rw [List.length_append, length_closeBlock, restart, fullRuns_append_full free (by simpa using hf)]
        simp only [List.length_append, List.length_cons, List.length_nil]
        omega
      · rw [ih _ free (by simp; omega)]
        simp only [List.length_append, List.length_cons, List.length_nil]
        omega

/-- The encoded length (30_encoding.md R74). -/
theorem length_cobsEncode {p : Bytes} (d : Byte) (h : p ≠ []) :
    (cobsEncode p d).length = p.length + 2 + fullRuns d p := by
  rw [cobsEncode_eq p d h, List.length_append, length_encodeBlocks d [] p (by simp) (by simp)]
  simp only [List.length_cons, List.length_nil, List.nil_append]
  omega

/-- Settles O29: `length_cobsEncode`; a payload of at most 253 bytes has no full run. -/
theorem encodedLength : Obligations.EncodedLength := by
  unfold Obligations.EncodedLength
  refine fun p d => ⟨fun h => by rw [h]; rfl, length_cobsEncode d, fun h1 h2 => ?_⟩
  have noRun : fullRuns d p = 0 := Nat.le_zero.1 ((fullRuns_le d p).trans (Nat.div_eq_of_lt (by omega)).le)
  rw [length_cobsEncode d (List.ne_nil_of_length_pos h1), noRun, Nat.add_zero]

/-! ## The length of a decoding -/

theorem length_dropTerminator_le (e : Bytes) (d : Byte) : (dropTerminator e d).length ≤ e.length := by
  unfold dropTerminator
  split <;> simp

theorem dropTerminator_of_notMem {e : Bytes} {d : Byte} (h : d ∉ e) : dropTerminator e d = e :=
  if_neg fun hl => h (List.mem_of_getLast? hl)

/-- What decodes: a non-empty input, whose blocks are read without the terminator (41_cobs_codec.md R125, R127). -/
theorem cobsDecode_eq_ok (e out : Bytes) (d : Byte) :
    cobsDecode e d = .ok out ↔
      e ≠ [] ∧ decodeBlocks d (dropTerminator e d).length 0 (dropTerminator e d) = .ok out := by
  cases e <;> simp [cobsDecode]

/-- Settles O33: `length_decodeBlocks` on the input without its terminator; a lone terminator decodes to nothing. -/
theorem decodedLength : Obligations.DecodedLength := by
  unfold Obligations.DecodedLength
  refine ⟨fun e out d hd hl h => ?_, fun e out d h => ?_⟩
  · obtain ⟨he, h⟩ := (cobsDecode_eq_ok e out d).1 h
    rw [dropTerminator_of_notMem hd] at h
    exact (length_decodeBlocks d _ _ e out he le_rfl h).2 hl
  · obtain ⟨_, h⟩ := (cobsDecode_eq_ok e out d).1 h
    by_cases hb : dropTerminator e d = []
    · rw [hb] at h
      cases h
      exact Nat.zero_le _
    · have blocks := (length_decodeBlocks d _ _ _ out hb le_rfl h).1
      have := length_dropTerminator_le e d
      omega

end Sys2Proof.Machine
end

section
/-! PROOF. The ring buffer (40_ring_buffer.md): what each operation answers and where it stores, the copies of RB.SNAP,
and the order in which bytes leave. -/

namespace Sys2Proof.Machine

/-! ## One operation -/

/-- Settles O19: of `execRbEnq_eq_next` the configuration and the size leave one case, and the array it leaves is the
old one with a byte written at `tail`. -/
theorem rbEnqStoresAtTail : Obligations.RbEnqStoresAtTail := by
  unfold Obligations.RbEnqStoresAtTail
  refine fun s b hc => ⟨fun hn => (execRbEnq_eq_next b s _).2 (.inr (.inl ⟨hc, hn, rfl⟩)), fun hn ht hw => ?_⟩
  exact ⟨s.rbmem.write s.tail b, (execRbEnq_eq_next b s _).2 (.inr (.inr ⟨hc, hn, ht, rfl⟩)),
    Memory.read_write_same s.tail b hw, fun a ha => Memory.read_write_ne s.rbmem b ha, Memory.wf_write s.tail b hw⟩

/-- An empty ring has no byte to give (40_ring_buffer.md R102). -/
theorem exec_rbDeq_of_size_eq_zero {s : State} (hc : s.cfgErr = false) (hn : s.size = 0) :
    exec .rbDeq s = .next (s.answer (.err .empty) []) :=
  (execRbDeq_eq_next s _).2 (.inr (.inl ⟨hc, hn, rfl⟩))

/-- Settles O20: of `execRbDeq_eq_next` the configuration and the size leave one case. -/
theorem rbDeqTakesAtHead : Obligations.RbDeqTakesAtHead := by
  unfold Obligations.RbDeqTakesAtHead
  exact fun s hc => ⟨exec_rbDeq_of_size_eq_zero hc,
    fun hn hh => (execRbDeq_eq_next s _).2 (.inr (.inr ⟨hc, hn, hh, rfl⟩))⟩

/-- Settles O21: past the CFGERR test a query is its answer. -/
theorem rbQueriesReturnRegisters : Obligations.RbQueriesReturnRegisters := by
  unfold Obligations.RbQueriesReturnRegisters
  exact fun s hc => ⟨State.whenValid_of_valid hc _, State.whenValid_of_valid hc _, State.whenValid_of_valid hc _,
    State.whenValid_of_valid hc _⟩

/-- Settles O22: RB.CLR's one case with a valid configuration; the ring it leaves has size 0. -/
theorem rbClrKeepsStorage : Obligations.RbClrKeepsStorage := by
  unfold Obligations.RbClrKeepsStorage
  intro s hc
  refine ⟨_, (execRbClr_eq_next s _).2 (.inr ⟨hc, rfl⟩), rfl, rfl, (State.contents_eq_nil _).2 rfl, ?_⟩
  exact exec_rbDeq_of_size_eq_zero hc rfl

/-! ## The copies of RB.SNAP -/

/-- Where the array has a cell RB.SNAP answers the logical contents (40_ring_buffer.md R108). -/
theorem exec_rbSnap_eq_contents {s : State} (hc : s.cfgErr = false) (hp : 0 < s.cfg.rbCap) :
    exec .rbSnap s = .next (s.answer (.ok (.seq s.contents)) []) := by
  have hsnap : s.snapshot = .ok s.contents := (State.snapshot_eq_ok s _).2 ⟨.inr hp, rfl⟩
  simp [exec, execRbSnap, State.whenValid_of_valid hc, hsnap, orFault]

/-- Contents that end at or before the last cell are one run of cells. -/
theorem State.contents_eq_one_copy {s : State} (h : s.head + s.size ≤ s.cfg.rbCap) :
    s.contents = (List.range' s.head s.size).map s.rbmem.read := by
  rw [State.contents, List.range'_eq_map_range, List.map_map]
  refine List.map_congr_left fun k hk => ?_
  have hk := List.mem_range.1 hk
  rw [Nat.mod_eq_of_lt (by omega), Function.comp_apply]

/-- Contents that pass the last cell are the cells from `head` on, then those from index 0 on. -/
theorem State.contents_eq_two_copies {s : State} (hs : s.size ≤ s.cfg.rbCap) (hh : s.head < s.cfg.rbCap)
    (h : s.cfg.rbCap < s.head + s.size) :
    s.contents = (List.range' s.head (s.cfg.rbCap - s.head)).map s.rbmem.read ++
      (List.range (s.head + s.size - s.cfg.rbCap)).map s.rbmem.read := by
  have parts : s.size = (s.cfg.rbCap - s.head) + (s.head + s.size - s.cfg.rbCap) := by omega
  rw [State.contents, parts, List.range_add, List.map_append, ← parts, List.range'_eq_map_range, List.map_map,
    List.map_map]
  congr 1
  · refine List.map_congr_left fun k hk => ?_
    have hk := List.mem_range.1 hk
    rw [Nat.mod_eq_of_lt (by omega), Function.comp_apply]
  · refine List.map_congr_left fun k hk => ?_
    have hk := List.mem_range.1 hk
    have wrap : s.head + (s.cfg.rbCap - s.head + k) = k + s.cfg.rbCap := by omega
    rw [Function.comp_apply, wrap, Nat.add_mod_right, Nat.mod_eq_of_lt (by omega)]

/-- Settles O23: the answer is `State.contents`, whose length and bytes are known, and the indices wrap at most once. -/
theorem rbSnapCopiesInLogicalOrder : Obligations.RbSnapCopiesInLogicalOrder := by
  unfold Obligations.RbSnapCopiesInLogicalOrder
  intro s hc ⟨hsize, _, hbounds⟩
  obtain ⟨hhead, _⟩ := hbounds hc
  refine ⟨s.contents, exec_rbSnap_eq_contents hc (Nat.zero_lt_of_lt hhead), s.length_contents, fun k hk => ?_, ?_⟩
  · rw [← s.length_contents] at hk
    rw [List.getElem?_eq_getElem hk, s.getElem_contents k hk]
  · split
    · next h => exact State.contents_eq_one_copy h
    · next h => exact State.contents_eq_two_copies hsize hhead (Nat.lt_of_not_le h)

/-! ## First in, first out -/

/-- `s` is a live state of the invariant on instance `c`, and its ring holds `q`: what the operations of a run keep
between them. -/
structure State.LiveRing (s : State) (c : Config) (q : Bytes) : Prop where
  inv : s.Inv
  valid : s.cfgErr = false
  cfg_eq : s.cfg = c
  contents_eq : s.contents = q

/-- One operation of the bounded queue, ready for the next. -/
theorem State.LiveRing.exec_fifoStep {s : State} {c : Config} {q q' : Bytes} {i : Instr} {st : Status}
    (h : s.LiveRing c q) (hi : fifoStep c.rbCap q i = some (st, q')) :
    ∃ t, exec i s = .next t ∧ t.status = some st ∧ t.events = [] ∧ t.LiveRing c q' := by
  obtain ⟨hs, hc, rfl, rfl⟩ := h
  obtain ⟨t, he, hst, hev, hq, ht⟩ := ringRefinesBoundedFifo i s st q' hs hc hi
  have hcfg : t.cfg = s.cfg := by
    obtain ⟨_, _, _, _, _, _, _, _, _, hcfg, _⟩ := operationsWriteOnlyTheirColumns i s t he
    exact hcfg
  exact ⟨t, he, hst, hev, ht, (exec_cfgErr_eq he).trans hc, hcfg, hq⟩

/-- A ring with room for them takes bytes behind its contents, without an event. -/
theorem State.LiveRing.trace_rbEnq {s : State} {c : Config} {q bs : Bytes} (h : s.LiveRing c q)
    (room : q.length + bs.length ≤ c.rbCap) :
    ∃ t, trace (bs.map .rbEnq) s = some (t, []) ∧ t.LiveRing c (q ++ bs) := by
  induction bs generalizing s q with
  | nil => exact ⟨s, rfl, by rwa [List.append_nil]⟩
  | cons b bs ih =>
    rw [List.length_cons] at room
    have enq : fifoStep c.rbCap q (.rbEnq b) = some (.ok .unit, q ++ [b]) := by
      rw [fifoStep, if_neg (by omega)]
    obtain ⟨t, he, _, hev, ht⟩ := h.exec_fifoStep enq
    obtain ⟨u, hu, hlive⟩ := ih ht (by rw [List.length_append, List.length_singleton]; omega)
    rw [List.append_assoc] at hlive
    exact ⟨u, by rw [List.map_cons, trace_cons he hu, hev]; rfl, hlive⟩

/-- Dequeueing as often as the ring has bytes, or less often, takes them off its front, without an event. -/
theorem State.LiveRing.trace_rbDeq {s : State} {c : Config} {q : Bytes} {k : Nat} (h : s.LiveRing c q)
    (hk : k ≤ q.length) :
    ∃ t, trace (List.replicate k .rbDeq) s = some (t, []) ∧ t.LiveRing c (q.drop k) := by
  induction k generalizing s q with
  | zero => exact ⟨s, rfl, h⟩
  | succ k ih =>
    cases q with
    | nil => exact absurd hk (Nat.not_succ_le_zero k)
    | cons b q =>
      obtain ⟨t, he, _, hev, ht⟩ := h.exec_fifoStep (i := .rbDeq) rfl
      obtain ⟨u, hu, hlive⟩ := ih ht (Nat.le_of_succ_le_succ hk)
      exact ⟨u, by rw [List.replicate_succ, trace_cons he hu, hev]; rfl, hlive⟩

/-- Settles O25: the enqueues leave `bs` as the contents, `k` dequeues leave `bs.drop k`, and the next dequeue answers
the head of that list. -/
theorem enqueuedBytesLeaveInOrder : Obligations.EnqueuedBytesLeaveInOrder := by
  unfold Obligations.EnqueuedBytesLeaveInOrder
  intro s bs k hs hc hz hcap hk
  have empty : s.LiveRing s.cfg [] := ⟨hs, hc, rfl, (State.contents_eq_nil s).2 hz⟩
  obtain ⟨t, hin, filled⟩ := empty.trace_rbEnq (by simpa using hcap)
  obtain ⟨u, hout, drained⟩ := filled.trace_rbDeq hk
  obtain ⟨v, hv, hst, _⟩ := drained.exec_fifoStep (i := .rbDeq) rfl
  refine ⟨u, v, trace_append hin hout, drained.contents_eq, hv, ?_⟩
  rw [hst, List.nil_append, ← List.head?_drop]
  cases bs.drop k <;> rfl

end Sys2Proof.Machine
end

section
/-! PROOF. The codec (41_cobs_codec.md): its functions against the rules' pseudocode, full runs, the round trips. -/

namespace Sys2Proof.Machine

/-! ## What the two operations answer -/

theorem exec_cobsEnc {s : State} (hc : s.cfgErr = false) (p : Bytes) (d : Byte) :
    exec (.cobsEnc p d) s = .next (s.answer (.ok (.seq (cobsEncode p d))) []) :=
  State.whenValid_of_valid hc _

theorem exec_cobsDec {s : State} (hc : s.cfgErr = false) (e : Bytes) (d : Byte) :
    exec (.cobsDec e d) s = s.okOrRaise ((cobsDecode e d).map .seq) :=
  State.whenValid_of_valid hc _

/-! ## COBS.ENC and its pseudocode -/

/-- Filling the open block's slot, which closes the block (41_cobs_codec.md R121). -/
def EncodeLoop.close (v : EncodeLoop) : Bytes := v.out.set v.slot (BitVec.ofNat 8 v.code)

/-- The loop's variables when the closed blocks are `done` and the open block has the literals `lits`: its slot is still
unfilled (41_cobs_codec.md R121). -/
def EncodeLoop.openBlock (done lits : Bytes) : EncodeLoop :=
  { out := done ++ 0x00 :: lits, slot := done.length, code := lits.length + 1 }

theorem EncodeLoop.close_openBlock (done lits : Bytes) : (openBlock done lits).close = done ++ closeBlock lits := by
  simp [close, openBlock, closeBlock, codeByte]

/-- One round of the pseudocode's loop is one round of the model's. -/
theorem encodeLoopBody_openBlock (d b : Byte) (done lits : Bytes) :
    encodeLoopBody d (.openBlock done lits) b =
      if b = d then .openBlock (done ++ closeBlock lits) []
      else if lits.length + 1 = 254 then .openBlock (done ++ closeBlock (lits ++ [b])) []
      else .openBlock done (lits ++ [b]) := by
  have full : (EncodeLoop.openBlock done lits).code + 1 = 255 ↔ lits.length + 1 = 254 := Nat.succ_inj
  rw [encodeLoopBody]
  simp only [full]
  split
  · rw [← EncodeLoop.close_openBlock]
    simp [EncodeLoop.openBlock, EncodeLoop.close]
  · split
    · next hf => simp [EncodeLoop.openBlock, closeBlock, codeByte, hf]
    · simp [EncodeLoop.openBlock]

/-- From an open block on, the pseudocode appends to the closed blocks what the model's loop makes. -/
theorem close_foldl_encodeLoopBody (d : Byte) (p done lits : Bytes) :
    (p.foldl (encodeLoopBody d) (.openBlock done lits)).close = done ++ encodeBlocks d lits p := by
  induction p generalizing done lits with
  | nil => exact EncodeLoop.close_openBlock done lits
  | cons b p ih =>
    rw [List.foldl_cons, encodeLoopBody_openBlock, encodeBlocks]
    split
    · rw [ih, List.append_assoc]
    · split
      · rw [ih, List.append_assoc]
      · exact ih done (lits ++ [b])

theorem encodePseudocode_eq_cobsEncode (p : Bytes) (d : Byte) : encodePseudocode p d = cobsEncode p d := by
  cases p with
  | nil => rfl
  | cons b p => exact congrArg (· ++ [d]) (close_foldl_encodeLoopBody d (b :: p) [] [])

/-- Settles O27: `encodePseudocode_eq_cobsEncode`. -/
theorem cobsEncMatchesPseudocode : Obligations.CobsEncMatchesPseudocode := by
  unfold Obligations.CobsEncMatchesPseudocode
  intro s p d hc
  rw [encodePseudocode_eq_cobsEncode]
  exact exec_cobsEnc hc p d

/-! ## COBS.DEC and its pseudocode -/

theorem sliceHalfOpen_eq_nil (e : Bytes) {i m : Nat} (h : m ≤ i) : sliceHalfOpen e i m = [] := by
  simp [sliceHalfOpen, Nat.sub_eq_zero_of_le h]

theorem length_sliceHalfOpen {e : Bytes} {m : Nat} (hm : m ≤ e.length) (i : Nat) :
    (sliceHalfOpen e i m).length = m - i := by
  rw [sliceHalfOpen, List.length_take, List.length_drop]
  omega

theorem sliceHalfOpen_append (e : Bytes) {a b c : Nat} (hab : a ≤ b) (hbc : b ≤ c) :
    sliceHalfOpen e a b ++ sliceHalfOpen e b c = sliceHalfOpen e a c := by
  obtain ⟨n, rfl⟩ := Nat.exists_eq_add_of_le hab
  have len : a + n + (c - (a + n)) - a = n + (c - (a + n)) := by omega
  rw [← Nat.add_sub_of_le hbc]
  simp only [sliceHalfOpen, len, Nat.add_sub_cancel_left, List.take_add, List.drop_drop]

/-- A code byte stands in front of the bytes from the next index on. -/
theorem sliceHalfOpen_eq_cons {e : Bytes} {i m : Nat} (hm : m ≤ e.length) (hi : i < m) :
    sliceHalfOpen e i m = e.getD i 0 :: sliceHalfOpen e (i + 1) m := by
  have code : sliceHalfOpen e i (i + 1) = [e.getD i 0] := by
    rw [sliceHalfOpen, List.drop_eq_getElem_cons (by omega), List.getD_eq_getElem _ _ (by omega),
      Nat.add_sub_cancel_left]
    rfl
  rw [← sliceHalfOpen_append e i.le_succ hi, code, List.singleton_append]

/-- The model's loop on a block whose code byte `L` stands at index `i`, in the pseudocode's indices
(41_cobs_codec.md R125). -/
theorem decodeBlocks_sliceHalfOpen (d : Byte) {e : Bytes} {i m L : Nat} (hm : m ≤ e.length)
    (hL : (e.getD i 0).toNat = L) (h0 : L ≠ 0) (h : i + L ≤ m) (k : Nat) :
    decodeBlocks d (k + 1) i (sliceHalfOpen e i m) =
      (decodeBlocks d k (i + L) (sliceHalfOpen e (i + L) m)).map fun out =>
        sliceHalfOpen e (i + 1) (i + L) ++ (if L < 255 ∧ i + L < m then [d] else []) ++ out := by
  have byte : L < 256 := hL ▸ (e.getD i 0).isLt
  have len : (sliceHalfOpen e (i + 1) (i + L)).length + 1 = L := by
    rw [length_sliceHalfOpen (by omega)]
    omega
  have code : codeByte (sliceHalfOpen e (i + 1) (i + L)) = e.getD i 0 :=
    BitVec.eq_of_toNat_eq (by rw [toNat_codeByte _ (by omega), len, hL])
  have block : sliceHalfOpen e i m = closeBlock (sliceHalfOpen e (i + 1) (i + L)) ++ sliceHalfOpen e (i + L) m := by
    rw [closeBlock, code, List.cons_append, sliceHalfOpen_append e (by omega) h, sliceHalfOpen_eq_cons hm (by omega)]
  have delim : (sliceHalfOpen e (i + 1) (i + L)).length < 254 ∧ sliceHalfOpen e (i + L) m ≠ [] ↔
      L < 255 ∧ i + L < m := by
    rw [← List.length_pos_iff, length_sliceHalfOpen hm]
    omega
  rw [block, decodeBlocks_closeBlock d k i _ _ (by omega), len]
  simp only [delim]

/-- From index `i` on, the pseudocode appends to its output what the model's loop makes of the bytes from there on. -/
theorem decodeLoop_eq_decodeBlocks (d : Byte) {e : Bytes} {m : Nat} (hm : m ≤ e.length) (k i : Nat) (out : Bytes) :
    decodeLoop e d m k i out = (decodeBlocks d k i (sliceHalfOpen e i m)).map (out ++ ·) := by
  induction k generalizing i out with
  | zero => cases sliceHalfOpen e i m <;> simp [decodeLoop, decodeBlocks, Except.map]
  | succ k ih =>
    rw [decodeLoop]
    split
    case isFalse hi => rw [sliceHalfOpen_eq_nil e (Nat.le_of_not_lt hi), decodeBlocks, Except.map, List.append_nil]
    case isTrue hi =>
      dsimp only
      split
      · next h0 =>
        have zero : e.getD i 0 = 0 := BitVec.eq_of_toNat_eq h0
        rw [sliceHalfOpen_eq_cons hm hi, zero, decodeBlocks, if_pos rfl, Except.map]
      · next h0 =>
        split
        · next ht =>
          have nonzero : e.getD i 0 ≠ 0 := fun h => h0 (by rw [h]; rfl)
          have short : (e.getD i 0 :: sliceHalfOpen e (i + 1) m).length < (e.getD i 0).toNat := by
            rw [List.length_cons, length_sliceHalfOpen hm]
            omega
          rw [sliceHalfOpen_eq_cons hm hi, decodeBlocks, if_neg nonzero, if_pos short, Except.map]
        · next ht =>
          rw [decodeBlocks_sliceHalfOpen d hm rfl h0 (Nat.le_of_not_lt ht), ih]
          cases decodeBlocks d k (i + (e.getD i 0).toNat) (sliceHalfOpen e (i + (e.getD i 0).toNat) m) with
          | error err => rfl
          | ok rest => split <;> simp [Except.map]

theorem cobsDecode_eq_decodeBlocks {e : Bytes} (he : e ≠ []) (d : Byte) :
    cobsDecode e d = decodeBlocks d (dropTerminator e d).length 0 (dropTerminator e d) := by
  cases e with
  | nil => exact absurd rfl he
  | cons b e => rfl

/-- Where the pseudocode ends its loop: before a terminator, else at the end of the input (41_cobs_codec.md R126). -/
def blocksEnd (e : Bytes) (d : Byte) : Nat := if e.getD (e.length - 1) 0 = d then e.length - 1 else e.length

theorem blocksEnd_le (e : Bytes) (d : Byte) : blocksEnd e d ≤ e.length := by
  unfold blocksEnd
  split <;> omega

/-- The model keeps the bytes before that end. -/
theorem dropTerminator_eq_sliceHalfOpen {e : Bytes} (he : e ≠ []) (d : Byte) :
    dropTerminator e d = sliceHalfOpen e 0 (blocksEnd e d) := by
  have pos := List.length_pos_iff.2 he
  have last : e.getLast? = some d ↔ e.getD (e.length - 1) 0 = d := by
    rw [List.getLast?_eq_getElem?, List.getD_eq_getElem _ _ (by omega), List.getElem?_eq_getElem, Option.some_inj]
  simp only [dropTerminator, blocksEnd, last]
  split <;> simp [sliceHalfOpen, List.dropLast_eq_take]

theorem decodePseudocode_eq_cobsDecode (e : Bytes) (d : Byte) : decodePseudocode e d = cobsDecode e d := by
  by_cases he : e = []
  · rw [he]
    rfl
  · have loop : decodePseudocode e d = decodeLoop e d (blocksEnd e d) (blocksEnd e d) 0 [] :=
      if_neg (mt List.length_eq_zero_iff.1 he)
    rw [loop, decodeLoop_eq_decodeBlocks d (blocksEnd_le e d), cobsDecode_eq_decodeBlocks he,
      dropTerminator_eq_sliceHalfOpen he, length_sliceHalfOpen (blocksEnd_le e d), Nat.sub_zero]
    cases decodeBlocks d (blocksEnd e d) 0 (sliceHalfOpen e 0 (blocksEnd e d)) <;> rfl

/-- Settles O28: `decodePseudocode_eq_cobsDecode`; a value and an error are answered alike on both sides. -/
theorem cobsDecMatchesPseudocode : Obligations.CobsDecMatchesPseudocode := by
  unfold Obligations.CobsDecMatchesPseudocode
  intro s e d hc
  rw [decodePseudocode_eq_cobsDecode, exec_cobsDec hc]
  cases cobsDecode e d with
  | ok out => rfl
  | error err => rfl

/-! ## Full runs -/

/-- A block with 254 literals has code byte 0xFF (30_encoding.md R71). -/
theorem closeBlock_full {x : Bytes} (h : x.length = 254) : closeBlock x = 0xFF :: x := by
  simp [closeBlock, codeByte, h]

/-- Delimiter-free bytes that fill the open block close it, whatever follows (41_cobs_codec.md R124). -/
theorem encodeBlocks_fill {d : Byte} {lits x : Bytes} (hd : d ∉ x) (hl : lits.length < 254)
    (hx : lits.length + x.length = 254) (p : Bytes) :
    encodeBlocks d lits (x ++ p) = closeBlock (lits ++ x) ++ encodeBlocks d [] p := by
  induction x generalizing lits with
  | nil => exact absurd hx hl.ne
  | cons b x ih =>
    obtain ⟨hb, hd⟩ := List.ne_and_not_mem_of_not_mem_cons hd
    rw [List.length_cons] at hx
    rw [List.cons_append, encodeBlocks, if_neg (Ne.symm hb)]
    split
    · next hf =>
      obtain rfl : x = [] := List.eq_nil_of_length_eq_zero (by omega)
      rfl
    · next hf =>
      rw [ih hd (by simp; omega) (by simp; omega), List.append_assoc, List.singleton_append]

/-- A payload that starts with a full run (41_cobs_codec.md R124). -/
theorem cobsEncode_full_append {d : Byte} {x : Bytes} (hx : x.length = 254) (hd : d ∉ x) (p : Bytes) :
    cobsEncode (x ++ p) d = [0xFF] ++ x ++ encodeBlocks d [] p ++ [d] := by
  have ne : x ++ p ≠ [] := List.ne_nil_of_length_pos (by simp; omega)
  rw [cobsEncode_eq _ d ne, encodeBlocks_fill hd (by simp) (by simpa using hx), List.nil_append, closeBlock_full hx]
  rfl

theorem cobsDecode_append_terminator (e : Bytes) (d : Byte) :
    cobsDecode (e ++ [d]) d = decodeBlocks d e.length 0 e := by
  rw [cobsDecode_eq_decodeBlocks (by simp), dropTerminator_append]

/-- A full block in front adds its literals and no delimiter (41_cobs_codec.md R125). -/
theorem cobsDecode_full_append {x : Bytes} (hx : x.length = 254) (rest : Bytes) (d : Byte) :
    cobsDecode ([0xFF] ++ x ++ rest ++ [d]) d = (decodeBlocks d (254 + rest.length) 255 rest).map (x ++ ·) := by
  have len : (closeBlock x ++ rest).length = 254 + rest.length + 1 := by
    rw [List.length_append, length_closeBlock, hx]
    omega
  rw [List.singleton_append, ← closeBlock_full hx, cobsDecode_append_terminator, len,
    decodeBlocks_closeBlock d _ _ _ _ hx.le, hx]
  simp

/-- Settles O30: `cobsEncode_full_append` with what follows the run, and a full block decodes to its literals, with no
delimiter whether it is the last block or not (41_cobs_codec.md R125). -/
theorem fullRunsChain : Obligations.FullRunsChain := by
  unfold Obligations.FullRunsChain
  refine ⟨fun d => rfl, fun x d hx hd => ?_, fun x d y hx hd hy => ?_, fun x d hx hd => ?_,
    fun x d hx => ⟨?_, ?_⟩⟩
  · have full := cobsEncode_full_append hx hd []
    rw [List.append_nil] at full
    simp [full, encodeBlocks, closeBlock, codeByte]
  · simp [cobsEncode_full_append hx hd, encodeBlocks, hy, closeBlock, codeByte]
  · simp [cobsEncode_full_append hx hd, encodeBlocks, closeBlock, codeByte]
  · rw [List.append_cons _ 0x01 [d], cobsDecode_full_append hx [0x01] d]
    simp [decodeBlocks, Except.map]
  · rw [← List.append_nil ([0xFF] ++ x), cobsDecode_full_append hx [] d]
    simp [decodeBlocks, Except.map]

/-! ## Round trips -/

/-- The round trip (41_cobs_codec.md R128). -/
theorem cobsDecode_cobsEncode (p : Bytes) (d : Byte) : cobsDecode (cobsEncode p d) d = .ok p := by
  by_cases hp : p = []
  · subst hp
    exact cobsDecode_append_terminator [] d
  · rw [cobsEncode_eq p d hp, cobsDecode_append_terminator]
    exact decodeBlocks_encodeBlocks d p [] _ 0 (by simp) le_rfl

/-- The terminator is an encoding's last byte (30_encoding.md R70). -/
theorem getLast?_cobsEncode (p : Bytes) (d : Byte) : (cobsEncode p d).getLast? = some d := by
  cases p with
  | nil => rfl
  | cons b p => exact List.getLast?_concat

/-- COBS.DEC answers an encoding with its payload. -/
theorem exec_cobsDec_cobsEncode {s : State} (hc : s.cfgErr = false) (p : Bytes) (d : Byte) :
    exec (.cobsDec (cobsEncode p d) d) s = .next (s.answer (.ok (.seq p)) []) := by
  rw [exec_cobsDec hc, cobsDecode_cobsEncode]
  rfl

/-- Settles O31: `exec_cobsDec_cobsEncode`, in the state that COBS.ENC leaves. -/
theorem codecRoundTrip : Obligations.CodecRoundTrip := by
  unfold Obligations.CodecRoundTrip
  intro s p d hc
  exact ⟨cobsEncode p d, _, _, exec_cobsEnc hc p d, rfl, exec_cobsDec_cobsEncode hc p d, rfl, getLast?_cobsEncode p d⟩

/-- The blocks of an encoding end in a literal, which is never `d`, or in the code byte 0x01 of an empty block
(41_cobs_codec.md R130). -/
theorem getLast?_encodeBlocks_ne {d : Byte} (hd : d ≠ 0x01) {lits : Bytes} (hl : d ∉ lits) (p : Bytes) :
    (encodeBlocks d lits p).getLast? ≠ some d := by
  induction p generalizing lits with
  | nil =>
    rcases List.eq_nil_or_concat' lits with rfl | ⟨l, b, rfl⟩
    · exact fun h => hd (Option.some_inj.1 h).symm
    · have last : (encodeBlocks d (l ++ [b]) []).getLast? = some b := by
        rw [encodeBlocks, closeBlock, ← List.cons_append, List.getLast?_concat]
      rw [last]
      exact fun h => hl (by simp [Option.some_inj.1 h])
  | cons b p ih =>
    have block : ∀ l, (closeBlock l ++ encodeBlocks d [] p).getLast? ≠ some d := fun l => by
      rw [List.getLast?_append_of_ne_nil _ (encodeBlocks_ne_nil d [] p)]
      exact ih List.not_mem_nil
    unfold encodeBlocks
    split
    · exact block _
    · next hb =>
      split
      · exact block _
      · exact ih (by simp [hl, Ne.symm hb])

/-- Settles O32: no byte is taken for the terminator, and the blocks decode to the payload. -/
theorem terminatorlessRoundTrip : Obligations.TerminatorlessRoundTrip := by
  unfold Obligations.TerminatorlessRoundTrip
  intro p d hp hd
  have kept : dropTerminator (encodeBlocks d [] p) d = encodeBlocks d [] p :=
    if_neg (getLast?_encodeBlocks_ne hd List.not_mem_nil p)
  rw [cobsEncode_eq p d hp, List.dropLast_concat, cobsDecode_eq_decodeBlocks (encodeBlocks_ne_nil d [] p), kept]
  exact decodeBlocks_encodeBlocks d p [] _ 0 (Nat.zero_le _) le_rfl

end Sys2Proof.Machine
end

section
/-! PROOF. The checksum engine (42_checksum.md): the register's operations and the table form, CRC.SUM as a run of them,
and CRC.MSUM's three outcomes. -/

namespace Sys2Proof.Machine

/-! ## The register -/

theorem exec_crcInit {s : State} (hc : s.cfgErr = false) :
    exec .crcInit s = .next (State.answer { s with acc := crcInitial } (.ok .unit) []) :=
  State.whenValid_of_valid hc _

theorem exec_crcUpd {s : State} (hc : s.cfgErr = false) (b : Byte) :
    exec (.crcUpd b) s = .next (State.answer { s with acc := crcByte s.acc b } (.ok .unit) []) :=
  State.whenValid_of_valid hc _

theorem exec_crcFin {s : State} (hc : s.cfgErr = false) :
    exec .crcFin s = .next (s.answer (.ok (.word (crcFinal s.acc))) []) :=
  State.whenValid_of_valid hc _

theorem exec_crcSum {s : State} (hc : s.cfgErr = false) (data : Bytes) :
    exec (.crcSum data) s = .next (s.answer (.ok (.word (crcSum data))) []) :=
  State.whenValid_of_valid hc _

/-- Settles O35: `crcInitial` and `crcFinal` have the rules' constants. -/
theorem crcInitAndFin : Obligations.CrcInitAndFin := by
  unfold Obligations.CrcInitAndFin
  exact fun s hc => ⟨exec_crcInit hc, exec_crcFin hc⟩

/-- A byte enters at bits 7:0 only, so the word is its own upper 24 bits and the low byte exclusive-or the byte. -/
theorem xor_byte_eq_high_xor_low (a : Word32) (b : Byte) :
    a ^^^ b.setWidth 32 = (a >>> 8 <<< 8) ^^^ (a.setWidth 8 ^^^ b).setWidth 32 := by
  refine BitVec.eq_of_getLsbD_eq fun k hk => ?_
  by_cases low : k < 8
  · simp [low, hk]
  · simp [low, hk, Nat.le_of_not_lt low]

/-- Shifting out a low byte of zeros loses nothing. -/
theorem shiftRight_shiftLeft_shiftRight (a : Word32) : a >>> 8 <<< 8 >>> 8 = a >>> 8 := by
  refine BitVec.eq_of_getLsbD_eq fun k hk => ?_
  by_cases inside : 8 + k < 32
  · simp [inside]
  · simp [inside, BitVec.getLsbD_of_ge a (8 + k) (Nat.le_of_not_lt inside)]

/-- The table form (42_checksum.md R142): the upper 24 bits are only shifted, and the steps are linear. -/
theorem crcByte_eq_table (a : Word32) (b : Byte) :
    crcByte a b = (a >>> 8) ^^^ crcShifts 8 ((a.setWidth 8 ^^^ b).setWidth 32) := by
  have shifted : crcShifts 8 (a >>> 8 <<< 8) = a >>> 8 := by
    rw [crcShifts_of_low_zero 8 _ fun j hj => by simp [hj], shiftRight_shiftLeft_shiftRight]
  rw [crcByte, xor_byte_eq_high_xor_low, crcShifts_xor, shifted]

/-- Settles O36: the rule's step is `crcShift`, and the table form is `crcByte_eq_table`. -/
theorem crcUpdTableForm : Obligations.CrcUpdTableForm := by
  unfold Obligations.CrcUpdTableForm
  refine fun s b hc => ⟨exec_crcUpd hc b, ?_⟩
  rw [exec_crcUpd hc, crcByte_eq_table]
  rfl

/-! ## CRC.SUM -/

/-- CRC.UPDs one after the other fold the bytes into ACC, without an event. -/
theorem trace_crcUpd {s : State} (hc : s.cfgErr = false) (data : Bytes) :
    ∃ t, trace (data.map .crcUpd) s = some (t, []) ∧ t.cfgErr = false ∧ t.acc = data.foldl crcByte s.acc := by
  induction data generalizing s with
  | nil => exact ⟨s, rfl, hc, rfl⟩
  | cons b data ih =>
    obtain ⟨t, htrace, hvalid, hacc⟩ := ih (s := State.answer { s with acc := crcByte s.acc b } (.ok .unit) []) hc
    exact ⟨t, trace_cons (exec_crcUpd hc b) htrace, hvalid, hacc⟩

/-- Settles O37: the CRC.UPDs fold the bytes into the value of CRC.INIT (`trace_crcUpd`), as `crcSum` does. -/
theorem crcSumIsInitUpdFin : Obligations.CrcSumIsInitUpdFin := by
  unfold Obligations.CrcSumIsInitUpdFin
  intro s data hc
  obtain ⟨t, updates, hvalid, hacc⟩ :=
    trace_crcUpd (s := State.answer { s with acc := crcInitial } (.ok .unit) []) hc data
  have fin : exec .crcFin t = .next (t.answer (.ok (.word (crcSum data))) []) := by
    rw [exec_crcFin hvalid, hacc]
    rfl
  exact ⟨_, _, crcSum data, trace_append (trace_cons (exec_crcInit hc) updates) (trace_cons fin (trace_nil _)), rfl,
    exec_crcSum hc data, rfl⟩

/-! ## CRC.MSUM -/

theorem exec_crcMsum {s : State} (hc : s.cfgErr = false) (data : Bytes) (fields : Schema) :
    exec (.crcMsum data fields) s = s.okOrRaise ((crcMaskedSum data fields).map .word) :=
  State.whenValid_of_valid hc _

/-- The bytes CRC.MSUM hashes: those at indices 1 to n-5, the masked ones zero (42_checksum.md R146). -/
def maskedWindow (data : Bytes) (fields : Schema) : Bytes :=
  (List.range (data.length - 5)).map fun k => if maskedAt fields (k + 1) then 0x00 else data.getD (k + 1) 0x00

/-- Masking the fields and then the trailer leaves in the window what `maskedWindow` says. -/
theorem slice_masked_eq_maskedWindow (data : Bytes) (fields : Schema) :
    sliceHalfOpen (zeroRange (data.mapIdx fun k x => if maskedAt fields k then 0 else x) (data.length - 4)
      (data.length - 1)) 1 (data.length - 4) = maskedWindow data fields := by
  refine List.ext_getElem? fun k => ?_
  simp only [maskedWindow, sliceHalfOpen, List.getElem?_take, List.getElem?_drop, List.getElem?_map]
  by_cases hk : k < data.length - 5
  · have inside : k + 1 < data.length := by omega
    rw [if_pos (by omega), Nat.add_comm 1 k, getElem?_zeroRange, if_neg (by omega), List.getElem?_range hk]
    simp [inside]
  · rw [if_neg (by omega), List.getElem?_eq_none (l := List.range _) (by simpa using hk)]
    rfl

/-- Fewer than 5 bytes have no window (42_checksum.md R149). -/
theorem crcMaskedSum_of_short {data : Bytes} (h : data.length < 5) (fields : Schema) :
    crcMaskedSum data fields = .error (.frameTooShort data.length) :=
  if_pos h

/-- With valid zerofill ranges the masked window is hashed (42_checksum.md R146). -/
theorem crcMaskedSum_of_valid {data : Bytes} {fields : Schema} (h : 5 ≤ data.length)
    (valid : ∀ f ∈ fields, f.zerofill = true → f.startIdx ≤ f.endIdx ∧ f.endIdx < data.length) :
    crcMaskedSum data fields = .ok (crcSum (maskedWindow data fields)) := by
  rw [crcMaskedSum, if_neg (Nat.not_lt.2 h), (maskFields_eq_ok data.length 0 fields data _).2 ⟨valid, rfl⟩]
  exact congrArg (fun w => Except.ok (crcSum w)) (slice_masked_eq_maskedWindow data fields)

/-- The first invalid zerofill descriptor is reported (42_checksum.md R147). -/
theorem crcMaskedSum_of_first_invalid {data : Bytes} {pre post : Schema} {f : FieldDescriptor} (h : 5 ≤ data.length)
    (valid : ∀ g ∈ pre, g.zerofill = true → g.startIdx ≤ g.endIdx ∧ g.endIdx < data.length) (hz : f.zerofill = true)
    (invalid : ¬(f.startIdx ≤ f.endIdx ∧ f.endIdx < data.length)) :
    crcMaskedSum data (pre ++ f :: post) = .error (.invalidFieldRange (some (pre.length, f.name))) := by
  rw [crcMaskedSum, if_neg (Nat.not_lt.2 h), maskFields_eq_error _ 0 pre post f data valid hz invalid, Nat.zero_add]

/-- Either every zerofill range is valid for `n` bytes, or there is a first one that is not. -/
theorem zerofill_valid_or_first_invalid (n : Nat) (fields : Schema) :
    (∀ f ∈ fields, f.zerofill = true → f.startIdx ≤ f.endIdx ∧ f.endIdx < n) ∨
    ∃ (pre post : Schema) (f : FieldDescriptor), fields = pre ++ f :: post ∧
      (∀ g ∈ pre, g.zerofill = true → g.startIdx ≤ g.endIdx ∧ g.endIdx < n) ∧ f.zerofill = true ∧
      ¬(f.startIdx ≤ f.endIdx ∧ f.endIdx < n) := by
  induction fields with
  | nil => exact .inl nofun
  | cons f fields ih =>
    by_cases hf : f.zerofill = true → f.startIdx ≤ f.endIdx ∧ f.endIdx < n
    · rcases ih with valid | ⟨pre, post, g, rfl, valid, hz, invalid⟩
      · exact .inl (List.forall_mem_cons.2 ⟨hf, valid⟩)
      · exact .inr ⟨f :: pre, post, g, rfl, List.forall_mem_cons.2 ⟨hf, valid⟩, hz, invalid⟩
    · obtain ⟨hz, invalid⟩ := Classical.not_imp.1 hf
      exact .inr ⟨[], fields, f, rfl, nofun, hz, invalid⟩

/-- CRC.MSUM's checksum, on data with a window and valid zerofill ranges. -/
theorem exec_crcMsum_of_valid {s : State} {data : Bytes} {fields : Schema} (hc : s.cfgErr = false)
    (h : 5 ≤ data.length)
    (valid : ∀ f ∈ fields, f.zerofill = true → f.startIdx ≤ f.endIdx ∧ f.endIdx < data.length) :
    exec (.crcMsum data fields) s = .next (s.answer (.ok (.word (crcSum (maskedWindow data fields)))) []) := by
  rw [exec_crcMsum hc, crcMaskedSum_of_valid h valid]
  rfl

/-- Settles O38: `exec_crcMsum_of_valid`; the statement's bytes are `maskedWindow`. -/
theorem msumHashesMaskedWindow : Obligations.MsumHashesMaskedWindow := by
  unfold Obligations.MsumHashesMaskedWindow
  exact fun s data fields hc h valid => exec_crcMsum_of_valid hc h valid

/-- Five bytes leave no byte between byte 0 and the trailer (42_checksum.md R149). -/
theorem maskedWindow_of_length_eq_five {data : Bytes} (h : data.length = 5) (fields : Schema) :
    maskedWindow data fields = [] := by
  simp [maskedWindow, h]

/-- Settles O39: short data and a first invalid range are `crcMaskedSum`'s two errors, and the window of five bytes is
empty. -/
theorem msumErrors : Obligations.MsumErrors := by
  unfold Obligations.MsumErrors
  refine fun s data fields hc => ⟨fun h => ?_, fun h valid => ?_, fun pre post f h hfields valid hz invalid => ?_⟩
  · rw [exec_crcMsum hc, crcMaskedSum_of_short h]
    rfl
  · rw [exec_crcMsum_of_valid hc h.ge valid, maskedWindow_of_length_eq_five h]
    rfl
  · rw [hfields, exec_crcMsum hc, crcMaskedSum_of_first_invalid h valid hz invalid]
    rfl

theorem maskedAt_eq_false {fields : Schema} {k : Nat} (h : maskedAt fields k = false) :
    ∀ f ∈ fields, f.zerofill = true → ¬(f.startIdx ≤ k ∧ k ≤ f.endIdx) := by
  simpa [maskedAt] using h

/-- Data that agree outside the masked bytes have the same masked window (42_checksum.md R148). -/
theorem maskedWindow_congr {data data' : Bytes} {fields : Schema} (hlen : data'.length = data.length)
    (agree : ∀ k, 1 ≤ k → k + 4 < data.length →
      (∀ f ∈ fields, f.zerofill = true → ¬(f.startIdx ≤ k ∧ k ≤ f.endIdx)) → data'[k]? = data[k]?) :
    maskedWindow data' fields = maskedWindow data fields := by
  rw [maskedWindow, hlen]
  refine List.map_congr_left fun k hk => ?_
  have inWindow : k + 1 + 4 < data.length := by
    have := List.mem_range.1 hk
    omega
  cases hm : maskedAt fields (k + 1) with
  | true => rfl
  | false =>
    rw [List.getD_eq_getElem?_getD, agree (k + 1) (Nat.le_add_left 1 k) inWindow (maskedAt_eq_false hm),
      ← List.getD_eq_getElem?_getD]

/-- The checksum, or the error, depends on the length, the schema and the masked window alone. -/
theorem crcMaskedSum_congr {data data' : Bytes} {fields : Schema} (hlen : data'.length = data.length)
    (window : maskedWindow data' fields = maskedWindow data fields) :
    crcMaskedSum data' fields = crcMaskedSum data fields := by
  rcases Nat.lt_or_ge data.length 5 with short | long
  · rw [crcMaskedSum_of_short short, crcMaskedSum_of_short (hlen ▸ short), hlen]
  · have long' : 5 ≤ data'.length := hlen ▸ long
    rcases zerofill_valid_or_first_invalid data.length fields with valid | ⟨pre, post, f, rfl, valid, hz, invalid⟩
    · rw [crcMaskedSum_of_valid long valid, crcMaskedSum_of_valid long' (hlen ▸ valid), window]
    · rw [crcMaskedSum_of_first_invalid long valid hz invalid,
        crcMaskedSum_of_first_invalid long' (hlen ▸ valid) hz (hlen ▸ invalid)]

/-- Settles O40: the masked windows are equal, and CRC.MSUM's outcome is `crcMaskedSum`'s in any state. -/
theorem msumIgnoresMaskedBytes : Obligations.MsumIgnoresMaskedBytes := by
  unfold Obligations.MsumIgnoresMaskedBytes
  intro s data data' fields hlen agree
  exact congrArg (fun r => s.whenValid (s.okOrRaise (r.map .word)))
    (crcMaskedSum_congr hlen (maskedWindow_congr hlen agree))

end Sys2Proof.Machine
end

section
/-! PROOF. The frame scanner (43_frame_scanner.md): ingest, the transition table, what the operations emit, a packet of
bytes, the pass round by round, deframing, and the way in from end to end. -/

namespace Sys2Proof.Machine

/-! ## Ingest -/

/-- A ring with room stores a pushed byte as RB.ENQ does (43_frame_scanner.md R160). -/
theorem exec_rxPush_of_room {s : State} (b : Byte) (hc : s.cfgErr = false) (hf : s.fatal = false)
    (hn : s.size ≠ s.cfg.rbCap) (ht : s.tail < s.cfg.rbCap) :
    exec (.rxPush b) s = .next ((s.stored b).answer (.ok .unit) []) :=
  (execRxPush_eq_next b s _).2 (.inr (.inr (.inr ⟨hc, hf, hn, ht, rfl⟩)))

/-- Settles O42: of `execRxPush_eq_next` FATAL and the size leave one case each; the state after an overflow has FATAL
set, and the array a store leaves is the old one with a byte written at `tail`. -/
theorem rxPushStoresOrLatches : Obligations.RxPushStoresOrLatches := by
  unfold Obligations.RxPushStoresOrLatches
  refine fun s b hc => ⟨fun hf => exec_fatal hc hf rfl, fun hf hn => ?_, fun hf hn ht hw => ?_⟩
  · refine ⟨_, (execRxPush_eq_next b s _).2 (.inr (.inr (.inl ⟨hc, hf, hn, rfl⟩))), rfl, fun b' => ?_⟩
    exact exec_fatal hc rfl rfl
  · exact ⟨s.rbmem.write s.tail b, exec_rxPush_of_room b hc hf hn ht, Memory.read_write_same s.tail b hw,
      fun a ha => Memory.read_write_ne s.rbmem b ha, Memory.wf_write s.tail b hw⟩

/-- A ring with room for them takes pushed bytes behind its contents, without an event, and nothing but the ring
changes. -/
theorem trace_rxPush {s : State} {bs : Bytes} (hs : s.Inv) (hc : s.cfgErr = false) (hf : s.fatal = false)
    (room : s.size + bs.length ≤ s.cfg.rbCap) :
    ∃ u, trace (bs.map .rxPush) s = some (u, []) ∧ u.Inv ∧ u.contents = s.contents ++ bs ∧
      u = { s with rbmem := u.rbmem, tail := u.tail, size := u.size, reply := u.reply } := by
  induction bs generalizing s with
  | nil => exact ⟨s, rfl, hs, (List.append_nil _).symm, rfl⟩
  | cons b bs ih =>
    rw [List.length_cons] at room
    have hn : s.size ≠ s.cfg.rbCap := by omega
    have push := exec_rxPush_of_room b hc hf hn (hs.tail_lt hc)
    have more : (s.stored b).size + bs.length ≤ (s.stored b).cfg.rbCap := by
      simp only [State.stored]
      omega
    obtain ⟨u, hu, hinv, hq, frame⟩ :=
      ih (s := (s.stored b).answer (.ok .unit) []) (State.inv_exec hs push) hc hf more
    refine ⟨u, trace_cons push hu, hinv, ?_, frame⟩
    rw [hq, State.contents_answer, State.contents_stored b hs hn, List.append_assoc, List.singleton_append]

/-! ## One byte -/

/-- A byte that is not held goes through the scanner (43_frame_scanner.md R161). -/
theorem exec_scStep_of_not_held {s : State} {b : Byte} (hc : s.cfgErr = false) (hf : s.fatal = false)
    (hb : s.scanHeld b = false) :
    exec (.scStep b) s = .next ((s.scanByte b).1.answer (.ok .unit) (s.scanByte b).2) :=
  (execScStep_eq_next b s _).2 (.inr (.inr (.inr ⟨hc, hf, hb, rfl⟩)))

theorem State.scanHeld_eq_false {s : State} {b : Byte}
    (h : b ≠ s.cfg.delim ∨ s.readCount ≠ s.cfg.pktSize ∨ s.fq.length ≠ s.cfg.fqCap) : s.scanHeld b = false := by
  rw [Bool.eq_false_iff, Ne, State.scanHeld_iff]
  tauto

/-- Settles O43: Hold is `State.scanHeld`; in every other row the byte goes through the scanner, whose table is
`State.scanByte_eq`. -/
theorem scStepTransitionTable : Obligations.ScStepTransitionTable := by
  unfold Obligations.ScStepTransitionTable
  intro s b hc hf
  have row : ∀ {u : State} {evs : List Event}, s.scanHeld b = false → s.scanByte b = (u, evs) →
      exec (.scStep b) s = .next (u.answer (.ok .unit) evs) := fun hb e => by
    rw [exec_scStep_of_not_held hc hf hb, e]
  refine ⟨fun hr hb hw => ?_, fun hr hb => ?_, fun hr hb hq => ?_, fun hr hb hq => ?_, fun hr hb => ?_⟩
  · refine ⟨s.pb.write s.readCount b, row (State.scanHeld_eq_false (.inl hb)) ?_, Memory.read_write_same _ b hw,
      fun a ha => Memory.read_write_ne s.pb b ha, Memory.wf_write _ b hw⟩
    rw [State.scanByte_eq b hr.le, if_neg hb, if_neg hr.ne]
  · refine row (State.scanHeld_eq_false (.inr (.inl hr.ne))) ?_
    rw [State.scanByte_eq b hr.le, if_pos hb, if_neg hr.ne]
  · refine row (State.scanHeld_eq_false (.inr (.inr hq))) ?_
    rw [State.scanByte_eq b hr.le, if_pos hb, if_pos hr]
    rfl
  · exact (execScStep_eq_next b s _).2 (.inr (.inr (.inl ⟨hc, hf, (State.scanHeld_iff s b).2 ⟨hb, hr, hq⟩, rfl⟩)))
  · refine row (State.scanHeld_eq_false (.inl hb)) ?_
    rw [State.scanByte_eq b hr.le, if_neg hb, if_pos hr]

/-- A byte collected above PKT_SIZE is stored nowhere (log 8) and the defensive check reports it
(43_frame_scanner.md R166). -/
theorem State.scanByte_overrun {s : State} {b : Byte} (hr : s.cfg.pktSize < s.readCount) (hb : b ≠ s.cfg.delim) :
    s.scanByte b = ({ s with readCount := 0 }, [.warn (.bufferOverrun (s.readCount + 1))]) := by
  have inside : ¬s.readCount < s.cfg.pktSize := Nat.not_lt.2 hr.le
  simp [State.scanByte, State.scanCase, State.parseFull, State.parseStore, State.defensiveCheck, hb, hr.ne', inside,
    Nat.lt_succ_of_lt hr]

/-! ## What the operations emit -/

/-- The frame an event carries. -/
def Event.frame? : Event → Option Bytes
  | .frame f => some f
  | _ => none

/-- The frames among some events, in order. -/
def framesOf (evs : List Event) : List Bytes := evs.filterMap Event.frame?

theorem framesOf_append (evs evs' : List Event) : framesOf (evs ++ evs') = framesOf evs ++ framesOf evs' :=
  List.filterMap_append

theorem mem_framesOf {f : Bytes} {evs : List Event} (h : Event.frame f ∈ evs) : f ∈ framesOf evs :=
  List.mem_filterMap.2 ⟨.frame f, h, rfl⟩

/-- The events of the transition table (43_frame_scanner.md R168). -/
inductive Event.OfScanner : Event → Prop where
  | frame (f : Bytes) : OfScanner (.frame f)
  | mismatch (n : Nat) : OfScanner (.warn (.delimiterMismatch n))
  | missing (b : Byte) : OfScanner (.warn (.delimiterMissing b))

/-- `evs` are events of the transition table, and FQ grew from `q` to `q'` by the frames among them. -/
structure Emits (q : List Bytes) (evs : List Event) (q' : List Bytes) : Prop where
  ofScanner : ∀ e ∈ evs, e.OfScanner
  fq_eq : q' = q ++ framesOf evs

theorem Emits.nil (q : List Bytes) : Emits q [] q := ⟨nofun, (List.append_nil q).symm⟩

theorem Emits.trans {q q' q'' : List Bytes} {evs evs' : List Event} (h : Emits q evs q') (h' : Emits q' evs' q'') :
    Emits q (evs ++ evs') q'' := by
  refine ⟨fun e he => (List.mem_append.1 he).elim (h.ofScanner e) (h'.ofScanner e), ?_⟩
  rw [h'.fq_eq, h.fq_eq, framesOf_append, List.append_assoc]

/-- One byte emits an event of the table or none, and stays within the parse buffer. -/
theorem State.scanByte_emits {s : State} (b : Byte) (h : s.readCount ≤ s.cfg.pktSize) :
    Emits s.fq (s.scanByte b).2 (s.scanByte b).1.fq ∧ (s.scanByte b).1.readCount ≤ s.cfg.pktSize := by
  rcases State.scanByte_cases s b h with ⟨_, _, e⟩ | ⟨_, _, e⟩ | ⟨_, _, e⟩ | ⟨_, hr, e⟩ <;> rw [e]
  · exact ⟨⟨by simpa using .frame _, rfl⟩, Nat.zero_le _⟩
  · exact ⟨⟨by simpa using .mismatch _, (List.append_nil _).symm⟩, Nat.zero_le _⟩
  · exact ⟨⟨by simpa using .missing _, (List.append_nil _).symm⟩, Nat.zero_le _⟩
  · exact ⟨Emits.nil s.fq, hr⟩

/-- A pass emits what its bytes emit. -/
theorem passLoop_emits {n : Nat} {s t : State} (hr : s.readCount ≤ s.cfg.pktSize)
    (h : passLoop n s [] = .next t) : Emits s.fq t.events t.fq := by
  obtain ⟨m, u, es, e, ⟨hu, _⟩, rfl, _⟩ :=
    passLoop_induct (P := fun _ u es => Emits s.fq es u.fq ∧ u.readCount ≤ u.cfg.pktSize) n s t []
      ⟨Emits.nil s.fq, hr⟩ (fun m u es ⟨hu, hr⟩ _ _ => by
        obtain ⟨byte, inside⟩ := State.scanByte_emits (s := u.dropOldest) (u.rbmem.read u.head) hr
        exact ⟨hu.trans byte, by simpa using inside⟩) h
  exact hu

/-- FR.CHK aside, an operation emits events of the transition table only, and FQ grows by the frames among them. -/
theorem exec_emits {i : Instr} {s t : State} (hr : s.readCount ≤ s.cfg.pktSize) (hi : i ≠ .frChk)
    (h : exec i s = .next t) : Emits s.fq t.events t.fq := by
  rcases exec_cases h with ⟨st, rfl⟩ | ⟨w, _, _, rfl⟩ | ⟨b, _, _, _, _, rfl⟩ | ⟨_, _, _, _, rfl⟩ | ⟨_, _, rfl⟩ |
    ⟨b, _, _, _, _, rfl⟩ | ⟨b, _, _, _, _, rfl⟩ | ⟨_, _, _, _, hp⟩ | ⟨e, rest, rfl, _⟩
  case inr.inr.inr.inr.inr.inr.inl => exact (State.scanByte_emits b hr).1
  case inr.inr.inr.inr.inr.inr.inr.inl => exact passLoop_emits hr hp
  case inr.inr.inr.inr.inr.inr.inr.inr => exact absurd rfl hi
  all_goals exact Emits.nil s.fq

/-- Everything FR.CHK can emit (43_frame_scanner.md R176): nothing, or the one event of the oldest frame's decoding. -/
theorem execFrChk_events {s t : State} (h : exec .frChk s = .next t) :
    t.events = [] ∨ ∃ f ∈ s.fq,
      (∃ err, t.events = [.error err]) ∨
      (∃ out, cobsDecode f s.cfg.delim = .ok out ∧ out.length = s.cfg.msgSize ∧ t.events = [.data out]) ∨
      (∃ out, cobsDecode f s.cfg.delim = .ok out ∧ out.length ≠ s.cfg.msgSize ∧
        t.events = [.warn (.lengthMismatch out.length)]) := by
  rcases (execFrChk_eq_next s t).1 h with ⟨_, rfl⟩ | ⟨_, _, rfl⟩ | ⟨_, _, f, rest, hq, rfl⟩
  · exact .inl rfl
  · exact .inl rfl
  · refine .inr ⟨f, by simp [hq], ?_⟩
    rcases State.deframe_cases { s with fq := rest } f with ⟨err, _, e⟩ | ⟨out, hd, hl, e⟩ | ⟨out, hd, hl, e⟩ <;> rw [e]
    · exact .inl ⟨err, rfl⟩
    · exact .inr (.inl ⟨out, hd, hl, rfl⟩)
    · exact .inr (.inr ⟨out, hd, hl, rfl⟩)

/-- Settles O44: a frame is emitted by the scanner, hence appended to FQ (`exec_emits`), where the invariant of the
state after describes it; a RawFrame is emitted by FR.CHK, which has tested its length. -/
theorem emittedFramesAreWellFormed : Obligations.EmittedFramesAreWellFormed := by
  unfold Obligations.EmittedFramesAreWellFormed
  intro i s t hs h
  by_cases hi : i = .frChk
  · subst hi
    refine ⟨fun f hf => ?_, fun r hr => ?_, fun hn => absurd rfl hn⟩
    · rcases execFrChk_events h with e | ⟨_, _, ⟨_, e⟩ | ⟨_, _, _, e⟩ | ⟨_, _, _, e⟩⟩ <;> simp [e] at hf
    · rcases execFrChk_events h with e | ⟨_, _, ⟨_, e⟩ | ⟨out, _, hl, e⟩ | ⟨_, _, _, e⟩⟩ <;> simp [e] at hr
      rw [hr, hl]
  · have emits := exec_emits hs.readCount_le hi h
    obtain ⟨_, _, _, _, _, _, _, _, _, hcfg, _⟩ := operationsWriteOnlyTheirColumns i s t h
    obtain ⟨_, _, _, _, _, frames, _⟩ := State.inv_exec hs h
    refine ⟨fun f hf => ?_, fun r hr => ?_, fun _ => ?_⟩
    · rw [← hcfg]
      refine frames f ?_
      rw [emits.fq_eq]
      exact List.mem_append_right _ (mem_framesOf hf)
    · cases emits.ofScanner _ hr
    · exact emits.fq_eq.trans (congrArg (s.fq ++ ·) (List.filterMap_congr fun e _ => by cases e <;> rfl))

/-- Settles O45: `State.scanByte_overrun`; with `readCount ≤ PKT_SIZE` the scanner's events are the transition table's,
and FR.CHK's are none of the scanner's. -/
theorem bufferOverrunOnlyOutsideInvariant : Obligations.BufferOverrunOnlyOutsideInvariant := by
  unfold Obligations.BufferOverrunOnlyOutsideInvariant
  refine ⟨fun s b hc hf hr hb => ?_, fun i s t n ⟨hr, _⟩ h hw => ?_⟩
  · rw [exec_scStep_of_not_held hc hf (State.scanHeld_eq_false (.inl hb)), State.scanByte_overrun hr hb]
  · by_cases hi : i = .frChk
    · subst hi
      rcases execFrChk_events h with e | ⟨_, _, ⟨_, e⟩ | ⟨_, _, _, e⟩ | ⟨_, _, _, e⟩⟩ <;> simp [e] at hw
    · cases (exec_emits hr hi h).ofScanner _ hw

/-! ## A packet of bytes -/

/-- The scanner has collected exactly `bs` in PB. -/
structure State.Collected (s : State) (bs : Bytes) : Prop where
  pb_wf : s.pb.wf = true
  readCount_eq : s.readCount = bs.length
  bytes_eq : (List.range bs.length).map s.pb.read = bs

theorem State.collected_nil {s : State} (hw : s.pb.wf = true) (hr : s.readCount = 0) : s.Collected [] := ⟨hw, hr, rfl⟩

theorem State.Collected.answer {s : State} {bs : Bytes} (h : s.Collected bs) (st : Status) (evs : List Event) :
    (s.answer st evs).Collected bs := ⟨h.pb_wf, h.readCount_eq, h.bytes_eq⟩

/-- A byte other than DELIM is collected behind the others, without an event, and nothing else changes
(43_frame_scanner.md R163). -/
theorem State.Collected.scanByte {s : State} {cs : Bytes} {b : Byte} (h : s.Collected cs)
    (hl : cs.length < s.cfg.pktSize) (hb : b ≠ s.cfg.delim) :
    (s.scanByte b).2 = [] ∧ (s.scanByte b).1.Collected (cs ++ [b]) ∧ (s.scanByte b).1.fq = s.fq := by
  obtain ⟨hw, hr, hbytes⟩ := h
  have inside : s.readCount < s.cfg.pktSize := hr ▸ hl
  rw [State.scanByte_eq b inside.le, if_neg hb, if_neg inside.ne]
  refine ⟨rfl, ⟨Memory.wf_write _ b hw, by simp [hr], ?_⟩, rfl⟩
  have kept : (List.range cs.length).map (s.pb.write cs.length b).read = cs := by
    rw [List.map_congr_left fun k hk => Memory.read_write_ne s.pb b (List.mem_range.1 hk).ne]
    exact hbytes
  simp [List.range_succ, hr, kept, Memory.read_write_same _ b hw]

/-- DELIM after PKT_SIZE collected bytes makes them a frame (43_frame_scanner.md R162). -/
theorem State.Collected.scanByte_delim_full {s : State} {cs : Bytes} (h : s.Collected cs)
    (hl : cs.length = s.cfg.pktSize) :
    s.scanByte s.cfg.delim = ({ s with fq := s.fq ++ [cs], readCount := 0 }, [.frame cs]) := by
  obtain ⟨_, hr, hbytes⟩ := h
  have full : s.readCount = s.cfg.pktSize := hr.trans hl
  have frame : s.parseFrame = cs := by rw [State.parseFrame, ← hl, hbytes]
  rw [State.scanByte_eq _ full.le, if_pos rfl, if_pos full, frame]

/-- DELIM after fewer bytes drops them with a warning (43_frame_scanner.md R164). -/
theorem State.Collected.scanByte_delim_short {s : State} {cs : Bytes} (h : s.Collected cs)
    (hl : cs.length < s.cfg.pktSize) :
    s.scanByte s.cfg.delim = ({ s with readCount := 0 }, [.warn (.delimiterMismatch cs.length)]) := by
  have inside : s.readCount < s.cfg.pktSize := h.readCount_eq ▸ hl
  rw [State.scanByte_eq _ inside.le, if_pos rfl, if_neg inside.ne, h.readCount_eq]

/-- What a run of SC.STEPs keeps while it collects: `s` is live, with configuration `c` and FQ `q`. -/
structure State.Collecting (s : State) (c : Config) (q : List Bytes) (bs : Bytes) : Prop where
  valid : s.cfgErr = false
  live : s.fatal = false
  cfg_eq : s.cfg = c
  fq_eq : s.fq = q
  collected : s.Collected bs

/-- Bytes other than DELIM that fit into PB are collected, without an event. -/
theorem State.Collecting.trace_scStep {s : State} {c : Config} {q : List Bytes} {cs bs : Bytes}
    (h : s.Collecting c q cs) (hl : cs.length + bs.length ≤ c.pktSize) (hd : c.delim ∉ bs) :
    ∃ t, trace (bs.map .scStep) s = some (t, []) ∧ t.Collecting c q (cs ++ bs) := by
  induction bs generalizing s cs with
  | nil => exact ⟨s, rfl, by rwa [List.append_nil]⟩
  | cons b bs ih =>
    obtain ⟨hc, hf, rfl, rfl, collected⟩ := h
    obtain ⟨hb, hd⟩ := List.ne_and_not_mem_of_not_mem_cons hd
    rw [List.length_cons] at hl
    obtain ⟨quiet, more, fq⟩ := collected.scanByte (by omega) (Ne.symm hb)
    have next : ((s.scanByte b).1.answer (.ok .unit) (s.scanByte b).2).Collecting s.cfg s.fq (cs ++ [b]) :=
      ⟨by simpa using hc, by simpa using hf, by simp, fq, more.answer _ _⟩
    obtain ⟨t, ht, hcol⟩ := ih next (by rw [List.length_append, List.length_singleton]; omega) hd
    rw [List.append_assoc, List.singleton_append] at hcol
    refine ⟨t, ?_, hcol⟩
    rw [List.map_cons, trace_cons (exec_scStep_of_not_held hc hf (State.scanHeld_eq_false (.inl (Ne.symm hb)))) ht,
      State.events_answer, quiet]
    rfl

/-- From Idle, the state `t` after bytes other than DELIM that fit into PB, and the run with DELIM behind them. -/
theorem State.trace_packet {s : State} {bs : Bytes} (hc : s.cfgErr = false) (hf : s.fatal = false)
    (hr : s.readCount = 0) (hw : s.pb.wf = true) (hd : s.cfg.delim ∉ bs) (hl : bs.length ≤ s.cfg.pktSize) :
    ∃ t : State, t.Collecting s.cfg s.fq bs ∧ (t.scanHeld t.cfg.delim = false →
      trace ((bs ++ [s.cfg.delim]).map .scStep) s = some
        ((t.scanByte t.cfg.delim).1.answer (.ok .unit) (t.scanByte t.cfg.delim).2, (t.scanByte t.cfg.delim).2)) := by
  have start : s.Collecting s.cfg s.fq [] := ⟨hc, hf, rfl, rfl, State.collected_nil hw hr⟩
  obtain ⟨t, run, hcol⟩ := start.trace_scStep (by simpa using hl) hd
  refine ⟨t, hcol, fun hb => ?_⟩
  have last := trace_cons (exec_scStep_of_not_held hcol.valid hcol.live hb) (trace_nil _)
  rw [hcol.cfg_eq] at last ⊢
  rw [List.map_append, List.map_singleton, trace_append run last, State.events_answer, List.nil_append,
    List.append_nil]

/-- The scanner is Idle where nothing is collected (10_state.md R32). -/
theorem State.scanner_eq_idle {s : State} (h : s.readCount = 0) : s.scanner = .idle := if_pos h

/-- Settles O46: the bytes are collected (`State.trace_packet`), and DELIM makes them a frame or drops them. -/
theorem packetOfBytesEmitsOneFrame : Obligations.PacketOfBytesEmitsOneFrame := by
  unfold Obligations.PacketOfBytesEmitsOneFrame
  refine fun s bs hc hf hr hw hd => ⟨fun hl hq => ?_, fun hl => ?_⟩
  · obtain ⟨t, ⟨_, _, hcfg, hfq, hcol⟩, run⟩ := State.trace_packet hc hf hr hw hd hl.le
    rw [← hcfg, ← hfq] at hq
    rw [hcol.scanByte_delim_full (hcfg ▸ hl), hfq] at run
    exact ⟨_, run (State.scanHeld_eq_false (.inr (.inr hq))), rfl, State.scanner_eq_idle rfl⟩
  · obtain ⟨t, ⟨_, _, hcfg, hfq, hcol⟩, run⟩ := State.trace_packet hc hf hr hw hd hl.le
    have inside : t.readCount ≠ t.cfg.pktSize := by rw [hcol.readCount_eq, hcfg]; exact hl.ne
    rw [hcol.scanByte_delim_short (hcfg ▸ hl)] at run
    exact ⟨_, run (State.scanHeld_eq_false (.inr (.inl inside))), hfq, State.scanner_eq_idle rfl⟩

/-! ## The pass, round by round -/

/-- What the last operation returned plays no part in a scanned byte. -/
theorem State.scanByte_answer (s : State) (st : Status) (evs : List Event) (b : Byte) :
    (s.answer st evs).scanByte b = ((s.scanByte b).1.answer st evs, (s.scanByte b).2) :=
  State.scanByte_withReply s b _

/-- Nor does it in a pass. -/
theorem passLoop_answer (n : Nat) (s : State) (st : Status) (evs es : List Event) :
    passLoop n (s.answer st evs) es = passLoop n s es := by
  induction n generalizing s es with
  | zero => rfl
  | succ n ih =>
    rcases Nat.lt_or_ge s.head s.cfg.rbCap with hh | hh
    · have byte := State.scanByte_answer s.dropOldest st evs (s.rbmem.read s.head)
      have round := ih (s.dropOldest.scanByte (s.rbmem.read s.head)).1
        (es ++ (s.dropOldest.scanByte (s.rbmem.read s.head)).2)
      rw [passLoop_succ n s es hh, ← round]
      refine (passLoop_succ n (s.answer st evs) es hh).trans ?_
      change (if s.scanHeld (s.rbmem.read s.head) then _ else
        passLoop n ((s.dropOldest.answer st evs).scanByte (s.rbmem.read s.head)).1
          (es ++ ((s.dropOldest.answer st evs).scanByte (s.rbmem.read s.head)).2)) = _
      rw [byte]
      rfl
    · rw [passLoop_outside es n.add_one_ne_zero hh]
      exact passLoop_outside es n.add_one_ne_zero hh

/-- The oldest byte of the ring is a frame boundary in front of a full FQ: the pass stops here
(43_frame_scanner.md R172). -/
def State.AtFullBoundary (s : State) : Prop :=
  s.contents.head? = some s.cfg.delim ∧ s.readCount = s.cfg.pktSize ∧ s.fq.length = s.cfg.fqCap

theorem State.atFullBoundary_iff {s : State} {b : Byte} {q : Bytes} (h : s.contents = b :: q) :
    s.AtFullBoundary ↔ s.scanHeld b = true := by
  rw [State.AtFullBoundary, State.scanHeld_iff, h, List.head?_cons, Option.some_inj]

/-- One round of the pass as two operations: RB.DEQ of the oldest byte and SC.STEP of it. -/
theorem trace_rbDeq_scStep {s : State} {b : Byte} {q : Bytes} (hs : s.Inv) (hc : s.cfgErr = false)
    (hf : s.fatal = false) (hq : s.contents = b :: q) (hb : s.scanHeld b = false) :
    trace [.rbDeq, .scStep b] s = some
      ((s.dropOldest.scanByte b).1.answer (.ok .unit) (s.dropOldest.scanByte b).2, (s.dropOldest.scanByte b).2) := by
  have hn : s.size ≠ 0 := fun h => by simp [(State.contents_eq_nil s).2 h] at hq
  have deq := (execRbDeq_eq_next s _).2 (.inr (.inr ⟨hc, hn, hs.head_lt hc, rfl⟩))
  have byte :=
    exec_scStep_of_not_held (s := s.dropOldest.answer (.ok (.byte (s.rbmem.read s.head))) []) (b := b) hc hf hb
  rw [State.scanByte_answer, State.answer_answer] at byte
  exact (trace_cons deq (trace_cons byte (trace_nil _))).trans (by simp)

/-- RB.DEQ and SC.STEP in turn, for each of some bytes. -/
def rounds (bs : Bytes) : List Instr := bs.flatMap fun b => [.rbDeq, .scStep b]

/-- `n` rounds lead from `s` to `u` with the events `evs`. -/
structure State.Rounds (s : State) (n : Nat) (u : State) (evs : List Event) : Prop where
  trace_eq : trace (rounds (s.contents.take n)) s = some (u, evs)
  contents_eq : u.contents = s.contents.drop n
  cfg_eq : u.cfg = s.cfg

theorem State.Rounds.zero (s : State) : s.Rounds 0 s [] := ⟨rfl, rfl, rfl⟩

/-- A round in front. -/
theorem State.Rounds.cons {s w u : State} {n : Nat} {es evs : List Event} (h : s.Rounds 1 w es)
    (h' : w.Rounds n u evs) : s.Rounds (n + 1) u (es ++ evs) := by
  obtain ⟨run, rest, cfg⟩ := h
  obtain ⟨run', rest', cfg'⟩ := h'
  refine ⟨?_, by rw [rest', rest, List.drop_drop, Nat.add_comm], cfg'.trans cfg⟩
  rw [rest] at run'
  rw [Nat.add_comm, List.take_add, rounds, List.flatMap_append]
  exact trace_append run run'

/-- One round. -/
theorem State.rounds_one {s : State} {b : Byte} (hs : s.Inv) (hc : s.cfgErr = false) (hf : s.fatal = false)
    (hq : s.contents = b :: s.dropOldest.contents) (hb : s.scanHeld b = false) :
    s.Rounds 1 ((s.dropOldest.scanByte b).1.answer (.ok .unit) (s.dropOldest.scanByte b).2)
      (s.dropOldest.scanByte b).2 := by
  refine ⟨?_, by rw [hq]; simp, by simp⟩
  rw [hq]
  exact trace_rbDeq_scStep hs hc hf hq hb

/-- A state that is at a boundary after some rounds, in terms of the state before them. -/
theorem State.Rounds.atFullBoundary_iff {s u : State} {n : Nat} {evs : List Event} (h : s.Rounds n u evs) :
    u.AtFullBoundary ↔
      s.contents[n]? = some s.cfg.delim ∧ u.readCount = s.cfg.pktSize ∧ u.fq.length = s.cfg.fqCap := by
  rw [State.AtFullBoundary, h.contents_eq, h.cfg_eq, List.head?_drop]

/-- How a pass of `s` ends after `n` rounds in `u`: no round began at a boundary in front of a full FQ, and bytes are left
only in front of such a boundary. -/
structure State.PassEnds (s : State) (n : Nat) (u : State) (evs : List Event) : Prop where
  le_size : n ≤ s.size
  rounds : s.Rounds n u evs
  before : ∀ k < n, ∃ v es, s.Rounds k v es ∧ ¬v.AtFullBoundary
  stop : n < s.size → u.AtFullBoundary

/-- A round in front that does not begin at such a boundary. -/
theorem State.PassEnds.cons {s w u : State} {n : Nat} {es evs : List Event} (hw : s.Rounds 1 w es)
    (hsize : s.size = w.size + 1) (hb : ¬s.AtFullBoundary) (h : w.PassEnds n u evs) :
    s.PassEnds (n + 1) u (es ++ evs) := by
  obtain ⟨le, run, before, stop⟩ := h
  refine ⟨by omega, hw.cons run, fun k hk => ?_, fun h => stop (by omega)⟩
  cases k with
  | zero => exact ⟨s, [], .zero s, hb⟩
  | succ k =>
    obtain ⟨v, es', hv, hnot⟩ := before k (by omega)
    exact ⟨v, _, hw.cons hv, hnot⟩

/-- The pass is RB.DEQ and SC.STEP in turn until the ring is empty or held: induction on the bytes to go, one round being
`State.rounds_one`. -/
theorem passLoop_eq_rounds {n : Nat} {s : State} (hs : s.Inv) (hc : s.cfgErr = false) (hf : s.fatal = false)
    (hn : s.size = n) (evs : List Event) :
    ∃ m u es, s.PassEnds m u es ∧
      passLoop n s evs = .next (u.answer (.ok (.pass (if m = n then .drained else .held))) (evs ++ es)) := by
  induction n generalizing s evs with
  | zero =>
    refine ⟨0, s, [], ⟨Nat.zero_le _, .zero s, nofun, fun h => absurd h (by omega)⟩, ?_⟩
    rw [List.append_nil]
    rfl
  | succ n ih =>
    have pos : 0 < s.size := by omega
    have hh := hs.head_lt hc
    have hq := State.contents_dropOldest s pos hh
    rw [passLoop_succ n s evs hh]
    generalize s.rbmem.read s.head = b at hq ⊢
    cases held : s.scanHeld b with
    | true =>
      refine ⟨0, s, [], ⟨Nat.zero_le _, .zero s, nofun, fun _ => (State.atFullBoundary_iff hq).2 held⟩, ?_⟩
      rw [List.append_nil]
      rfl
    | false =>
      have inv := State.inv_scanByte s.dropOldest b (State.inv_dropOldest s hs pos hh) held
      have round := State.rounds_one hs hc hf hq held
      have go : ¬s.AtFullBoundary := by simp [State.atFullBoundary_iff hq, held]
      obtain ⟨m, u, es, ends, pass⟩ := ih
        (s := (s.dropOldest.scanByte b).1.answer (.ok .unit) (s.dropOldest.scanByte b).2) inv (by simpa using hc)
        (by simpa using hf) (by simp [hn]) (evs ++ (s.dropOldest.scanByte b).2)
      refine ⟨m + 1, u, _, ends.cons round (by simp; omega) go, ?_⟩
      rw [passLoop_answer] at pass
      simpa [← List.append_assoc] using pass

/-- Settles O47: past the gate the operation is `passLoop`, which is RB.DEQ and SC.STEP in turn (`passLoop_eq_rounds`). -/
theorem passIsDequeueThenStep : Obligations.PassIsDequeueThenStep := by
  unfold Obligations.PassIsDequeueThenStep
  refine fun s hs hc => ⟨fun hf => exec_fatal hc hf rfl,
    fun hf hg => (execScPass_eq_next s _).2 (.inr (.inr (.inl ⟨hc, hf, hg, rfl⟩))), fun hf hg => ?_⟩
  obtain ⟨n, u, evs, ⟨le, run, before, stop⟩, pass⟩ := passLoop_eq_rounds hs hc hf rfl []
  refine ⟨n, u, evs, le, run.trace_eq, run.contents_eq, fun k hk => ?_,
    (execScPass_eq_next s _).2 (.inr (.inr (.inr ⟨hc, hf, hg, pass⟩))), fun h => run.atFullBoundary_iff.1 (stop h)⟩
  obtain ⟨v, es, hv, hnot⟩ := before k hk
  exact ⟨v, es, hv.trace_eq, hv.contents_eq, fun h => hnot (hv.atFullBoundary_iff.2 h)⟩

/-! ## Deframing -/

/-- With room in DQ the oldest frame is deframed (43_frame_scanner.md R176). -/
theorem exec_frChk_of_frame {s : State} {e : Bytes} {rest : List Bytes} (hc : s.cfgErr = false) (hq : s.fq = e :: rest)
    (hd : s.dq.length ≠ s.cfg.dqCap) :
    exec .frChk s = .next ((State.deframe { s with fq := rest } e).1.answer (.ok .unit)
      [(State.deframe { s with fq := rest } e).2]) :=
  (execFrChk_eq_next s _).2 (.inr (.inr ⟨hc, hd, e, rest, hq, rfl⟩))

/-- Settles O50: `execFrChk_eq_next`, the oldest frame's case by `State.deframe_cases`, whose `cobsDecode` is what COBS.DEC
answers. -/
theorem frChkDeliversOrReports : Obligations.FrChkDeliversOrReports := by
  unfold Obligations.FrChkDeliversOrReports
  refine fun s hc => ⟨fun hq => (execFrChk_eq_next s _).2 (.inr (.inl ⟨hc, .inl hq, rfl⟩)),
    fun hd => (execFrChk_eq_next s _).2 (.inr (.inl ⟨hc, .inr hd, rfl⟩)), fun e rest hq hd => ?_⟩
  refine ⟨_, exec_frChk_of_frame hc hq hd, ?_⟩
  have answered : exec (.cobsDec e s.cfg.delim) s = s.okOrRaise ((cobsDecode e s.cfg.delim).map .seq) :=
    exec_cobsDec hc e s.cfg.delim
  rcases State.deframe_cases { s with fq := rest } e with ⟨err, h, he⟩ | ⟨out, h, hl, he⟩ | ⟨out, h, hl, he⟩ <;>
    rw [he, answered, h]
  · exact .inl ⟨err, rfl, rfl⟩
  · exact .inr (.inr ⟨out, rfl, hl, rfl⟩)
  · exact .inr (.inl ⟨out, rfl, hl, rfl⟩)

/-- Settles O51: a frame of FQ has PKT_SIZE bytes and no DELIM, so what it decodes to is one byte shorter
(`decodedLength`). -/
theorem noLengthMismatchUpTo254 : Obligations.NoLengthMismatchUpTo254 := by
  unfold Obligations.NoLengthMismatchUpTo254
  intro s t n ⟨_, _, _, _, _, frames, _⟩ hp h hw
  rcases execFrChk_events h with e | ⟨f, hf, ⟨_, e⟩ | ⟨_, _, _, e⟩ | ⟨out, hdec, hlen, _⟩⟩
  case inr.inr.inr =>
    obtain ⟨hl, hd⟩ := frames f hf
    have shorter : out.length + 1 = f.length := decodedLength.1 f out s.cfg.delim hd (hl ▸ hp) hdec
    exact hlen (Nat.succ.inj (shorter.trans hl))
  all_goals simp [e] at hw

/-! ## The way in, end to end -/

theorem State.Collected.dropOldest {s : State} {cs : Bytes} (h : s.Collected cs) : s.dropOldest.Collected cs :=
  ⟨h.pb_wf, h.readCount_eq, h.bytes_eq⟩

/-- A round of the pass whose byte is not held. -/
theorem passLoop_of_contents_cons {s : State} {b : Byte} {q : Bytes} (hs : s.Inv) (hc : s.cfgErr = false)
    (hq : s.contents = b :: q) (hb : s.scanHeld b = false) :
    s.dropOldest.Inv ∧ s.dropOldest.contents = q ∧ s.dropOldest.size = q.length ∧ ∀ evs, passLoop s.size s evs =
      passLoop q.length (s.dropOldest.scanByte b).1 (evs ++ (s.dropOldest.scanByte b).2) := by
  have hsize : s.size = q.length + 1 := by rw [← s.length_contents, hq, List.length_cons]
  have pos : 0 < s.size := by omega
  have hh := hs.head_lt hc
  rw [State.contents_dropOldest s pos hh] at hq
  obtain ⟨rfl, rfl⟩ := List.cons.inj hq
  refine ⟨State.inv_dropOldest s hs pos hh, rfl, by simp, fun evs => ?_⟩
  rw [hsize, passLoop_succ _ s evs hh, if_neg (by simp [hb])]

/-- A pass over the rest of a packet and its delimiter, with room in FQ: one frame, and the ring is empty and the scanner
Idle. -/
theorem passLoop_packet {s : State} {cs bs : Bytes} (hs : s.Inv) (hc : s.cfgErr = false) (hcol : s.Collected cs)
    (hq : s.contents = bs ++ [s.cfg.delim]) (hd : s.cfg.delim ∉ bs) (hl : cs.length + bs.length = s.cfg.pktSize)
    (hfq : s.fq.length ≠ s.cfg.fqCap) :
    ∃ u : State, passLoop s.size s [] = .next (u.answer (.ok (.pass .drained)) [.frame (cs ++ bs)]) ∧
      u.fq = s.fq ++ [cs ++ bs] ∧ u.size = 0 ∧ u.readCount = 0 := by
  induction bs generalizing s cs with
  | nil =>
    obtain ⟨_, _, hsize, round⟩ := passLoop_of_contents_cons hs hc hq (State.scanHeld_eq_false (.inr (.inr hfq)))
    have byte := hcol.dropOldest.scanByte_delim_full (by simpa using hl)
    rw [State.dropOldest_cfg] at byte
    rw [round, byte, List.append_nil]
    exact ⟨_, rfl, rfl, hsize, rfl⟩
  | cons b bs ih =>
    obtain ⟨hb, hd⟩ := List.ne_and_not_mem_of_not_mem_cons hd
    rw [List.length_cons] at hl
    have held : s.scanHeld b = false := State.scanHeld_eq_false (.inl (Ne.symm hb))
    obtain ⟨inv, rest, hsize, round⟩ := passLoop_of_contents_cons hs hc hq held
    obtain ⟨quiet, more, fq⟩ :=
      hcol.dropOldest.scanByte (show cs.length < s.cfg.pktSize by omega) (Ne.symm hb)
    obtain ⟨u, pass, hu⟩ := ih (s := (s.dropOldest.scanByte b).1) (State.inv_scanByte _ b inv held) (by simpa using hc)
      more (by simpa using rest) (by simpa using hd) (by simp; omega) (by simpa [fq] using hfq)
    rw [State.scanByte_size, hsize, List.append_assoc, List.singleton_append] at pass
    rw [fq, List.append_assoc, List.singleton_append] at hu
    exact ⟨u, by rw [round, quiet]; exact pass, hu⟩

/-- A valid configuration has RawFrames of at least one byte (00_scope.md R9). -/
theorem msgSize_pos_of_valid {c : Config} (h : c.valid = true) : 0 < c.msgSize := by
  simp only [Config.valid, Bool.and_eq_true, decide_eq_true_eq] at h
  omega

/-- Without its terminator an encoding with no other DELIM decodes to its payload (41_cobs_codec.md R130). -/
theorem cobsDecode_dropLast_cobsEncode {p : Bytes} {d : Byte} (hp : p ≠ []) (hd : d ∉ (cobsEncode p d).dropLast) :
    cobsDecode (cobsEncode p d).dropLast d = .ok p := by
  rw [cobsEncode_eq p d hp, List.dropLast_concat] at hd ⊢
  rw [cobsDecode_eq_decodeBlocks (encodeBlocks_ne_nil d [] p), dropTerminator_of_notMem hd]
  exact decodeBlocks_encodeBlocks d p [] _ 0 (Nat.zero_le _) le_rfl

/-- A frame that decodes to a RawFrame is delivered (43_frame_scanner.md R176). -/
theorem exec_frChk_of_decoded {s : State} {e out : Bytes} {rest : List Bytes} (hc : s.cfgErr = false)
    (hq : s.fq = e :: rest) (hd : s.dq.length ≠ s.cfg.dqCap) (hdec : cobsDecode e s.cfg.delim = .ok out)
    (hl : out.length = s.cfg.msgSize) :
    exec .frChk s = .next (State.answer { s with fq := rest, dq := s.dq ++ [out] } (.ok .unit) [.data out]) := by
  simp [exec_frChk_of_frame hc hq hd, State.deframe, hdec, hl]

/-- One SC.PASS and one FR.CHK take a frame that lies in the ring with its delimiter to DQ, as what it decodes to. -/
theorem trace_scPass_frChk {s : State} {frame r : Bytes} (hs : s.Inv) (hc : s.cfgErr = false) (hf : s.fatal = false)
    (hr : s.readCount = 0) (hq : s.fq = []) (hroom : s.dq.length < s.cfg.dqCap)
    (ring : s.contents = frame ++ [s.cfg.delim]) (hl : frame.length = s.cfg.pktSize) (hd : s.cfg.delim ∉ frame)
    (hdec : cobsDecode frame s.cfg.delim = .ok r) (hraw : r.length = s.cfg.msgSize) :
    ∃ t, trace [.scPass, .frChk] s = some (t, [.frame frame, .data r]) ∧
      t.dq = s.dq ++ [r] ∧ t.fq = [] ∧ t.size = 0 ∧ t.readCount = 0 ∧ t.fatal = false := by
  have hsize : s.size = frame.length + 1 := by
    rw [← s.length_contents, ring, List.length_append, List.length_singleton]
  have place : s.fq.length ≠ s.cfg.fqCap := by
    rw [hq]
    exact Nat.ne_of_lt s.cfg.fqCap_pos
  obtain ⟨u, scanned, hframe, hn, hidle⟩ := passLoop_packet (cs := []) hs hc (State.collected_nil hs.pb_wf hr) ring hd
    (by simpa using hl) place
  simp only [hq, List.nil_append] at hframe scanned
  obtain ⟨_, _, _, hlive, hdq, hcfg, hvalid, _⟩ := passLoop_frame scanned
  simp only [State.answer_fatal, State.answer_dq, State.answer_cfg, State.answer_cfgErr] at hlive hdq hcfg hvalid
  have pass := (execScPass_eq_next s _).2 (.inr (.inr (.inr ⟨hc, hf, by omega, scanned⟩)))
  rw [← hcfg] at hroom hdec hraw
  rw [← hdq] at hroom ⊢
  have chk := exec_frChk_of_decoded (s := u.answer (.ok (.pass .drained)) [.frame frame]) (hvalid.trans hc) hframe
    hroom.ne hdec hraw
  exact ⟨_, trace_cons pass (trace_cons chk (trace_nil _)), rfl, rfl, hn, hidle, hlive.trans hf⟩

/-- A frame pushed with its delimiter, in a ring with room for it, comes out of DQ as what it decodes to
(43_frame_scanner.md R179). -/
theorem trace_inbound {s : State} {frame r : Bytes} (hs : s.Inv) (hc : s.cfgErr = false) (hf : s.fatal = false)
    (hn : s.size = 0) (hr : s.readCount = 0) (hq : s.fq = []) (hroom : s.dq.length < s.cfg.dqCap)
    (hl : frame.length = s.cfg.pktSize) (hcap : frame.length + 1 ≤ s.cfg.rbCap) (hd : s.cfg.delim ∉ frame)
    (hdec : cobsDecode frame s.cfg.delim = .ok r) (hraw : r.length = s.cfg.msgSize) :
    ∃ t, trace ((frame ++ [s.cfg.delim]).map .rxPush ++ [.scPass, .frChk]) s = some (t, [.frame frame, .data r]) ∧
      t.dq = s.dq ++ [r] ∧ t.fq = [] ∧ t.size = 0 ∧ t.readCount = 0 ∧ t.fatal = false := by
  obtain ⟨u, pushes, hu, ring, hframe⟩ := trace_rxPush (bs := frame ++ [s.cfg.delim]) hs hc hf (by simp [hn, hcap])
  have kept : u.cfg = s.cfg ∧ u.cfgErr = s.cfgErr ∧ u.fatal = s.fatal ∧ u.readCount = s.readCount ∧ u.fq = s.fq ∧
      u.dq = s.dq := by
    rw [hframe]
    exact ⟨rfl, rfl, rfl, rfl, rfl, rfl⟩
  obtain ⟨hcfg, hvalid, hlive, hcount, hfq, hdq⟩ := kept
  rw [(State.contents_eq_nil s).2 hn, List.nil_append] at ring
  rw [← hcfg] at ring hroom hl hd hdec hraw
  rw [← hdq] at hroom ⊢
  obtain ⟨t, run, final⟩ := trace_scPass_frChk hu (hvalid.trans hc) (hlive.trans hf) (hcount.trans hr) (hfq.trans hq)
    hroom ring hl hd hdec hraw
  exact ⟨t, trace_append pushes run, final⟩

/-- Settles O52: an encoding is a frame of PKT_SIZE bytes and its delimiter, and the frame decodes to the RawFrame, so
`trace_inbound` applies. -/
theorem inboundEndToEnd : Obligations.InboundEndToEnd := by
  unfold Obligations.InboundEndToEnd
  intro s r hs hc hf hn hr hq hroom hraw hmax hcap hd
  have pos : 0 < r.length := by
    rw [hraw]
    exact msgSize_pos_of_valid (by simpa [hc] using hs.1.symm)
  have ne : r ≠ [] := List.ne_nil_of_length_pos pos
  have encoded : (cobsEncode r s.cfg.delim).dropLast ++ [s.cfg.delim] = cobsEncode r s.cfg.delim := by
    rw [cobsEncode_eq r _ ne, List.dropLast_concat]
  have frameLength : (cobsEncode r s.cfg.delim).dropLast.length = s.cfg.pktSize := by
    rw [List.length_dropLast, (encodedLength r s.cfg.delim).2.2 pos (hraw ▸ hmax), hraw]
    rfl
  have inbound := trace_inbound hs hc hf hn hr hq hroom frameLength (frameLength ▸ hcap) hd
    (cobsDecode_dropLast_cobsEncode ne hd) hraw
  rwa [encoded] at inbound

end Sys2Proof.Machine
end

section
/-! PROOF. The field extractor and the record decoder (44_field_extractor.md): FX.GET, FX.HASH as FX.GET of the trailer,
REC.DEC's record and its errors; then the two facts of R202, that the record of a sealed frame has equal hashes and that
CRC.MSUM detects a change of one byte. -/

namespace Sys2Proof.Machine

/-! ## FX.GET -/

theorem exec_fxGet {s : State} (hc : s.cfgErr = false) (frame : Bytes) (startIdx endIdx : Nat) :
    exec (.fxGet frame startIdx endIdx) s = s.okOrRaise ((fieldGet frame startIdx endIdx).map .value) :=
  State.whenValid_of_valid hc _

theorem exec_fxGet_of_valid {s : State} {frame : Bytes} {startIdx endIdx : Nat} (hc : s.cfgErr = false)
    (valid : startIdx ≤ endIdx ∧ endIdx < frame.length) :
    exec (.fxGet frame startIdx endIdx) s =
      .next (s.answer (.ok (.value (fieldValue frame startIdx endIdx))) []) := by
  rw [exec_fxGet hc, fieldGet, if_pos ((rangeValid_iff _ _ _).2 valid)]
  rfl

theorem exec_fxGet_of_invalid {s : State} {frame : Bytes} {startIdx endIdx : Nat} (hc : s.cfgErr = false)
    (invalid : ¬(startIdx ≤ endIdx ∧ endIdx < frame.length)) :
    exec (.fxGet frame startIdx endIdx) s = .next (s.answer (.err (.invalidFieldRange none)) []) := by
  rw [exec_fxGet hc, fieldGet, if_neg (mt (rangeValid_iff _ _ _).1 invalid)]
  rfl

theorem toNat_littleEndian {s : Bytes} (h : s.length ≤ 4) :
    (littleEndian s).toNat = ((List.range s.length).map fun k => (s.getD k 0).toNat * 256 ^ k).sum := by
  simpa [littleEndian] using (toNat_littleEndianFrom s 0 (by omega)).1

/-- A range of up to four bytes as a number (44_field_extractor.md R191). -/
theorem toNat_littleEndian_sliceClosed {frame : Bytes} {startIdx endIdx : Nat}
    (valid : startIdx ≤ endIdx ∧ endIdx < frame.length) (narrow : endIdx - startIdx + 1 ≤ 4) :
    (littleEndian (sliceClosed frame startIdx endIdx)).toNat =
      ((List.range (endIdx - startIdx + 1)).map fun k => (frame.getD (startIdx + k) 0).toNat * 256 ^ k).sum := by
  rw [sliceClosed_eq_map frame _ _ valid.1 valid.2, toNat_littleEndian (by simpa using narrow), List.length_map,
    List.length_range]
  refine congrArg List.sum (List.map_congr_left fun k hk => ?_)
  simp [List.mem_range.1 hk]

/-- Settles O54: the value of a valid range is `fieldValue`, by its width a number or the bytes. -/
theorem fxGetReadsLittleEndian : Obligations.FxGetReadsLittleEndian := by
  unfold Obligations.FxGetReadsLittleEndian
  refine fun s frame i j hc => ⟨fun hij hj narrow => ?_, fun hij hj wide => ?_, exec_fxGet_of_invalid hc⟩
  · refine ⟨littleEndian (sliceClosed frame i j), ?_, toNat_littleEndian_sliceClosed ⟨hij, hj⟩ narrow⟩
    rw [exec_fxGet_of_valid hc ⟨hij, hj⟩, fieldValue, if_pos narrow]
  · rw [exec_fxGet_of_valid hc ⟨hij, hj⟩, fieldValue, if_neg (Nat.not_le.2 wide), sliceClosed_eq_map frame i j hij hj]

/-! ## FX.HASH -/

theorem exec_fxHash {s : State} (hc : s.cfgErr = false) (frame : Bytes) :
    exec (.fxHash frame) s = s.okOrRaise ((trailerHash frame).map .word) :=
  State.whenValid_of_valid hc _

/-- The last four bytes as a number (44_field_extractor.md R195). -/
def trailerWord (frame : Bytes) : Word32 := littleEndian (frame.drop (frame.length - 4))

theorem trailerHash_of_long {frame : Bytes} (h : 4 ≤ frame.length) : trailerHash frame = .ok (trailerWord frame) :=
  if_neg (Nat.not_lt.2 h)

theorem trailerHash_of_short {frame : Bytes} (h : frame.length < 4) :
    trailerHash frame = .error (.frameTooShort frame.length) :=
  if_pos h

theorem exec_fxHash_of_long {s : State} {frame : Bytes} (hc : s.cfgErr = false) (h : 4 ≤ frame.length) :
    exec (.fxHash frame) s = .next (s.answer (.ok (.word (trailerWord frame))) []) := by
  rw [exec_fxHash hc, trailerHash_of_long h]
  rfl

/-- The trailer is the closed range n-4 to n-1. -/
theorem sliceClosed_trailer {frame : Bytes} (h : 4 ≤ frame.length) :
    sliceClosed frame (frame.length - 4) (frame.length - 1) = frame.drop (frame.length - 4) :=
  List.take_of_length_le (by rw [List.length_drop]; omega)

/-- FX.GET of the trailer's range is a number, the trailer's (44_field_extractor.md R195). -/
theorem fieldValue_trailer {frame : Bytes} (h : 4 ≤ frame.length) :
    fieldValue frame (frame.length - 4) (frame.length - 1) = .integer (trailerWord frame) := by
  rw [fieldValue, if_pos (by omega), sliceClosed_trailer h, trailerWord]

theorem toNat_trailerWord {frame : Bytes} (h : 4 ≤ frame.length) :
    (trailerWord frame).toNat = (frame.getD (frame.length - 4) 0).toNat +
      256 * (frame.getD (frame.length - 3) 0).toNat + 65536 * (frame.getD (frame.length - 2) 0).toNat +
      16777216 * (frame.getD (frame.length - 1) 0).toNat := by
  obtain ⟨n, hn⟩ := Nat.exists_eq_add_of_le' h
  rw [trailerWord, ← sliceClosed_trailer h, toNat_littleEndian_sliceClosed (by omega) (by omega), hn]
  simp [List.range_succ, Nat.mul_comm, Nat.add_assoc]

/-- Settles O55: the trailer is a range of width 4, whose FX.GET is `fieldValue_trailer`. -/
theorem fxHashReadsTrailer : Obligations.FxHashReadsTrailer := by
  unfold Obligations.FxHashReadsTrailer
  refine fun s frame hc => ⟨fun short => ?_, fun long => ⟨_, exec_fxHash_of_long hc long, ?_, toNat_trailerWord long⟩⟩
  · rw [exec_fxHash hc, trailerHash_of_short short]
    rfl
  · rw [exec_fxGet_of_valid hc (by omega), fieldValue_trailer long]

/-! ## REC.DEC -/

theorem exec_recDec {s : State} (hc : s.cfgErr = false) (frame : Bytes) (schema : Schema) :
    exec (.recDec frame schema) s = s.okOrRaise ((recordDecode frame schema).map .record) :=
  State.whenValid_of_valid hc _

/-- The two reserved entries are written last (44_field_extractor.md R200). -/
def Record.withHashes (r : Record) (desired calculated : Word32) : Record :=
  (r.set desiredHashName (.integer desired)).set calculatedHashName (.integer calculated)

theorem Record.get_withHashes_desired (r : Record) (desired calculated : Word32) :
    (r.withHashes desired calculated).get desiredHashName = some (.integer desired) := by
  rw [withHashes, Record.get_set_ne _ _ (by decide), Record.get_set_same]

theorem Record.get_withHashes_calculated (r : Record) (desired calculated : Word32) :
    (r.withHashes desired calculated).get calculatedHashName = some (.integer calculated) :=
  Record.get_set_same _ _ _

theorem Record.get_withHashes_other (r : Record) (desired calculated : Word32) {n : Name} (hd : n ≠ desiredHashName)
    (hc : n ≠ calculatedHashName) : (r.withHashes desired calculated).get n = r.get n := by
  rw [withHashes, Record.get_set_ne _ _ hc, Record.get_set_ne _ _ hd]

theorem recordDecode_of_short {frame : Bytes} (h : frame.length < 5) (schema : Schema) :
    recordDecode frame schema = .error (.frameTooShort frame.length) :=
  if_pos h

/-- Extraction comes before the checksum, so its error is the one reported (44_field_extractor.md R198). -/
theorem recordDecode_of_extract_error {frame : Bytes} {schema : Schema} {e : Err} (h : 5 ≤ frame.length)
    (extracted : extractFields frame 0 schema [] = .error e) : recordDecode frame schema = .error e := by
  rw [recordDecode, if_neg (Nat.not_lt.2 h), extracted]

/-- After extraction only the checksum can fail: a trailer is there. -/
theorem recordDecode_of_extracted {frame : Bytes} {schema : Schema} {r : Record} (h : 5 ≤ frame.length)
    (extracted : extractFields frame 0 schema [] = .ok r) :
    recordDecode frame schema = (crcMaskedSum frame schema).map (r.withHashes (trailerWord frame)) := by
  rw [recordDecode, if_neg (Nat.not_lt.2 h), extracted, trailerHash_of_long (by omega)]
  cases crcMaskedSum frame schema <;> rfl

/-- REC.DEC's answer on at least 5 bytes with every named or zerofill range valid, by what extraction made of the
schema. -/
theorem exec_recDec_of_valid {s : State} {frame : Bytes} {schema : Schema} {r : Record} (hc : s.cfgErr = false)
    (h : 5 ≤ frame.length) (extracted : extractFields frame 0 schema [] = .ok r)
    (zerofills : ∀ f ∈ schema, f.zerofill = true → f.startIdx ≤ f.endIdx ∧ f.endIdx < frame.length) :
    exec (.recDec frame schema) s = .next (s.answer
      (.ok (.record (r.withHashes (trailerWord frame) (crcSum (maskedWindow frame schema))))) []) := by
  rw [exec_recDec hc, recordDecode_of_extracted h extracted, crcMaskedSum_of_valid h zerofills]
  rfl

/-- Settles O56: the extracted record with the two hashes added. The hashes are FX.HASH's and CRC.MSUM's, and any other
name reads as extraction left it (`extractFields_of_valid`). -/
theorem recDecBuildsRecord : Obligations.RecDecBuildsRecord := by
  unfold Obligations.RecDecBuildsRecord
  intro s frame schema hc h valid
  have zerofills := fun f hf hz => valid f hf (.inr hz)
  obtain ⟨r, extracted, unnamed, named⟩ :=
    extractFields_of_valid frame 0 schema [] fun f hf hn => valid f hf (.inl hn)
  refine ⟨_, _, _, exec_recDec_of_valid hc h extracted zerofills, exec_fxHash_of_long hc (by omega),
    exec_crcMsum_of_valid hc h zerofills, r.get_withHashes_desired _ _, r.get_withHashes_calculated _ _, ?_,
    fun n hn hdes hcalc => ?_⟩
  · rw [Record.get_withHashes_other _ _ _ (by decide) (by decide), unnamed]
    rfl
  · rw [Record.get_withHashes_other _ _ _ hdes hcalc, named n hn]
    cases last : (schema.filter fun f => f.name = n).getLast? with
    | none => rfl
    | some f =>
      obtain ⟨inSchema, hname⟩ := List.mem_filter.1 (List.mem_of_getLast? last)
      have hf : f.name ≠ [] := of_decide_eq_true hname ▸ hn
      exact ⟨_, exec_fxGet_of_valid hc (valid f inSchema (.inl hf)), rfl⟩

/-- Settles O57: a named descriptor's error is extraction's; where every named range is valid, an unnamed one's is
CRC.MSUM's. -/
theorem recDecErrors : Obligations.RecDecErrors := by
  unfold Obligations.RecDecErrors
  refine fun s frame schema hc => ⟨fun short => ?_, fun pre post f long hschema invalid which => ?_⟩
  · rw [exec_recDec hc, recordDecode_of_short short]
    rfl
  subst hschema
  have reported : recordDecode frame (pre ++ f :: post) = .error (.invalidFieldRange (some (pre.length, f.name))) := by
    rcases which with ⟨hn, before⟩ | ⟨-, hz, named, before⟩
    · have failed := extractFields_eq_error frame 0 pre post f [] before hn invalid
      rw [Nat.zero_add] at failed
      exact recordDecode_of_extract_error long failed
    · obtain ⟨r, extracted, -, -⟩ := extractFields_of_valid frame 0 (pre ++ f :: post) [] named
      rw [recordDecode_of_extracted long extracted, crcMaskedSum_of_first_invalid long before hz invalid]
      rfl
  rw [exec_recDec hc, reported]
  rfl

/-! ## The record of a sealed frame -/

theorem exec_txSeal {s : State} (hc : s.cfgErr = false) (fields : Bytes) :
    exec (.txSeal fields) s = s.okOrRaise ((txSeal fields).map .seq) :=
  State.whenValid_of_valid hc _

theorem maskedAt_iff {fields : Schema} {k : Nat} :
    maskedAt fields k = true ↔ ∃ f ∈ fields, f.zerofill = true ∧ f.startIdx ≤ k ∧ k ≤ f.endIdx := by
  simp [maskedAt, and_assoc]

@[simp] theorem length_maskedWindow (data : Bytes) (fields : Schema) :
    (maskedWindow data fields).length = data.length - 5 := by
  simp [maskedWindow]

/-- Between byte 0 and a trailer stand the field bytes, where masking only meets zeros (42_checksum.md R146). -/
theorem maskedWindow_append_trailer {fields trailer : Bytes} {schema : Schema} (ht : trailer.length = 4)
    (zeros : ∀ f ∈ schema, f.zerofill = true → ∀ k, f.startIdx ≤ k → k ≤ f.endIdx → 1 ≤ k → k < fields.length →
      fields[k]? = some 0x00) :
    maskedWindow (fields ++ trailer) schema = fields.drop 1 := by
  refine List.ext_getElem (by simp [ht]) fun k hk hk' => ?_
  have inside : k + 1 < fields.length := by
    rw [List.length_drop] at hk'
    omega
  have byte : (fields ++ trailer).getD (k + 1) 0x00 = fields[k + 1] := by
    rw [List.getD_eq_getElem?_getD, List.getElem?_append_left inside, List.getElem?_eq_getElem inside, Option.getD_some]
  simp only [maskedWindow, List.getElem_map, List.getElem_range, byte, List.getElem_drop, Nat.add_comm 1 k]
  split
  · next masked =>
    obtain ⟨f, hf, hz, hstart, hend⟩ := maskedAt_iff.1 masked
    exact (List.getElem_eq_iff inside).2 (zeros f hf hz (k + 1) hstart hend (Nat.le_add_left 1 k) inside) |>.symm
  · rfl

/-- TX.SEAL appends the checksum of bytes 1 and above (45_tx_build.md R211). -/
theorem txSeal_of_pos {fields : Bytes} (h : 1 ≤ fields.length) :
    txSeal fields = .ok (fields ++ littleEndianBytes (crcSum (fields.drop 1))) := by
  rw [txSeal, if_neg (Nat.not_lt.2 h), crcMaskedSum_of_valid (by simpa using h) (List.forall_mem_nil _),
    maskedWindow_append_trailer rfl (List.forall_mem_nil _)]

/-- Reading a trailer gives back the word written to it (20_memory.md R51). -/
theorem trailerWord_append_littleEndianBytes (fields : Bytes) (c : Word32) :
    trailerWord (fields ++ littleEndianBytes c) = c := by
  have hlen : (fields ++ littleEndianBytes c).length = fields.length + 4 := List.length_append
  refine BitVec.eq_of_toNat_eq ?_
  rw [toNat_trailerWord (by omega), hlen]
  simp [littleEndianBytes, Nat.shiftRight_eq_div_pow]
  omega

/-- Settles O60: the trailer is the checksum of the field bytes from 1 on, which is also what the schema's masked window
hashes to, since it masks only zeros. -/
theorem sealedFrameHashesAgree : Obligations.SealedFrameHashesAgree := by
  unfold Obligations.SealedFrameHashesAgree
  intro s fields schema hc h valid zeros
  have hlen : (fields ++ littleEndianBytes (crcSum (fields.drop 1))).length = fields.length + 4 :=
    List.length_append
  rw [← hlen] at valid
  obtain ⟨r, extracted, -, -⟩ := extractFields_of_valid _ 0 schema [] fun f hf hn => valid f hf (.inl hn)
  refine ⟨_, _, crcSum (fields.drop 1), ?_,
    exec_recDec_of_valid hc (by omega) extracted fun f hf hz => valid f hf (.inr hz), ?_, ?_⟩
  · rw [exec_txSeal hc, txSeal_of_pos h]
    rfl
  · rw [Record.get_withHashes_desired, trailerWord_append_littleEndianBytes]
  · rw [Record.get_withHashes_calculated, maskedWindow_append_trailer rfl zeros]

/-! ## A change of one byte -/

/-- Two byte sequences that differ in one place take a register to different values: that byte makes the registers
different, and every later byte keeps them so. -/
theorem foldl_crcByte_set_injective {l : Bytes} {k : Nat} {b : Byte} {a : Word32} (hk : k < l.length)
    (h : (l.set k b).foldl crcByte a = l.foldl crcByte a) : l[k]? = some b := by
  induction l generalizing k a with
  | nil => exact absurd hk (Nat.not_lt_zero k)
  | cons c l ih =>
    cases k with
    | zero => exact congrArg some (crcByte_right_injective (foldl_crcByte_injective l h)).symm
    | succ k => exact ih (Nat.lt_of_succ_lt_succ hk) h

theorem crcSum_set_ne {l : Bytes} {k : Nat} {b : Byte} (hk : k < l.length) (changed : l[k]? ≠ some b) :
    crcSum (l.set k b) ≠ crcSum l :=
  fun h => changed (foldl_crcByte_set_injective hk ((BitVec.xor_left_inj _).1 h))

/-- Outside the zerofill ranges, a byte of the data is a byte of the masked window. -/
theorem getElem?_maskedWindow {data : Bytes} {fields : Schema} {k : Nat} (hk : k + 1 + 4 < data.length)
    (unmasked : maskedAt fields (k + 1) = false) : (maskedWindow data fields)[k]? = data[k + 1]? := by
  rw [maskedWindow, List.getElem?_map, List.getElem?_range (by omega), Option.map_some, unmasked,
    if_neg Bool.false_ne_true, List.getD_eq_getElem?_getD, List.getElem?_eq_getElem (by omega), Option.getD_some]

/-- Replacing an unmasked byte of the data replaces that byte of the masked window. -/
theorem maskedWindow_set {data : Bytes} {fields : Schema} {k : Nat} (b : Byte) (hk : k + 1 + 4 < data.length)
    (unmasked : maskedAt fields (k + 1) = false) :
    maskedWindow (data.set (k + 1) b) fields = (maskedWindow data fields).set k b := by
  refine List.ext_getElem (by simp) fun i hi _ => ?_
  have window : i + 5 < data.length := by
    rw [length_maskedWindow, List.length_set] at hi
    omega
  simp only [maskedWindow, List.getElem_set, List.getElem_map, List.getElem_range, List.getD_eq_getElem?_getD]
  by_cases replaced : k = i
  · subst replaced
    simp [unmasked, show k + 1 < data.length by omega]
  · simp [replaced]

/-- Settles O41: the changed byte is one of the masked window (`maskedWindow_set`), and the checksum's fold over it is
one-to-one in each byte (`crcSum_set_ne`). -/
theorem msumDetectsSingleByteChange : Obligations.MsumDetectsSingleByteChange := by
  unfold Obligations.MsumDetectsSingleByteChange
  intro s data fields k b hc h1 hk changed zerofills
  obtain ⟨k, rfl⟩ := Nat.exists_eq_add_of_le' h1
  have valid : ∀ f ∈ fields, f.zerofill = true → f.startIdx ≤ f.endIdx ∧ f.endIdx < data.length := fun f hf hz =>
    (zerofills f hf hz).imp_right And.left
  have unmasked : maskedAt fields (k + 1) = false := by
    refine Bool.eq_false_iff.2 fun masked => ?_
    obtain ⟨f, hf, hz, within⟩ := maskedAt_iff.1 masked
    obtain ⟨-, -, outside⟩ := zerofills f hf hz
    exact outside within
  have inside : k < (maskedWindow data fields).length := by
    rw [length_maskedWindow]
    omega
  refine ⟨_, _, ?_, exec_crcMsum_of_valid hc (by omega) valid,
    exec_crcMsum_of_valid hc (by rw [List.length_set]; omega) (by rwa [List.length_set])⟩
  rw [maskedWindow_set b hk unmasked]
  exact (crcSum_set_ne inside (by rwa [getElem?_maskedWindow hk unmasked])).symm

end Sys2Proof.Machine
end

section
/-! PROOF. The outbound path (45_tx_build.md): TX.SEAL's trailer read back by FX.HASH and CRC.MSUM, and TX.BUILD as the
encoding of the sealed frame. -/

namespace Sys2Proof.Machine

/-! ## TX.SEAL -/

/-- What TX.SEAL makes of the field bytes (45_tx_build.md R211). -/
def sealedFrame (fields : Bytes) : Bytes := fields ++ littleEndianBytes (crcSum (fields.drop 1))

@[simp] theorem length_sealedFrame (fields : Bytes) : (sealedFrame fields).length = fields.length + 4 :=
  List.length_append

theorem exec_txSeal_nil {s : State} (hc : s.cfgErr = false) :
    exec (.txSeal []) s = .next (s.answer (.err (.frameTooShort 4)) []) :=
  exec_txSeal hc []

theorem exec_txSeal_of_pos {s : State} {fields : Bytes} (hc : s.cfgErr = false) (h : 1 ≤ fields.length) :
    exec (.txSeal fields) s = .next (s.answer (.ok (.seq (sealedFrame fields))) []) := by
  rw [exec_txSeal hc, txSeal_of_pos h]
  rfl

/-- With no fields to mask, CRC.MSUM of field bytes and any trailer is the checksum of the field bytes from 1 on. -/
theorem exec_crcMsum_append_trailer {s : State} {fields trailer : Bytes} (hc : s.cfgErr = false)
    (h : 1 ≤ fields.length) (ht : trailer.length = 4) :
    exec (.crcMsum (fields ++ trailer) []) s = .next (s.answer (.ok (.word (crcSum (fields.drop 1)))) []) := by
  have long : 5 ≤ (fields ++ trailer).length := by
    rw [List.length_append]
    omega
  rw [exec_crcMsum_of_valid hc long (List.forall_mem_nil _), maskedWindow_append_trailer ht (List.forall_mem_nil _)]

/-- FX.HASH of a sealed frame is the checksum in its trailer. -/
theorem exec_fxHash_sealedFrame {s : State} (hc : s.cfgErr = false) (fields : Bytes) :
    exec (.fxHash (sealedFrame fields)) s = .next (s.answer (.ok (.word (crcSum (fields.drop 1)))) []) := by
  rw [exec_fxHash_of_long hc (by simp), sealedFrame, trailerWord_append_littleEndianBytes]

/-- Settles O58: the trailer holds the checksum of the field bytes from 1 on, which CRC.MSUM answers whatever the
trailer is (`exec_crcMsum_append_trailer`). -/
theorem txSealAppendsChecksum : Obligations.TxSealAppendsChecksum := by
  unfold Obligations.TxSealAppendsChecksum
  refine fun s fields hc => ⟨fun h => h ▸ exec_txSeal_nil hc, fun h => ?_⟩
  exact ⟨sealedFrame fields, _, rfl, rfl, exec_txSeal_of_pos hc h, exec_crcMsum_append_trailer hc h rfl,
    exec_fxHash_sealedFrame hc fields, exec_crcMsum_append_trailer hc h rfl⟩

/-! ## TX.BUILD -/

theorem exec_txBuild {s : State} (hc : s.cfgErr = false) (fields : Bytes) (d : Byte) :
    exec (.txBuild fields d) s = s.okOrRaise ((txBuild fields d).map .seq) :=
  State.whenValid_of_valid hc _

theorem txBuild_of_pos {fields : Bytes} (h : 1 ≤ fields.length) (d : Byte) :
    txBuild fields d = .ok (cobsEncode (sealedFrame fields) d) := by
  rw [txBuild, txSeal_of_pos h, sealedFrame]

/-- Settles O59: TX.BUILD is COBS.ENC of the sealed frame, whose decoding, last byte and length are those of any
encoding. -/
theorem txBuildEncodesSealedFrame : Obligations.TxBuildEncodesSealedFrame := by
  unfold Obligations.TxBuildEncodesSealedFrame
  refine fun s fields d hc => ⟨fun h => h ▸ exec_txBuild hc [] d, fun h => ?_⟩
  refine ⟨sealedFrame fields, cobsEncode (sealedFrame fields) d, exec_txSeal_of_pos hc h, exec_cobsEnc hc _ d, ?_,
    exec_cobsDec_cobsEncode hc _ d, getLast?_cobsEncode _ d, fun short => ?_⟩
  · rw [exec_txBuild hc, txBuild_of_pos h]
    rfl
  · obtain ⟨-, -, lengthUpTo253⟩ := encodedLength (sealedFrame fields) d
    rw [lengthUpTo253 (by simp) (by simpa using short), length_sealedFrame]

end Sys2Proof.Machine
end

section
/-! PROOF. Statuses and refusals (60_exceptions.md): how an operation that answers can end, where it holds, that a
non-Ok status is precise, and the steps that no operation answers. -/

namespace Sys2Proof.Machine

/-! ## How an operation ends -/

/-- Operation `i` is not enabled in `s` (60_exceptions.md R236): the byte would emit a frame into a full FQ, or FR.CHK
finds no frame or no room. -/
def State.Blocks (s : State) (i : Instr) : Prop :=
  s.cfgErr = false ∧
    ((i = .scStep s.cfg.delim ∧ s.fatal = false ∧ s.readCount = s.cfg.pktSize ∧ s.fq.length = s.cfg.fqCap) ∨
      (i = .frChk ∧ (s.fq = [] ∨ s.dq.length = s.cfg.dqCap)))

/-- A blocked operation answers Hold and changes nothing. -/
theorem State.Blocks.exec_eq_hold {s : State} {i : Instr} (h : s.Blocks i) :
    exec i s = .next (s.answer .hold []) := by
  obtain ⟨hc, ⟨rfl, hf, hr, hq⟩ | ⟨rfl, hb⟩⟩ := h
  · exact (execScStep_eq_next _ s _).2 (.inr (.inr (.inl ⟨hc, hf, (State.scanHeld_iff s _).2 ⟨rfl, hr, hq⟩, rfl⟩)))
  · exact (execFrChk_eq_next s _).2 (.inr (.inl ⟨hc, hb, rfl⟩))

/-- The four ways operation `i` ends, from `s` in `t` (60_exceptions.md R230): with a value, with an error that
wrote nothing, with RX.PUSH's overflow, or with Hold where it is blocked. -/
inductive Ending (i : Instr) (s t : State) : Prop where
  | ok (v : Result) (h : t.status = some (.ok v))
  | error (e : Err) (ne : e ≠ .rxOverflow) (h : t = s.answer (.err e) [])
  | overflow (b : Byte) (hi : i = .rxPush b) (h : t = State.answer { s with fatal := true } (.err .rxOverflow) [])
  | hold (blocked : s.Blocks i) (h : t = s.answer .hold [])

/-- A status that is neither Hold nor RxOverflow, returned with nothing written, is a value or a precise error. -/
theorem Ending.of_status {i : Instr} {s : State} {st : Status} (hold : st ≠ .hold) (overflow : st ≠ .err .rxOverflow) :
    Ending i s (s.answer st []) := by
  cases st with
  | ok v => exact .ok v rfl
  | hold => exact absurd rfl hold
  | err e => exact .error e (fun he => overflow (congrArg Status.err he)) rfl

/-- A pass ends with Ok, whatever it met (43_frame_scanner.md R172). -/
theorem passLoop_status {n : Nat} {s t : State} {evs : List Event} (h : passLoop n s evs = .next t) :
    ∃ e, t.status = some (.ok (.pass e)) := by
  obtain ⟨_, _, _, e, _, rfl, _⟩ :=
    passLoop_induct (P := fun _ _ _ => True) n s t evs trivial (fun _ _ _ _ _ _ => trivial) h
  exact ⟨e, rfl⟩

/-- Every operation that answers ends in one of the four ways. -/
theorem exec_ending {i : Instr} {s t : State} (h : exec i s = .next t) : Ending i s t := by
  cases hp : pureOp i with
  | true =>
    obtain ⟨st, notHold, notOverflow, hst⟩ := exec_pure i hp
    cases hc : s.cfgErr with
    | true => rw [exec_cfgErr i s hc] at h; cases h; exact .error .configInvalid nofun rfl
    | false => rw [hst s hc] at h; cases h; exact .of_status notHold notOverflow
  | false =>
    cases i <;> simp only [pureOp, Bool.true_eq_false] at hp
    case rbEnq b =>
      rcases (execRbEnq_eq_next b s t).1 h with ⟨_, rfl⟩ | ⟨_, _, rfl⟩ | ⟨_, _, _, rfl⟩
      · exact .error .configInvalid nofun rfl
      · exact .error .full nofun rfl
      · exact .ok _ rfl
    case rbDeq =>
      rcases (execRbDeq_eq_next s t).1 h with ⟨_, rfl⟩ | ⟨_, _, rfl⟩ | ⟨_, _, _, rfl⟩
      · exact .error .configInvalid nofun rfl
      · exact .error .empty nofun rfl
      · exact .ok _ rfl
    case rbClr =>
      rcases (execRbClr_eq_next s t).1 h with ⟨_, rfl⟩ | ⟨_, rfl⟩
      · exact .error .configInvalid nofun rfl
      · exact .ok _ rfl
    case crcInit =>
      rcases (execCrcInit_eq_next s t).1 h with ⟨_, rfl⟩ | ⟨_, rfl⟩
      · exact .error .configInvalid nofun rfl
      · exact .ok _ rfl
    case crcUpd b =>
      rcases (execCrcUpd_eq_next b s t).1 h with ⟨_, rfl⟩ | ⟨_, rfl⟩
      · exact .error .configInvalid nofun rfl
      · exact .ok _ rfl
    case rxPush b =>
      rcases (execRxPush_eq_next b s t).1 h with ⟨_, rfl⟩ | ⟨_, _, rfl⟩ | ⟨_, _, _, rfl⟩ | ⟨_, _, _, _, rfl⟩
      · exact .error .configInvalid nofun rfl
      · exact .error .disconnected nofun rfl
      · exact .overflow b rfl rfl
      · exact .ok _ rfl
    case scStep b =>
      rcases (execScStep_eq_next b s t).1 h with ⟨_, rfl⟩ | ⟨_, _, rfl⟩ | ⟨hc, hf, hb, rfl⟩ | ⟨_, _, _, rfl⟩
      · exact .error .configInvalid nofun rfl
      · exact .error .disconnected nofun rfl
      · obtain ⟨rfl, hr, hq⟩ := (State.scanHeld_iff s b).1 hb
        exact .hold ⟨hc, .inl ⟨rfl, hf, hr, hq⟩⟩ rfl
      · exact .ok _ rfl
    case scPass =>
      rcases (execScPass_eq_next s t).1 h with ⟨_, rfl⟩ | ⟨_, _, rfl⟩ | ⟨_, _, _, rfl⟩ | ⟨_, _, _, pass⟩
      · exact .error .configInvalid nofun rfl
      · exact .error .disconnected nofun rfl
      · exact .ok _ rfl
      · obtain ⟨e, he⟩ := passLoop_status pass
        exact .ok _ he
    case frChk =>
      rcases (execFrChk_eq_next s t).1 h with ⟨_, rfl⟩ | ⟨hc, hb, rfl⟩ | ⟨_, _, _, _, _, rfl⟩
      · exact .error .configInvalid nofun rfl
      · exact .hold ⟨hc, .inr ⟨rfl, hb⟩⟩ rfl
      · exact .ok _ rfl
    all_goals
      obtain ⟨st, rfl, notHold, onlyConfig⟩ := execRead_eq_next _ (by simp) s t h
      exact .of_status notHold fun he => nomatch onlyConfig _ he

/-- Hold is answered exactly where the operation is blocked. -/
theorem exec_status_eq_hold_iff {i : Instr} {s t : State} (h : exec i s = .next t) :
    t.status = some .hold ↔ s.Blocks i := by
  refine ⟨fun hst => ?_, fun hb => ?_⟩
  · cases exec_ending h with
    | ok v ht => rw [ht] at hst; cases hst
    | error e _ ht => rw [ht] at hst; cases hst
    | overflow b _ ht => rw [ht] at hst; cases hst
    | hold blocked _ => exact blocked
  · rw [hb.exec_eq_hold] at h
    cases h
    rfl

/-- Hold is answered with nothing changed and nothing emitted. -/
theorem eq_answer_hold_of_status {i : Instr} {s t : State} (h : exec i s = .next t) (hst : t.status = some .hold) :
    t = s.answer .hold [] := by
  have held := ((exec_status_eq_hold_iff h).1 hst).exec_eq_hold
  rw [h] at held
  cases held
  rfl

/-! ## Every non-Ok status is precise -/

/-- An error is answered with nothing written and nothing emitted, RX.PUSH's overflow excepted. -/
theorem eq_answer_err_of_status {i : Instr} {s t : State} {e : Err} (h : exec i s = .next t)
    (hst : t.status = some (.err e)) :
    (e ≠ .rxOverflow ∧ t = s.answer (.err e) []) ∨
    (e = .rxOverflow ∧ (∃ b, i = .rxPush b) ∧ t = State.answer { s with fatal := true } (.err .rxOverflow) []) := by
  cases exec_ending h with
  | ok v ht => rw [ht] at hst; cases hst
  | error e' ne ht => subst ht; cases hst; exact .inl ⟨ne, rfl⟩
  | overflow b hi ht => subst ht; cases hst; exact .inr ⟨rfl, ⟨b, hi⟩, rfl⟩
  | hold _ ht => subst ht; cases hst

/-- An operation that emits any event answers Ok. -/
theorem exec_ok_of_mem_events {i : Instr} {s t : State} {ev : Event} (h : exec i s = .next t) (hev : ev ∈ t.events) :
    ∃ v, t.status = some (.ok v) := by
  cases exec_ending h with
  | ok v ht => exact ⟨v, ht⟩
  | error e _ ht => subst ht; cases hev
  | overflow b _ ht => subst ht; cases hev
  | hold _ ht => subst ht; cases hev

/-- A case of the scanner that emits an event empties the parse buffer (43_frame_scanner.md R162, R164, R165). -/
theorem State.scanCase_readCount_or_events (s : State) (b : Byte) :
    (s.scanCase b).1.readCount = 0 ∨ (s.scanCase b).2 = [] := by
  unfold State.scanCase
  by_cases hb : b = s.cfg.delim <;> cases s.parseFull <;> simp [hb]

/-- The defensive check empties the parse buffer or does nothing (43_frame_scanner.md R166). -/
theorem State.defensiveCheck_readCount_or_eq (s : State) :
    s.defensiveCheck.1.readCount = 0 ∨ s.defensiveCheck = (s, []) := by
  unfold State.defensiveCheck
  by_cases hr : s.cfg.pktSize < s.readCount <;> simp [hr]

/-- In every state, a byte that makes the scanner emit an event leaves the parse buffer empty. -/
theorem State.scanByte_readCount_of_mem_events {s : State} {b : Byte} {ev : Event} (h : ev ∈ (s.scanByte b).2) :
    (s.scanByte b).1.readCount = 0 := by
  simp only [State.scanByte] at h ⊢
  rcases (s.scanCase b).1.defensiveCheck_readCount_or_eq with hz | hkeep
  · exact hz
  · rw [hkeep] at h ⊢
    rcases s.scanCase_readCount_or_events b with hz | hnone
    · exact hz
    · simp [hnone] at h

/-- SC.STEP answers an event with Ok and leaves the parse buffer empty. -/
theorem execScStep_of_mem_events {b : Byte} {s t : State} {ev : Event} (h : exec (.scStep b) s = .next t)
    (hev : ev ∈ t.events) : t.status = some (.ok .unit) ∧ t.readCount = 0 := by
  rcases (execScStep_eq_next b s t).1 h with ⟨_, rfl⟩ | ⟨_, _, rfl⟩ | ⟨_, _, _, rfl⟩ | ⟨_, _, _, rfl⟩
  case inr.inr.inr => exact ⟨rfl, State.scanByte_readCount_of_mem_events hev⟩
  all_goals cases hev

/-- Settles O13: of the four endings of `exec_ending` only Ok emits an event, and of the others only the overflow
writes state; where the scanner emits an event, a warning among them, it has emptied the parse buffer. -/
theorem nonOkStatusesArePrecise : Obligations.NonOkStatusesArePrecise := by
  unfold Obligations.NonOkStatusesArePrecise
  exact ⟨fun i s t e h hst => eq_answer_err_of_status h hst, fun i s t h hst => eq_answer_hold_of_status h hst,
    fun i s t w h hw => exec_ok_of_mem_events h hw, fun b s t w h hw => execScStep_of_mem_events h hw⟩

/-! ## Where an operation holds -/

/-- With FQ empty SC.STEP is not blocked: a queue has a place (00_scope.md R11). -/
theorem State.not_blocks_scStep_of_fq_nil {s : State} (hq : s.fq = []) (b : Byte) : ¬s.Blocks (.scStep b) := by
  rintro ⟨_, ⟨_, _, hr, full⟩ | ⟨hi, _⟩⟩
  · have held := (State.scanHeld_iff s s.cfg.delim).2 ⟨rfl, hr, full⟩
    rw [State.scanHeld_of_fq_nil s _ hq] at held
    cases held
  · cases hi

/-- With a frame in FQ and DQ empty FR.CHK is not blocked. -/
theorem State.not_blocks_frChk_of_dq_nil {s : State} (hq : s.fq ≠ []) (hd : s.dq = []) : ¬s.Blocks .frChk := by
  rintro ⟨_, ⟨hi, _⟩ | ⟨_, noFrame | full⟩⟩
  · cases hi
  · exact hq noFrame
  · have room := State.dqFull_of_dq_nil s hd
    simp [State.dqFull, full] at room

/-- Settles O14: `exec_status_eq_hold_iff`, and an empty queue blocks nobody. -/
theorem holdExactlyWhenBlocked : Obligations.HoldExactlyWhenBlocked := by
  unfold Obligations.HoldExactlyWhenBlocked
  intro i s t h
  refine ⟨exec_status_eq_hold_iff h, eq_answer_hold_of_status h, ?_, ?_⟩
  · rintro hq ⟨b, rfl⟩ hst
    exact State.not_blocks_scStep_of_fq_nil hq b ((exec_status_eq_hold_iff h).1 hst)
  · rintro hq hd rfl hst
    exact State.not_blocks_frChk_of_dq_nil hq hd ((exec_status_eq_hold_iff h).1 hst)

/-! ## Steps that run no operation -/

/-- The pure operations are listed as APP's (20_memory.md R62). -/
theorem issuerOf_eq_app_of_pureOp (c : Config) {i : Instr} (h : pureOp i = true) : issuerOf c i = .app := by
  cases i <;> simp only [pureOp, Bool.false_eq_true] at h <;> rfl

/-- The operations that write ACC. -/
theorem writesAcc_iff (i : Instr) : writesAcc i = true ↔ i = .crcInit ∨ ∃ b, i = .crcUpd b := by
  cases i <;> simp [writesAcc]

/-- With a valid configuration, an operation on state is refused to every agent but that state's owner
(60_exceptions.md R245). -/
theorem step_of_not_owner {s : State} {a : Agent} {i : Instr} {rest : List Action}
    (hp : s.pending = .issue a (encode i) :: rest) (hc : s.cfgErr = false) (impure : pureOp i = false)
    (notOwner : a ≠ issuerOf s.cfg i) : step s = .refused (.notOwner a) := by
  rw [step_of_pending_cons hp]
  simp [perform, issue, decode_encode, hc, mayIssue, impure, notOwner]

/-- A defined code with operands that make no operation of its row (93_implementation_defined.md U11). -/
theorem decode_mismatch {r : Request} (defined : r.code ∈ definedCodes) (h : ∀ i, r ≠ encode i) :
    decode r = .error (.operandMismatch r.code) := by
  cases hd : decode r with
  | ok i => exact absurd ((decodedRequestIsItsEncoding r i).1 hd) (h i)
  | error e =>
    have row : opOfCode r.code ≠ none := fun ho => (opOfCode_eq_none r.code).1 ho defined
    unfold decode at hd
    split at hd
    · next ho => exact absurd ho row
    · split at hd <;> cases hd
      rfl

/-- Settles O5: `step_of_not_owner` for each owner's operations, `decode_mismatch` for ill-typed operands, and
`takeData_eq_next` for APP's taking of a RawFrame. -/
theorem stepOnOtherActions : Obligations.StepOnOtherActions := by
  unfold Obligations.StepOnOtherActions
  refine ⟨?reader, ?deframer, ?accOwner, ?operands, ?taken, ?nothing, fun s => step_of_pending_nil⟩
  case reader =>
    intro s a i rest hp hc ha hi
    have owner := issuerOf_eq_reader s.cfg hi
    have impure : pureOp i = false := by
      refine Bool.eq_false_iff.2 fun pure => ?_
      rw [issuerOf_eq_app_of_pureOp s.cfg pure] at owner
      cases owner
    exact step_of_not_owner hp hc impure (owner ▸ ha)
  case deframer => exact fun s a rest hp hc ha => step_of_not_owner hp hc rfl ha
  case accOwner =>
    intro s a i rest hp hc ha hi
    rw [writesAcc_iff] at hi
    rcases hi with (rfl | ⟨b, rfl⟩) | rfl <;> exact step_of_not_owner hp hc rfl ha
  case operands =>
    intro s a r rest hp defined h
    rw [step_of_pending_cons hp]
    simp [perform, issue, decode_mismatch defined h]
  case taken =>
    intro s rest r q hp hq
    rw [step_of_pending_cons hp]
    exact (takeData_eq_next _ _).2 (.inr ⟨r, q, hq, rfl⟩)
  case nothing =>
    intro s rest hp hq
    rw [step_of_pending_cons hp]
    exact (takeData_eq_next _ _).2 (.inl ⟨hq, rfl⟩)

end Sys2Proof.Machine
end

section
/-! PROOF. Reset and hazards (70_reset_and_hazards.md): the reset's test of the configuration, delimiters that are safe in
an encoding, a ring too small for a packet, and the room the reader's loop keeps in the ring. -/

namespace Sys2Proof.Machine

/-! ## The construction check -/

/-- The four tests of the configuration (00_scope.md R9). -/
theorem valid_iff (c : Config) :
    c.valid = true ↔ 1 ≤ c.msgSize ∧ 1 ≤ c.rdBuf ∧ 1 ≤ c.rbCap ∧ c.rdBuf ≤ c.rbCap := by
  simp [Config.valid, and_assoc]

/-- CFGERR right after reset is the outcome of the tests (10_state.md R35). -/
theorem State.cfgErr_resetWith_eq_false (c : Config) : (State.resetWith c).cfgErr = false ↔ c.valid = true := by
  simp [State.resetWith]

/-- Settles O7: the step is the reset action, and CFGERR after it is the outcome of `Config.valid`. -/
theorem hostResetComputesCfgErr : Obligations.HostResetComputesCfgErr := by
  unfold Obligations.HostResetComputesCfgErr
  intro s c rest hp
  exact ⟨{ State.resetWith c with pending := rest }, step_of_pending_cons hp,
    (State.cfgErr_resetWith_eq_false c).trans (valid_iff c)⟩

/-! ## Safe delimiters -/

theorem notMem_closeBlock {d : Byte} {lits : Bytes} : d ∉ closeBlock lits ↔ d ≠ codeByte lits ∧ d ∉ lits := by
  simp [closeBlock]

/-- A block's literals are never the delimiter, so the blocks hold it only as a code byte (30_encoding.md R73). -/
theorem notMem_encodeBlocks {d : Byte} {lits p : Bytes} (hd : d ∉ lits) (hl : lits.length ≤ 253)
    (hcode : ∀ l : Bytes, l.length ≤ 254 → l.length ≤ lits.length + p.length → d ≠ codeByte l) :
    d ∉ encodeBlocks d lits p := by
  induction p generalizing lits with
  | nil =>
    rw [encodeBlocks, notMem_closeBlock]
    exact ⟨hcode lits (by omega) (Nat.le_add_right _ _), hd⟩
  | cons b p ih =>
    rw [List.length_cons] at hcode
    have rest : d ∉ encodeBlocks d [] p :=
      ih List.not_mem_nil (Nat.zero_le _) fun l h254 hle => hcode l h254 (by simp at hle; omega)
    have block : ∀ l : Bytes, d ∉ l → l.length ≤ lits.length + 1 → d ∉ closeBlock l ++ encodeBlocks d [] p := by
      intro l hdl hle
      rw [List.mem_append, not_or, notMem_closeBlock]
      exact ⟨⟨hcode l (by omega) (by omega), hdl⟩, rest⟩
    unfold encodeBlocks
    split
    · exact block lits hd (Nat.le_succ _)
    · next hb =>
      have hd' : d ∉ lits ++ [b] := by simp [hd, Ne.symm hb]
      split
      · exact block (lits ++ [b]) hd' (by simp)
      · exact ih hd' (by simp; omega) fun l h254 hle => hcode l h254 (by simp at hle; omega)

/-- A delimiter that is no code byte of a block the payload can fill occurs in the encoding at its end only. -/
theorem notMem_dropLast_cobsEncode {d : Byte} {p : Bytes}
    (hcode : ∀ l : Bytes, l.length ≤ 254 → l.length ≤ p.length → d ≠ codeByte l) : d ∉ (cobsEncode p d).dropLast := by
  by_cases hp : p = []
  · subst hp
    exact List.not_mem_nil
  · rw [cobsEncode_eq p d hp, List.dropLast_concat]
    exact notMem_encodeBlocks List.not_mem_nil (Nat.zero_le _) (by simpa using hcode)

/-- Settles O34: no code byte is 0x00, and none is above the number of literals plus one, so
`notMem_dropLast_cobsEncode` applies to both delimiters. -/
theorem safeDelimiterOnlyTerminates : Obligations.SafeDelimiterOnlyTerminates := by
  unfold Obligations.SafeDelimiterOnlyTerminates
  refine ⟨fun p => notMem_dropLast_cobsEncode fun l h254 _ => (codeByte_ne_zero l h254).symm, fun p d _ above => ?_⟩
  refine notMem_dropLast_cobsEncode fun l h254 hle code => ?_
  rw [code, toNat_codeByte l h254] at above
  omega

/-! ## The ring between passes -/

/-- Below the gate SC.PASS scans nothing (43_frame_scanner.md R172). -/
theorem exec_scPass_of_gated {s : State} (hc : s.cfgErr = false) (hf : s.fatal = false)
    (hg : s.readCount + s.size < s.cfg.pktSize) : exec .scPass s = .next (s.answer (.ok (.pass .gated)) []) :=
  (execScPass_eq_next s _).2 (.inr (.inr (.inl ⟨hc, hf, hg, rfl⟩)))

/-- A push into a full ring latches FATAL (43_frame_scanner.md R160). -/
theorem exec_rxPush_of_full {s : State} (b : Byte) (hc : s.cfgErr = false) (hf : s.fatal = false)
    (hn : s.size = s.cfg.rbCap) :
    exec (.rxPush b) s = .next (State.answer { s with fatal := true } (.err .rxOverflow) []) :=
  (execRxPush_eq_next b s _).2 (.inr (.inr (.inl ⟨hc, hf, hn, rfl⟩)))

/-- Settles O48: the ring never holds more than its capacity, which is below the gate of an Idle scanner. -/
theorem smallRingNeverScans : Obligations.SmallRingNeverScans := by
  unfold Obligations.SmallRingNeverScans
  intro s b ⟨hsize, _, _⟩ hc hf hr hsmall
  have gate : s.readCount + s.size < s.cfg.pktSize := by omega
  exact ⟨exec_scPass_of_gated hc hf gate, exec_rxPush_of_full b hc hf⟩

/-- A pass that is not held empties the ring (43_frame_scanner.md R172). -/
theorem passLoop_size_of_not_held {s t : State} (h : passLoop s.size s [] = .next t)
    (hst : t.status ≠ some (.ok (.pass .held))) : t.size = 0 := by
  obtain ⟨m, u, es, e, hu, rfl, ⟨_, rfl⟩ | ⟨rfl, _⟩⟩ := passLoop_induct (P := fun n u _ => u.size = n) s.size s t [] rfl
    (fun m u es hu _ _ => by simp [hu]) h
  · exact hu
  · exact absurd (State.status_answer _ _ _) hst

/-- After an SC.PASS that is not held less than a packet lies in the ring: it was gated, or it emptied the ring. -/
theorem exec_scPass_size_lt {s t : State} (hc : s.cfgErr = false) (hf : s.fatal = false) (h : exec .scPass s = .next t)
    (hst : t.status ≠ some (.ok (.pass .held))) : t.size < s.cfg.pktSize := by
  rcases (execScPass_eq_next s t).1 h with ⟨err, _⟩ | ⟨_, dead, _⟩ | ⟨_, _, gate, rfl⟩ | ⟨_, _, _, pass⟩
  · exact absurd (hc.symm.trans err) Bool.false_ne_true
  · exact absurd (hf.symm.trans dead) Bool.false_ne_true
  · exact Nat.lt_of_le_of_lt (Nat.le_add_left _ _) gate
  · rw [passLoop_size_of_not_held pass hst]
    exact Nat.succ_pos _

/-- The configuration is no operation's to write (10_state.md R21). -/
theorem exec_cfg_eq {i : Instr} {s t : State} (h : exec i s = .next t) : t.cfg = s.cfg := by
  obtain ⟨_, _, _, _, _, _, _, _, _, hcfg, _⟩ := operationsWriteOnlyTheirColumns i s t h
  exact hcfg

/-- Settles O49: at most MSG_SIZE bytes are left in the ring (`exec_scPass_size_lt`), so it has room for the read, and
`trace_rxPush` applies to the pushes. -/
theorem readerLoopNeverOverflows : Obligations.ReaderLoopNeverOverflows := by
  unfold Obligations.ReaderLoopNeverOverflows
  intro s t bs hs hc hf h hst
  have left : t.size ≤ s.cfg.msgSize := Nat.le_of_lt_succ (exec_scPass_size_lt hc hf h hst)
  refine ⟨left, fun hcap hbs => ?_⟩
  have live : t.fatal = false := (exec_fatal_eq rfl h).trans hf
  have room : t.size + bs.length ≤ t.cfg.rbCap := by
    rw [exec_cfg_eq h]
    omega
  obtain ⟨u, pushes, _, contents, frame⟩ :=
    trace_rxPush (State.inv_exec hs h) ((exec_cfgErr_eq h).trans hc) live room
  refine ⟨u, pushes, ?_, contents⟩
  rw [frame]
  exact live

end Sys2Proof.Machine
end
